-- ==== Sys2Proof/Word.lean ====
section
/-! DEFINITION. The word types of the core: 32-bit words and addresses, bytes, and the register and
field widths of the instruction formats (00_scope.md R13, R17, R19). -/

namespace Sys2Proof

/-- A register value, an address or an extended immediate: 32 bits, arithmetic modulo 2^32 (R17). -/
abbrev Word := BitVec 32

/-- The unit of memory (R13: "byte-addressable"). -/
abbrev Byte := BitVec 8

/-- A register index as an instruction names it: 5 bits, so never out of range (R19, R102). -/
abbrev Reg := BitVec 5

/-- A CSR address: 12 bits (R120). -/
abbrev CsrAddr := BitVec 12

end Sys2Proof
end

