-- ==== Sys2Proof/Syntax.lean ====
section
/-! DEFINITION. The instructions: one constructor per row of spec/opcode_table.json, in the table's
order (30_encoding.md R324). Register fields and unsigned fields are the 5-bit fields themselves;
immI and immS are the 12-bit fields, sign-extended where used; immB (13 bits) and immJ (21 bits)
carry their bit 0, which is 0 in a well-formed instruction; immU is the 32-bit value whose low 12
bits are 0 in a well-formed instruction (R310 to R315). Fields the decoder ignores (R332) are no
part of the syntax: they have no effect. -/

namespace Sys2Proof

/-- An instruction of the core. -/
inductive Instr where
  /-- LUI: R460. -/
  | lui (rd : Reg) (imm : Word)
  /-- AUIPC: R461. -/
  | auipc (rd : Reg) (imm : Word)
  /-- JAL: R462. -/
  | jal (rd : Reg) (imm : BitVec 21)
  /-- JALR: R463. -/
  | jalr (rd rs1 : Reg) (imm : BitVec 12)
  /-- BEQ: R464. -/
  | beq (rs1 rs2 : Reg) (imm : BitVec 13)
  /-- BNE: R465. -/
  | bne (rs1 rs2 : Reg) (imm : BitVec 13)
  /-- BLT: R466. -/
  | blt (rs1 rs2 : Reg) (imm : BitVec 13)
  /-- BGE: R467. -/
  | bge (rs1 rs2 : Reg) (imm : BitVec 13)
  /-- BLTU: R468. -/
  | bltu (rs1 rs2 : Reg) (imm : BitVec 13)
  /-- BGEU: R469. -/
  | bgeu (rs1 rs2 : Reg) (imm : BitVec 13)
  /-- LB: R501. -/
  | lb (rd rs1 : Reg) (imm : BitVec 12)
  /-- LH: R502. -/
  | lh (rd rs1 : Reg) (imm : BitVec 12)
  /-- LW: R503. -/
  | lw (rd rs1 : Reg) (imm : BitVec 12)
  /-- LBU: R504. -/
  | lbu (rd rs1 : Reg) (imm : BitVec 12)
  /-- LHU: R505. -/
  | lhu (rd rs1 : Reg) (imm : BitVec 12)
  /-- SB: R506. -/
  | sb (rs1 rs2 : Reg) (imm : BitVec 12)
  /-- SH: R507. -/
  | sh (rs1 rs2 : Reg) (imm : BitVec 12)
  /-- SW: R508. -/
  | sw (rs1 rs2 : Reg) (imm : BitVec 12)
  /-- ADDI: R421. -/
  | addi (rd rs1 : Reg) (imm : BitVec 12)
  /-- SLTI: R422. -/
  | slti (rd rs1 : Reg) (imm : BitVec 12)
  /-- SLTIU: R423. -/
  | sltiu (rd rs1 : Reg) (imm : BitVec 12)
  /-- XORI: R424. -/
  | xori (rd rs1 : Reg) (imm : BitVec 12)
  /-- ORI: R425. -/
  | ori (rd rs1 : Reg) (imm : BitVec 12)
  /-- ANDI: R426. -/
  | andi (rd rs1 : Reg) (imm : BitVec 12)
  /-- SLLI: R427. -/
  | slli (rd rs1 : Reg) (shamt : BitVec 5)
  /-- SRLI: R428. -/
  | srli (rd rs1 : Reg) (shamt : BitVec 5)
  /-- SRAI: R429. -/
  | srai (rd rs1 : Reg) (shamt : BitVec 5)
  /-- ADD: R430. -/
  | add (rd rs1 rs2 : Reg)
  /-- SUB: R431. -/
  | sub (rd rs1 rs2 : Reg)
  /-- SLL: R432. -/
  | sll (rd rs1 rs2 : Reg)
  /-- SLT: R433. -/
  | slt (rd rs1 rs2 : Reg)
  /-- SLTU: R434. -/
  | sltu (rd rs1 rs2 : Reg)
  /-- XOR: R435. -/
  | xor (rd rs1 rs2 : Reg)
  /-- SRL: R436. -/
  | srl (rd rs1 rs2 : Reg)
  /-- SRA: R437. -/
  | sra (rd rs1 rs2 : Reg)
  /-- OR: R438. -/
  | or (rd rs1 rs2 : Reg)
  /-- AND: R439. -/
  | and (rd rs1 rs2 : Reg)
  /-- FENCE: R520. -/
  | fence
  /-- FENCE.I: R521. -/
  | fenceI
  /-- SCALL: R621. -/
  | scall
  /-- SBREAK: R622. -/
  | sbreak
  /-- ERET: R632. -/
  | eret
  /-- CSRRW: R640. -/
  | csrrw (rd rs1 : Reg) (csr : CsrAddr)
  /-- CSRRS: R641. -/
  | csrrs (rd rs1 : Reg) (csr : CsrAddr)
  /-- CSRRC: R642. -/
  | csrrc (rd rs1 : Reg) (csr : CsrAddr)
  /-- CSRRWI: R643. -/
  | csrrwi (rd : Reg) (uimm : BitVec 5) (csr : CsrAddr)
  /-- CSRRSI: R644. -/
  | csrrsi (rd : Reg) (uimm : BitVec 5) (csr : CsrAddr)
  /-- CSRRCI: R645. -/
  | csrrci (rd : Reg) (uimm : BitVec 5) (csr : CsrAddr)
  /-- MUL: R581. -/
  | mul (rd rs1 rs2 : Reg)
  /-- MULH: R582. -/
  | mulh (rd rs1 rs2 : Reg)
  /-- MULHSU: R583. -/
  | mulhsu (rd rs1 rs2 : Reg)
  /-- MULHU: R584. -/
  | mulhu (rd rs1 rs2 : Reg)
  /-- DIV: R585. -/
  | div (rd rs1 rs2 : Reg)
  /-- DIVU: R586. -/
  | divu (rd rs1 rs2 : Reg)
  /-- REM: R587. -/
  | rem (rd rs1 rs2 : Reg)
  /-- REMU: R588. -/
  | remu (rd rs1 rs2 : Reg)
  /-- LR.W: R540. -/
  | lrW (rd rs1 : Reg)
  /-- SC.W: R541. -/
  | scW (rd rs1 rs2 : Reg)
  /-- AMOSWAP.W: R546. -/
  | amoswapW (rd rs1 rs2 : Reg)
  /-- AMOADD.W: R547. -/
  | amoaddW (rd rs1 rs2 : Reg)
  /-- AMOXOR.W: R548. -/
  | amoxorW (rd rs1 rs2 : Reg)
  /-- AMOAND.W: R549. -/
  | amoandW (rd rs1 rs2 : Reg)
  /-- AMOOR.W: R550. -/
  | amoorW (rd rs1 rs2 : Reg)
  /-- AMOMIN.W: R551. -/
  | amominW (rd rs1 rs2 : Reg)
  /-- AMOMAX.W: R552. -/
  | amomaxW (rd rs1 rs2 : Reg)
  /-- AMOMINU.W: R553. -/
  | amominuW (rd rs1 rs2 : Reg)
  /-- AMOMAXU.W: R554. -/
  | amomaxuW (rd rs1 rs2 : Reg)
deriving DecidableEq, Repr

end Sys2Proof
end

