-- ==== Sys2Proof/WellFormed.lean ====
section
/-! DEFINITION. Which terms of `Instr` are instructions: the immediates that the encodings can hold
(30_encoding.md R312, R313, R314). Every other operand is well-formed by its type. -/

namespace Sys2Proof

/-- R312: immB is "a multiple of 2". -/
def branchOffsetOk (imm : BitVec 13) : Bool := imm.extractLsb' 0 1 == 0#1

/-- R314: immJ is "a multiple of 2". -/
def jumpOffsetOk (imm : BitVec 21) : Bool := imm.extractLsb' 0 1 == 0#1

/-- R313: the low 12 bits of immU are zero. -/
def upperImmediateOk (imm : Word) : Bool := imm.extractLsb' 0 12 == 0#12

/-- The instruction's immediates are ones that its encoding holds. -/
def Instr.wellFormed : Instr → Bool
  | .lui _ imm | .auipc _ imm => upperImmediateOk imm
  | .jal _ imm => jumpOffsetOk imm
  | .beq _ _ imm | .bne _ _ imm | .blt _ _ imm
  | .bge _ _ imm | .bltu _ _ imm | .bgeu _ _ imm => branchOffsetOk imm
  | .jalr .. | .lb .. | .lh .. | .lw .. | .lbu .. | .lhu .. | .sb .. | .sh .. | .sw ..
  | .addi .. | .slti .. | .sltiu .. | .xori .. | .ori .. | .andi .. | .slli .. | .srli .. | .srai ..
  | .add .. | .sub .. | .sll .. | .slt .. | .sltu .. | .xor .. | .srl .. | .sra .. | .or .. | .and ..
  | .fence | .fenceI | .scall | .sbreak | .eret
  | .csrrw .. | .csrrs .. | .csrrc .. | .csrrwi .. | .csrrsi .. | .csrrci ..
  | .mul .. | .mulh .. | .mulhsu .. | .mulhu .. | .div .. | .divu .. | .rem .. | .remu ..
  | .lrW .. | .scW .. | .amoswapW .. | .amoaddW .. | .amoxorW .. | .amoandW .. | .amoorW ..
  | .amominW .. | .amomaxW .. | .amominuW .. | .amomaxuW .. => true

end Sys2Proof
end

