-- ==== Sys2Proof/Decode.lean ====
section
/-! DEFINITION. The decoder and the encoder (30_encoding.md), with the bit fields and the byte order
they rest on. The decoder follows the spec's three steps: bits 1:0 (R320), the opcode tag (R321,
R322), the group's own fields (R323); it is total on words and on bytes, and what it does not accept
it rejects by name (R330). The numeric values are those of D24 (log 21). -/

namespace Sys2Proof

/-! ## Byte order (D1, R233, log 1) -/

/-- The number that bytes hold, the first one least significant. -/
def leValue : List Byte → Nat
  | [] => 0
  | b :: bs => b.toNat + 256 * leValue bs

/-- The `n` low bytes of a number, least significant first. -/
def leBytes : Nat → Nat → List Byte
  | 0, _ => []
  | n + 1, v => BitVec.ofNat 8 v :: leBytes n (v / 256)

/-! ## Fields of an instruction word (R19, R301, R302) -/

/-- insn[6:2], the opcode-group tag. -/
def tagOf (w : Word) : BitVec 5 := w.extractLsb' 2 5
/-- insn[11:7]. -/
def rdOf (w : Word) : Reg := w.extractLsb' 7 5
/-- insn[14:12]. -/
def funct3Of (w : Word) : BitVec 3 := w.extractLsb' 12 3
/-- insn[19:15]; the immediate CSR forms read it as uimm. -/
def rs1Of (w : Word) : Reg := w.extractLsb' 15 5
/-- insn[24:20]; the shift-immediate forms read it as shamt. -/
def rs2Of (w : Word) : Reg := w.extractLsb' 20 5
/-- insn[31:25]. -/
def funct7Of (w : Word) : BitVec 7 := w.extractLsb' 25 7
/-- insn[31:27], the AMO selector. -/
def funct5Of (w : Word) : BitVec 5 := w.extractLsb' 27 5
/-- insn[31:20]: funct12, the csr address and the raw I-immediate. -/
def funct12Of (w : Word) : BitVec 12 := w.extractLsb' 20 12

/-- R310, before the sign extension. -/
def immIOf (w : Word) : BitVec 12 := funct12Of w
/-- R311, before the sign extension. -/
def immSOf (w : Word) : BitVec 12 := w.extractLsb' 25 7 ++ w.extractLsb' 7 5
/-- R312, before the sign extension. -/
def immBOf (w : Word) : BitVec 13 :=
  w.extractLsb' 31 1 ++ w.extractLsb' 7 1 ++ w.extractLsb' 25 6 ++ w.extractLsb' 8 4 ++ 0#1
/-- R313. -/
def immUOf (w : Word) : Word := w.extractLsb' 12 20 ++ 0#12
/-- R314, before the sign extension. -/
def immJOf (w : Word) : BitVec 21 :=
  w.extractLsb' 31 1 ++ w.extractLsb' 12 8 ++ w.extractLsb' 20 1 ++ w.extractLsb' 21 10 ++ 0#1

/-! ## The decoder (R320 to R323) -/

/-- Why a word is no instruction of this core (R330 (a) to (c)); `truncated` is the byte decoder's
own, for fewer than four bytes. -/
inductive Reject where
  | truncated
  | notThirtyTwoBit
  | unknownTag
  | loadFunct3
  | storeFunct3
  | miscMemFunct3
  | opImmFunct7
  | opFunct3
  | opFunct7
  | branchFunct3
  | jalrFunct3
  | amoFunct3
  | amoFunct5
  | systemFunct3
  | systemFunct12
deriving DecidableEq, Repr

/-- Tag LOAD (R323, R509). -/
def decodeLoad (w : Word) : Except Reject Instr :=
  match funct3Of w with
  | 0b000#3 => .ok (.lb (rdOf w) (rs1Of w) (immIOf w))
  | 0b001#3 => .ok (.lh (rdOf w) (rs1Of w) (immIOf w))
  | 0b010#3 => .ok (.lw (rdOf w) (rs1Of w) (immIOf w))
  | 0b100#3 => .ok (.lbu (rdOf w) (rs1Of w) (immIOf w))
  | 0b101#3 => .ok (.lhu (rdOf w) (rs1Of w) (immIOf w))
  | _ => .error .loadFunct3

/-- Tag STORE (R323, R510). -/
def decodeStore (w : Word) : Except Reject Instr :=
  match funct3Of w with
  | 0b000#3 => .ok (.sb (rs1Of w) (rs2Of w) (immSOf w))
  | 0b001#3 => .ok (.sh (rs1Of w) (rs2Of w) (immSOf w))
  | 0b010#3 => .ok (.sw (rs1Of w) (rs2Of w) (immSOf w))
  | _ => .error .storeFunct3

/-- Tag MISC-MEM (R323, R522, D23). -/
def decodeMiscMem (w : Word) : Except Reject Instr :=
  match funct3Of w with
  | 0b000#3 => .ok .fence
  | 0b001#3 => .ok .fenceI
  | _ => .error .miscMemFunct3

/-- Tag OP-IMM (R440). -/
def decodeOpImm (w : Word) : Except Reject Instr :=
  match funct3Of w with
  | 0b000#3 => .ok (.addi (rdOf w) (rs1Of w) (immIOf w))
  | 0b010#3 => .ok (.slti (rdOf w) (rs1Of w) (immIOf w))
  | 0b011#3 => .ok (.sltiu (rdOf w) (rs1Of w) (immIOf w))
  | 0b100#3 => .ok (.xori (rdOf w) (rs1Of w) (immIOf w))
  | 0b110#3 => .ok (.ori (rdOf w) (rs1Of w) (immIOf w))
  | 0b111#3 => .ok (.andi (rdOf w) (rs1Of w) (immIOf w))
  | 0b001#3 =>
    match funct7Of w with
    | 0b0000000#7 => .ok (.slli (rdOf w) (rs1Of w) (rs2Of w))
    | _ => .error .opImmFunct7
  | _ =>
    match funct7Of w with
    | 0b0000000#7 => .ok (.srli (rdOf w) (rs1Of w) (rs2Of w))
    | 0b0100000#7 => .ok (.srai (rdOf w) (rs1Of w) (rs2Of w))
    | _ => .error .opImmFunct7

/-- Tag OP: funct7 first, then funct3 (R441, R580). -/
def decodeOp (w : Word) : Except Reject Instr :=
  match funct7Of w with
  | 0b0000000#7 =>
    match funct3Of w with
    | 0b000#3 => .ok (.add (rdOf w) (rs1Of w) (rs2Of w))
    | 0b001#3 => .ok (.sll (rdOf w) (rs1Of w) (rs2Of w))
    | 0b010#3 => .ok (.slt (rdOf w) (rs1Of w) (rs2Of w))
    | 0b011#3 => .ok (.sltu (rdOf w) (rs1Of w) (rs2Of w))
    | 0b100#3 => .ok (.xor (rdOf w) (rs1Of w) (rs2Of w))
    | 0b101#3 => .ok (.srl (rdOf w) (rs1Of w) (rs2Of w))
    | 0b110#3 => .ok (.or (rdOf w) (rs1Of w) (rs2Of w))
    | _ => .ok (.and (rdOf w) (rs1Of w) (rs2Of w))
  | 0b0100000#7 =>
    match funct3Of w with
    | 0b000#3 => .ok (.sub (rdOf w) (rs1Of w) (rs2Of w))
    | 0b101#3 => .ok (.sra (rdOf w) (rs1Of w) (rs2Of w))
    | _ => .error .opFunct3
  | 0b0000001#7 =>
    match funct3Of w with
    | 0b000#3 => .ok (.mul (rdOf w) (rs1Of w) (rs2Of w))
    | 0b001#3 => .ok (.mulh (rdOf w) (rs1Of w) (rs2Of w))
    | 0b010#3 => .ok (.mulhsu (rdOf w) (rs1Of w) (rs2Of w))
    | 0b011#3 => .ok (.mulhu (rdOf w) (rs1Of w) (rs2Of w))
    | 0b100#3 => .ok (.div (rdOf w) (rs1Of w) (rs2Of w))
    | 0b101#3 => .ok (.divu (rdOf w) (rs1Of w) (rs2Of w))
    | 0b110#3 => .ok (.rem (rdOf w) (rs1Of w) (rs2Of w))
    | _ => .ok (.remu (rdOf w) (rs1Of w) (rs2Of w))
  | _ => .error .opFunct7

/-- Tag BRANCH (R323, R472). -/
def decodeBranch (w : Word) : Except Reject Instr :=
  match funct3Of w with
  | 0b000#3 => .ok (.beq (rs1Of w) (rs2Of w) (immBOf w))
  | 0b001#3 => .ok (.bne (rs1Of w) (rs2Of w) (immBOf w))
  | 0b100#3 => .ok (.blt (rs1Of w) (rs2Of w) (immBOf w))
  | 0b101#3 => .ok (.bge (rs1Of w) (rs2Of w) (immBOf w))
  | 0b110#3 => .ok (.bltu (rs1Of w) (rs2Of w) (immBOf w))
  | 0b111#3 => .ok (.bgeu (rs1Of w) (rs2Of w) (immBOf w))
  | _ => .error .branchFunct3

/-- Tag JALR (R323, D23). -/
def decodeJalr (w : Word) : Except Reject Instr :=
  match funct3Of w with
  | 0b000#3 => .ok (.jalr (rdOf w) (rs1Of w) (immIOf w))
  | _ => .error .jalrFunct3

/-- Tag AMO: funct3 must be 010, then funct5 selects (R543); aq and rl are ignored (R545). -/
def decodeAmo (w : Word) : Except Reject Instr :=
  match funct3Of w with
  | 0b010#3 =>
    match funct5Of w with
    | 0b00010#5 => .ok (.lrW (rdOf w) (rs1Of w))
    | 0b00011#5 => .ok (.scW (rdOf w) (rs1Of w) (rs2Of w))
    | 0b00001#5 => .ok (.amoswapW (rdOf w) (rs1Of w) (rs2Of w))
    | 0b00000#5 => .ok (.amoaddW (rdOf w) (rs1Of w) (rs2Of w))
    | 0b00100#5 => .ok (.amoxorW (rdOf w) (rs1Of w) (rs2Of w))
    | 0b01100#5 => .ok (.amoandW (rdOf w) (rs1Of w) (rs2Of w))
    | 0b01000#5 => .ok (.amoorW (rdOf w) (rs1Of w) (rs2Of w))
    | 0b10000#5 => .ok (.amominW (rdOf w) (rs1Of w) (rs2Of w))
    | 0b10100#5 => .ok (.amomaxW (rdOf w) (rs1Of w) (rs2Of w))
    | 0b11000#5 => .ok (.amominuW (rdOf w) (rs1Of w) (rs2Of w))
    | 0b11100#5 => .ok (.amomaxuW (rdOf w) (rs1Of w) (rs2Of w))
    | _ => .error .amoFunct5
  | _ => .error .amoFunct3

/-- Tag SYSTEM (R620, R630). -/
def decodeSystem (w : Word) : Except Reject Instr :=
  match funct3Of w with
  | 0b000#3 =>
    match funct12Of w with
    | 0x000#12 => .ok .scall
    | 0x001#12 => .ok .sbreak
    | 0x100#12 => .ok .eret
    | _ => .error .systemFunct12
  | 0b001#3 => .ok (.csrrw (rdOf w) (rs1Of w) (funct12Of w))
  | 0b010#3 => .ok (.csrrs (rdOf w) (rs1Of w) (funct12Of w))
  | 0b011#3 => .ok (.csrrc (rdOf w) (rs1Of w) (funct12Of w))
  | 0b101#3 => .ok (.csrrwi (rdOf w) (rs1Of w) (funct12Of w))
  | 0b110#3 => .ok (.csrrsi (rdOf w) (rs1Of w) (funct12Of w))
  | 0b111#3 => .ok (.csrrci (rdOf w) (rs1Of w) (funct12Of w))
  | _ => .error .systemFunct3

/-- The tag dispatch: twelve groups, every other tag rejected (R321, R322). -/
def decodeGroup (w : Word) : Except Reject Instr :=
  match tagOf w with
  | 0b00000#5 => decodeLoad w
  | 0b00011#5 => decodeMiscMem w
  | 0b00100#5 => decodeOpImm w
  | 0b00101#5 => .ok (.auipc (rdOf w) (immUOf w))
  | 0b01000#5 => decodeStore w
  | 0b01011#5 => decodeAmo w
  | 0b01100#5 => decodeOp w
  | 0b01101#5 => .ok (.lui (rdOf w) (immUOf w))
  | 0b11000#5 => decodeBranch w
  | 0b11001#5 => decodeJalr w
  | 0b11011#5 => .ok (.jal (rdOf w) (immJOf w))
  | 0b11100#5 => decodeSystem w
  | _ => .error .unknownTag

/-- The instruction a 32-bit word is, or why it is none (R320 to R323, R333). -/
def decodeWord (w : Word) : Except Reject Instr :=
  if w.extractLsb' 0 2 = 0b11#2 then decodeGroup w else .error .notThirtyTwoBit

/-- The instruction at the head of a list of bytes and the bytes after it (R300: always four). -/
def decode : List Byte → Except Reject (Instr × List Byte)
  | b0 :: b1 :: b2 :: b3 :: rest =>
    match decodeWord (BitVec.ofNat 32 (leValue [b0, b1, b2, b3])) with
    | .ok i => .ok (i, rest)
    | .error r => .error r
  | _ => .error .truncated

/-- The instruction the decoder reads from an opcode-table row's bits: bit 0 of `w` is the least
significant bit of the instruction word, and the bits above `nbits` are 0. -/
def decodeTableWord (nbits w : Nat) : Option Instr :=
  match decode (leBytes 4 (w % 2 ^ nbits)) with
  | .ok (i, _) => some i
  | .error _ => none

/-! ## The encoder (R301, R302, R324) -/

/-- The R format. -/
def rType (funct7 : BitVec 7) (rs2 rs1 : Reg) (funct3 : BitVec 3) (rd : Reg) (opcode : BitVec 7) :
    Word :=
  funct7 ++ rs2 ++ rs1 ++ funct3 ++ rd ++ opcode

/-- The I format; its 12-bit field is immI, csr or funct12. -/
def iType (imm : BitVec 12) (rs1 : Reg) (funct3 : BitVec 3) (rd : Reg) (opcode : BitVec 7) : Word :=
  imm ++ rs1 ++ funct3 ++ rd ++ opcode

/-- The S format. -/
def sType (imm : BitVec 12) (rs2 rs1 : Reg) (funct3 : BitVec 3) (opcode : BitVec 7) : Word :=
  imm.extractLsb' 5 7 ++ rs2 ++ rs1 ++ funct3 ++ imm.extractLsb' 0 5 ++ opcode

/-- The B format. -/
def bType (imm : BitVec 13) (rs2 rs1 : Reg) (funct3 : BitVec 3) (opcode : BitVec 7) : Word :=
  imm.extractLsb' 12 1 ++ imm.extractLsb' 5 6 ++ rs2 ++ rs1 ++ funct3 ++
    imm.extractLsb' 1 4 ++ imm.extractLsb' 11 1 ++ opcode

/-- The U format. -/
def uType (imm : Word) (rd : Reg) (opcode : BitVec 7) : Word :=
  imm.extractLsb' 12 20 ++ rd ++ opcode

/-- The J format. -/
def jType (imm : BitVec 21) (rd : Reg) (opcode : BitVec 7) : Word :=
  imm.extractLsb' 20 1 ++ imm.extractLsb' 1 10 ++ imm.extractLsb' 11 1 ++
    imm.extractLsb' 12 8 ++ rd ++ opcode

/-- The AMO form of the R format, with aq = rl = 0 (R302, R545). -/
def amoType (funct5 : BitVec 5) (rs2 rs1 rd : Reg) : Word :=
  rType (funct5 ++ 0b00#2) rs2 rs1 0b010#3 rd 0b0101111#7

/-- The word of an instruction, with 0 in every field the decoder ignores (R332). -/
def encode : Instr → Word
  | .lui rd imm => uType imm rd 0b0110111#7
  | .auipc rd imm => uType imm rd 0b0010111#7
  | .jal rd imm => jType imm rd 0b1101111#7
  | .jalr rd rs1 imm => iType imm rs1 0b000#3 rd 0b1100111#7
  | .beq rs1 rs2 imm => bType imm rs2 rs1 0b000#3 0b1100011#7
  | .bne rs1 rs2 imm => bType imm rs2 rs1 0b001#3 0b1100011#7
  | .blt rs1 rs2 imm => bType imm rs2 rs1 0b100#3 0b1100011#7
  | .bge rs1 rs2 imm => bType imm rs2 rs1 0b101#3 0b1100011#7
  | .bltu rs1 rs2 imm => bType imm rs2 rs1 0b110#3 0b1100011#7
  | .bgeu rs1 rs2 imm => bType imm rs2 rs1 0b111#3 0b1100011#7
  | .lb rd rs1 imm => iType imm rs1 0b000#3 rd 0b0000011#7
  | .lh rd rs1 imm => iType imm rs1 0b001#3 rd 0b0000011#7
  | .lw rd rs1 imm => iType imm rs1 0b010#3 rd 0b0000011#7
  | .lbu rd rs1 imm => iType imm rs1 0b100#3 rd 0b0000011#7
  | .lhu rd rs1 imm => iType imm rs1 0b101#3 rd 0b0000011#7
  | .sb rs1 rs2 imm => sType imm rs2 rs1 0b000#3 0b0100011#7
  | .sh rs1 rs2 imm => sType imm rs2 rs1 0b001#3 0b0100011#7
  | .sw rs1 rs2 imm => sType imm rs2 rs1 0b010#3 0b0100011#7
  | .addi rd rs1 imm => iType imm rs1 0b000#3 rd 0b0010011#7
  | .slti rd rs1 imm => iType imm rs1 0b010#3 rd 0b0010011#7
  | .sltiu rd rs1 imm => iType imm rs1 0b011#3 rd 0b0010011#7
  | .xori rd rs1 imm => iType imm rs1 0b100#3 rd 0b0010011#7
  | .ori rd rs1 imm => iType imm rs1 0b110#3 rd 0b0010011#7
  | .andi rd rs1 imm => iType imm rs1 0b111#3 rd 0b0010011#7
  | .slli rd rs1 shamt => rType 0b0000000#7 shamt rs1 0b001#3 rd 0b0010011#7
  | .srli rd rs1 shamt => rType 0b0000000#7 shamt rs1 0b101#3 rd 0b0010011#7
  | .srai rd rs1 shamt => rType 0b0100000#7 shamt rs1 0b101#3 rd 0b0010011#7
  | .add rd rs1 rs2 => rType 0b0000000#7 rs2 rs1 0b000#3 rd 0b0110011#7
  | .sub rd rs1 rs2 => rType 0b0100000#7 rs2 rs1 0b000#3 rd 0b0110011#7
  | .sll rd rs1 rs2 => rType 0b0000000#7 rs2 rs1 0b001#3 rd 0b0110011#7
  | .slt rd rs1 rs2 => rType 0b0000000#7 rs2 rs1 0b010#3 rd 0b0110011#7
  | .sltu rd rs1 rs2 => rType 0b0000000#7 rs2 rs1 0b011#3 rd 0b0110011#7
  | .xor rd rs1 rs2 => rType 0b0000000#7 rs2 rs1 0b100#3 rd 0b0110011#7
  | .srl rd rs1 rs2 => rType 0b0000000#7 rs2 rs1 0b101#3 rd 0b0110011#7
  | .sra rd rs1 rs2 => rType 0b0100000#7 rs2 rs1 0b101#3 rd 0b0110011#7
  | .or rd rs1 rs2 => rType 0b0000000#7 rs2 rs1 0b110#3 rd 0b0110011#7
  | .and rd rs1 rs2 => rType 0b0000000#7 rs2 rs1 0b111#3 rd 0b0110011#7
  | .fence => iType 0#12 0#5 0b000#3 0#5 0b0001111#7
  | .fenceI => iType 0#12 0#5 0b001#3 0#5 0b0001111#7
  | .scall => iType 0x000#12 0#5 0b000#3 0#5 0b1110011#7
  | .sbreak => iType 0x001#12 0#5 0b000#3 0#5 0b1110011#7
  | .eret => iType 0x100#12 0#5 0b000#3 0#5 0b1110011#7
  | .csrrw rd rs1 csr => iType csr rs1 0b001#3 rd 0b1110011#7
  | .csrrs rd rs1 csr => iType csr rs1 0b010#3 rd 0b1110011#7
  | .csrrc rd rs1 csr => iType csr rs1 0b011#3 rd 0b1110011#7
  | .csrrwi rd uimm csr => iType csr uimm 0b101#3 rd 0b1110011#7
  | .csrrsi rd uimm csr => iType csr uimm 0b110#3 rd 0b1110011#7
  | .csrrci rd uimm csr => iType csr uimm 0b111#3 rd 0b1110011#7
  | .mul rd rs1 rs2 => rType 0b0000001#7 rs2 rs1 0b000#3 rd 0b0110011#7
  | .mulh rd rs1 rs2 => rType 0b0000001#7 rs2 rs1 0b001#3 rd 0b0110011#7
  | .mulhsu rd rs1 rs2 => rType 0b0000001#7 rs2 rs1 0b010#3 rd 0b0110011#7
  | .mulhu rd rs1 rs2 => rType 0b0000001#7 rs2 rs1 0b011#3 rd 0b0110011#7
  | .div rd rs1 rs2 => rType 0b0000001#7 rs2 rs1 0b100#3 rd 0b0110011#7
  | .divu rd rs1 rs2 => rType 0b0000001#7 rs2 rs1 0b101#3 rd 0b0110011#7
  | .rem rd rs1 rs2 => rType 0b0000001#7 rs2 rs1 0b110#3 rd 0b0110011#7
  | .remu rd rs1 rs2 => rType 0b0000001#7 rs2 rs1 0b111#3 rd 0b0110011#7
  | .lrW rd rs1 => amoType 0b00010#5 0#5 rs1 rd
  | .scW rd rs1 rs2 => amoType 0b00011#5 rs2 rs1 rd
  | .amoswapW rd rs1 rs2 => amoType 0b00001#5 rs2 rs1 rd
  | .amoaddW rd rs1 rs2 => amoType 0b00000#5 rs2 rs1 rd
  | .amoxorW rd rs1 rs2 => amoType 0b00100#5 rs2 rs1 rd
  | .amoandW rd rs1 rs2 => amoType 0b01100#5 rs2 rs1 rd
  | .amoorW rd rs1 rs2 => amoType 0b01000#5 rs2 rs1 rd
  | .amominW rd rs1 rs2 => amoType 0b10000#5 rs2 rs1 rd
  | .amomaxW rd rs1 rs2 => amoType 0b10100#5 rs2 rs1 rd
  | .amominuW rd rs1 rs2 => amoType 0b11000#5 rs2 rs1 rd
  | .amomaxuW rd rs1 rs2 => amoType 0b11100#5 rs2 rs1 rd

/-- The bytes of an instruction as memory holds them, the lowest address first. -/
def encodeBytes (i : Instr) : List Byte := leBytes 4 (encode i).toNat

/-- The bits of an instruction's word that have no effect (R332, D22): rd and rs1 of SCALL, SBREAK
and ERET; rs2 of LR.W; all but opcode and funct3 of the fences; aq and rl of every AMO. -/
def ignoredBits : Instr → Word
  | .fence | .fenceI => 0xFFFF8F80#32
  | .scall | .sbreak | .eret => 0x000F8F80#32
  | .lrW .. => 0x07F00000#32
  | .scW .. | .amoswapW .. | .amoaddW .. | .amoxorW .. | .amoandW .. | .amoorW ..
  | .amominW .. | .amomaxW .. | .amominuW .. | .amomaxuW .. => 0x06000000#32
  | .lui .. | .auipc .. | .jal .. | .jalr .. | .beq .. | .bne .. | .blt .. | .bge .. | .bltu ..
  | .bgeu .. | .lb .. | .lh .. | .lw .. | .lbu .. | .lhu .. | .sb .. | .sh .. | .sw ..
  | .addi .. | .slti .. | .sltiu .. | .xori .. | .ori .. | .andi .. | .slli .. | .srli .. | .srai ..
  | .add .. | .sub .. | .sll .. | .slt .. | .sltu .. | .xor .. | .srl .. | .sra .. | .or .. | .and ..
  | .csrrw .. | .csrrs .. | .csrrc .. | .csrrwi .. | .csrrsi .. | .csrrci ..
  | .mul .. | .mulh .. | .mulhsu .. | .mulhu .. | .div .. | .divu .. | .rem .. | .remu .. => 0#32

end Sys2Proof
end

