-- ==== Sys2Proof/Config.lean ====
section
/-! DEFINITION. What an implementation fixes and the spec leaves open: the parameters of 00_scope.md
R15. Those to which the spec gives a default are the record `Params`, which State holds, so that a
claim quantifies over every setting (log 32); those without a default are opaque constants, of which
nothing can be proved but what holds for every value. -/

namespace Sys2Proof

/-- What a misaligned access does: the two settings of MISALIGNED_DATA and MISALIGNED_FETCH (D2, D3). -/
inductive MisalignedPolicy where
  /-- The step has no architectural successor: a ModelFault (the spec's default). -/
  | fault
  /-- The access goes on with any value. -/
  | draw
deriving DecidableEq, Repr

/-- What a successful SC.W does to rd: the two settings of SC_SUCCESS_RD (D12). -/
inductive ScSuccessRd where
  /-- rd is not written (the spec's default, and the document's own statement). -/
  | unwritten
  /-- rd is set to 0. -/
  | zero
deriving DecidableEq, Repr

/-- The parameters of R15 that have a default. They are fixed for a machine: no step changes them. -/
structure Params where
  /-- MISALIGNED_DATA (D2). -/
  misalignedData : MisalignedPolicy
  /-- MISALIGNED_FETCH (D3). -/
  misalignedFetch : MisalignedPolicy
  /-- SC_SUCCESS_RD (D12). -/
  scSuccessRd : ScSuccessRd
  /-- EXT_INT_GATED (D10). -/
  extIntGated : Bool
  /-- DEVICE_MODEL (D36): whether peripherals other than RAM and ROM may be attached. -/
  devicesAdmitted : Bool
deriving DecidableEq, Repr

/-- MULHSU_FN (D13, R583): a total function of the two operand values, otherwise unconstrained. -/
opaque Config.mulhsuFn : Word → Word → Word

/-- MULHU_FN (D13, R584): a total function of the two operand values, otherwise unconstrained. -/
opaque Config.mulhuFn : Word → Word → Word

/-- The constant behind MSTATUS_FIXED (D7, R121) before its IE and IE1 bits are cleared. -/
opaque Config.mstatusReserved : Word

/-- The draws of R231, R646, D2, D3, D15 and D36: the value of the n-th draw is unconstrained. State
counts the draws used, so that each draw is a fresh value (log 33). -/
opaque Config.draw : Nat → Word

end Sys2Proof
end

