-- ==== Sys2Proof/Machine/ResetValues.lean ====
section
/-! DEFINITION. The values after core construction that are not plain zeros of a field's type, each
under a name of its own (70_reset_and_hazards.md R800, 00_scope.md R15). -/

namespace Sys2Proof.Machine

/-- R114, D4: the construction pc. -/
def resetPc : Word := 0x00000000#32

/-- R122, D5: ie after construction. -/
def resetIe : Bool := false

/-- R122, D5: ie1 after construction. -/
def resetIe1 : Bool := false

/-- R15: the defaults the spec chose for the parameters that have one (log 32). -/
def defaultParams : Params where
  misalignedData := .fault
  misalignedFetch := .fault
  scSuccessRd := .unwritten
  extIntGated := false
  devicesAdmitted := false

end Sys2Proof.Machine
end

