-- ==== Sys2Proof/Machine/State.lean ====
section
/-! DEFINITION. The state of the block (10_state.md), the names of its CSRs and traps, the reasons a
step or a host operation can stop, and the state after construction. -/

namespace Sys2Proof.Machine

/-- The fourteen supported CSRs (R135). -/
inductive Csr where
  | mstatus
  | mscratch
  | mepc
  | mcause
  | mbadaddr
  | cycle
  | time
  | instret
  | cycleh
  | timeh
  | instreth
  | mcpuid
  | mimpid
  | mhartid
deriving DecidableEq, Repr

/-- The trap causes (R700). -/
inductive TrapCause where
  | illegalInstruction
  | breakpoint
  | environmentCall
  | externalInterrupt
deriving DecidableEq, Repr

/-- What a peripheral is: RAM (R223), ROM (R224), or a device outside the block that DEVICE_MODEL
admits (R237, D36). -/
inductive PeripheralKind where
  | ram
  | rom
  | device
deriving DecidableEq, Repr

/-- One successful attachment (R220): `base(p)` is `1024 * firstPage`, so it is page-aligned by
construction; the peripheral claims the pages `firstPage .. firstPage + pages - 1`. -/
structure Peripheral where
  kind : PeripheralKind
  firstPage : Nat
  pages : Nat
deriving DecidableEq, Repr

/-- A write that reached a device, as D36 has it recorded: the address, the width in bytes and the
value's low `8 * size` bits. -/
structure DeviceWrite where
  address : Word
  size : Nat
  value : Word
deriving DecidableEq, Repr

/-- The bytes of all attached peripherals, by bus address, in canonical form: addresses strictly
rising, and no entry that holds what an unlisted address reads as (log 17). -/
abbrev Memory := List Host.Cell

/-- The state of the block. `next_pc` lives only inside a step (R111, log 31); `cfg`, `draws` and
`deviceWrites` are the model's own (log 32, 33, 29). -/
structure State where
  /-- x0..x31 (R100); slot 0 is read as 0 and never written (R101). -/
  regs : Vector Word 32
  /-- The address of the instruction being executed, or to be fetched next (R110). -/
  pc : Word
  /-- The address the step commits to pc (R111, R402). -/
  nextPc : Word
  /-- Current interrupt enable (R122). -/
  ie : Bool
  /-- Previous interrupt enable (R122). -/
  ie1 : Bool
  /-- R123. -/
  mscratch : Word
  /-- R124. -/
  mepc : Word
  /-- R125. -/
  mcause : Word
  /-- R126. -/
  mbadaddr : Word
  /-- R127. -/
  instret : BitVec 64
  /-- The bus's reservation set: keys addr >> 2, strictly rising (R140). -/
  reservations : List Nat
  /-- The page map, as the list of attachments (R141, R220). -/
  peripherals : List Peripheral
  /-- The peripherals' byte buffers (R142). -/
  mem : Memory
  /-- The writes that reached admitted devices, oldest first (D36). -/
  deviceWrites : List DeviceWrite
  /-- How many draws have been used (log 33). -/
  draws : Nat
  /-- The machine's parameters (R15); no step changes them. -/
  cfg : Params
deriving DecidableEq, Repr

/-- Where the machine stops with a ModelFault (R18): "a step the spec gives no meaning". -/
inductive Fault where
  /-- Raised by `State.memRead` and `State.memWrite` for LH, LHU, LW, SH, SW, LR.W, SC.W and the AMOs
  at a misaligned address when MISALIGNED_DATA is Fault (R230, R231, D2). Safe: the model stops where
  the hardware goes on with an unknown result. -/
  | misalignedData
  /-- Raised by `State.fetch` when pc[1:0] is not 00 and MISALIGNED_FETCH is Fault (R400, D3). Safe,
  as above. -/
  | misalignedFetch
  /-- Raised by `State.bufferRead` and `State.bufferWrite` (the host's direct access) when the masked
  local address is outside the buffer (R225, D34). Safe, as above. No step raises it. -/
  | outsideBuffer
deriving DecidableEq, Repr

/-- Why a request has no meaning. No instruction and no step is refused; the constructors after the
first are answers to host operations, where the spec has the model refuse them. -/
inductive Refusal where
  /-- The host's own name for an arm of `exec` without a meaning; no arm answers with it. Safe. -/
  | notModelled (mnemonic : String)
  /-- A host register access with an index outside 0..31 (R102, R820). Safe. -/
  | registerIndex
  /-- A host CSR read at an unsupported address (R820). Safe. -/
  | unsupportedCsr
  /-- A direct host write to a ROM buffer (R820). Safe. -/
  | romBufferWrite
  /-- A direct host access to a peripheral that is not attached or has no buffer. Safe. -/
  | noSuchBuffer
  /-- An attachment after the first step (R801, R820). Safe. -/
  | attachAfterFirstStep
  /-- An attachment that R220 would accept but whose base is no multiple of its P, which breaks the
  launch premise BASES_ALIGNED (R226, D18): raised by `State.attach`, and so by `launch`. Safe: no
  claim is made of such a machine. -/
  | basesNotAligned
deriving DecidableEq, Repr

/-- What executing an instruction, or a step, answers. -/
abbrev Result := Host.Outcome State Fault Refusal

/-- The state after core construction, before the host attaches anything (R800): "created once at
core construction with zeroed/default state". -/
def State.reset : State where
  regs := Vector.replicate 32 0#32
  pc := resetPc
  nextPc := resetPc
  ie := resetIe
  ie1 := resetIe1
  mscratch := 0#32
  mepc := 0#32
  mcause := 0#32
  mbadaddr := 0#32
  instret := 0#64
  reservations := []
  peripherals := []
  mem := []
  deviceWrites := []
  draws := 0
  cfg := defaultParams

end Sys2Proof.Machine
end

