-- ==== Sys2Proof/Machine/Ops.lean ====
section
/-! DEFINITION. The named operations on the machine: registers, CSRs, draws, the reservation set, the
byte memory, the bus, taking a trap and returning from one, fetching and committing. Every
instruction's meaning is written over these. -/

namespace Sys2Proof.Machine

/-! ## General registers (R100 to R103) -/

/-- `x[r]`: x0 "always reads as 0" (R101). -/
def State.reg (s : State) (r : Reg) : Word :=
  if r = 0#5 then 0#32 else s.regs[r.toNat]'r.isLt

/-- `x[r] <- v`: "writes to index 0 are discarded" (R101). -/
def State.setReg (s : State) (r : Reg) (v : Word) : State :=
  if r = 0#5 then s else { s with regs := s.regs.set r.toNat v r.isLt }

/-! ## The program counter (R110 to R113) -/

/-- `next_pc <- t` (R18, R401). -/
def State.setNextPc (s : State) (t : Word) : State := { s with nextPc := t }

/-! ## Draws (log 33) -/

/-- The next draw, cut to the low `n` bytes. -/
def State.drawn (s : State) (n : Nat) : Word :=
  BitVec.ofNat 32 ((Config.draw s.draws).toNat % 256 ^ n)

/-- The next draw, as a choice between two outcomes. -/
def State.drawnBit (s : State) : Bool := (Config.draw s.draws).getLsbD 0

/-- The state after a draw has been used. -/
def State.useDraw (s : State) : State := { s with draws := s.draws + 1 }

/-! ## Control and status registers (R120 to R135) -/

/-- The CSR at a 12-bit address, if it is supported (R135's table). -/
def csrOfAddr (a : CsrAddr) : Option Csr :=
  match a with
  | 0x300#12 => some .mstatus
  | 0x340#12 => some .mscratch
  | 0x341#12 => some .mepc
  | 0x342#12 => some .mcause
  | 0x343#12 => some .mbadaddr
  | 0xC00#12 => some .cycle
  | 0xC01#12 => some .time
  | 0xC02#12 => some .instret
  | 0xC80#12 => some .cycleh
  | 0xC81#12 => some .timeh
  | 0xC82#12 => some .instreth
  | 0xF00#12 => some .mcpuid
  | 0xF01#12 => some .mimpid
  | 0xF10#12 => some .mhartid
  | _ => none

/-- Whether R135 gives the CSR the access "R only" (90_conflicts.md C5: the counters too). -/
def csrReadOnly : Csr → Bool
  | .mstatus | .mscratch | .mepc | .mcause | .mbadaddr => false
  | .cycle | .time | .instret | .cycleh | .timeh | .instreth
  | .mcpuid | .mimpid | .mhartid => true

/-- IE_BIT (R14, D6, log 6). -/
def ieBit : Nat := 0

/-- IE1_BIT (R14, D6, log 6). -/
def ie1Bit : Nat := 3

/-- MSTATUS_FIXED: an open constant "with bits IE_BIT and IE1_BIT clear" (D7, log 7). -/
def mstatusFixed : Word :=
  Config.mstatusReserved &&& ~~~((1#32 <<< ieBit) ||| (1#32 <<< ie1Bit))

/-- mstatus as it is synthesised on a read (R121). -/
def State.mstatus (s : State) : Word :=
  mstatusFixed ||| ((BitVec.ofBool s.ie).setWidth 32 <<< ieBit)
    ||| ((BitVec.ofBool s.ie1).setWidth 32 <<< ie1Bit)

/-- `CSRRead` of a supported CSR (R121 to R131); it changes nothing (R132). -/
def State.csrRead (s : State) : Csr → Word
  | .mstatus => s.mstatus
  | .mscratch => s.mscratch
  | .mepc => s.mepc
  | .mcause => s.mcause
  | .mbadaddr => s.mbadaddr
  | .cycle | .time | .cycleh | .timeh => 0#32
  | .instret => s.instret.extractLsb' 0 32
  | .instreth => s.instret.extractLsb' 32 32
  | .mcpuid => 0x00001101#32
  | .mimpid => 0x00108000#32
  | .mhartid => 0x00000000#32

/-- `CSRWrite` of a writable CSR (R121 to R126). A read-only CSR holds nothing to write: the caller
traps before it gets here (R120), and the state is returned as it is. -/
def State.csrWrite (s : State) (c : Csr) (v : Word) : State :=
  match c with
  | .mstatus => { s with ie := v.getLsbD ieBit, ie1 := v.getLsbD ie1Bit }
  | .mscratch => { s with mscratch := v }
  | .mepc => { s with mepc := v }
  | .mcause => { s with mcause := v }
  | .mbadaddr => { s with mbadaddr := v }
  | .cycle | .time | .instret | .cycleh | .timeh | .instreth
  | .mcpuid | .mimpid | .mhartid => s

/-! ## Traps (R700, R710, R632) -/

/-- The number written to mcause (R700). -/
def causeNumber : TrapCause → Word
  | .illegalInstruction => 2#32
  | .breakpoint => 3#32
  | .environmentCall => 11#32
  | .externalInterrupt => 15#32

/-- R710: "a fixed trap-vector address". -/
def trapVector : Word := 0x000001C0#32

/-- `ClearAllReservations()` (R253). -/
def State.clearAllReservations (s : State) : State := { s with reservations := [] }

/-- What every trap saves and clears, in the order of R710 and R712: ie1, ie, mepc, mcause, the
reservations. -/
def State.saveTrap (s : State) (cause : TrapCause) : State :=
  State.clearAllReservations
    { s with ie1 := s.ie, ie := false, mepc := s.pc, mcause := causeNumber cause }

/-- TrapEntry during a step (R710): control goes to the vector when the step commits. -/
def State.raiseTrap (s : State) (cause : TrapCause) : State :=
  (s.saveTrap cause).setNextPc trapVector

/-- The return from a trap, ERET's effect (R632). -/
def State.returnFromTrap (s : State) : State :=
  State.clearAllReservations { s with ie := s.ie1, ie1 := true, nextPc := s.mepc }

/-! ## The reservation set (R140, R250 to R254) -/

/-- The key of an address: addr >> 2 (R140). -/
def wordKey (a : Word) : Nat := a.toNat / 4

/-- The set with a key added (R250): "Adding a key already present changes nothing". -/
def insertKey (k : Nat) : List Nat → List Nat
  | [] => [k]
  | x :: xs => if k < x then k :: x :: xs else if k = x then x :: xs else x :: insertKey k xs

/-- The set with a key removed (R252). -/
def removeKey (k : Nat) (ks : List Nat) : List Nat := ks.filter (fun x => x != k)

/-- `Reserve(a)` (R250). -/
def State.reserve (s : State) (a : Word) : State :=
  { s with reservations := insertKey (wordKey a) s.reservations }

/-- `IsReserved(a)` (R251). -/
def State.isReserved (s : State) (a : Word) : Bool := s.reservations.contains (wordKey a)

/-- The removal of one key that every bus write performs (R252). -/
def State.clearReservation (s : State) (k : Nat) : State :=
  { s with reservations := removeKey k s.reservations }

/-! ## The byte memory behind the peripherals (R142) -/

/-- What an address that `mem` does not list reads as: 0 (log 17). At reset nothing is attached, so
every address reads 0 by R222; a peripheral's image is listed when it is attached. -/
def unlistedByte : Byte := 0#8

/-- The byte that the memory holds at an address. -/
def Memory.read : Memory → Nat → Byte
  | [], _ => unlistedByte
  | (k, b) :: m, a => if k = a then b else Memory.read m a

/-- The memory with one byte set; the canonical form is kept. -/
def Memory.write : Memory → Nat → Byte → Memory
  | [], a, v => if v = unlistedByte then [] else [(a, v)]
  | (k, b) :: m, a, v =>
    if a < k then (if v = unlistedByte then (k, b) :: m else (a, v) :: (k, b) :: m)
    else if a = k then (if v = unlistedByte then m else (a, v) :: m)
    else (k, b) :: Memory.write m a v

/-- The canonical form: addresses strictly rising, no entry equal to the unlisted byte. -/
abbrev Memory.wf (m : Memory) : Prop :=
  m.Pairwise (fun x y => x.1 < y.1) ∧ ∀ c ∈ m, c.2 ≠ unlistedByte

/-- The `n` bytes from an address on, the lowest address first. -/
def Memory.readBytes (m : Memory) : Nat → Nat → List Byte
  | _, 0 => []
  | a, n + 1 => m.read a :: Memory.readBytes m (a + 1) n

/-- The memory with consecutive bytes set, the first one at the lowest address. -/
def Memory.writeBytes : Memory → Nat → List Byte → Memory
  | m, _, [] => m
  | m, a, b :: bs => Memory.writeBytes (m.write a b) (a + 1) bs

/-! ## The page map (R141, R201, R220, R221) -/

/-- R13: the page size. -/
def pageBytes : Nat := 1024

/-- The page of a byte address: addr >> 10 (R201). -/
def pageOf (a : Nat) : Nat := a / pageBytes

/-- Whether the peripheral claims the page (R220). -/
def Peripheral.claims (p : Peripheral) (page : Nat) : Bool :=
  decide (p.firstPage ≤ page) && decide (page < p.firstPage + p.pages)

/-- base(p) (R220). -/
def Peripheral.base (p : Peripheral) : Nat := pageBytes * p.firstPage

/-- The size of the peripheral's address space, pages × 1024 (R220). -/
def Peripheral.size (p : Peripheral) : Nat := pageBytes * p.pages

/-- The peripheral that owns the page of an address, `none` where the page is unmapped (R221). -/
def State.ownerAt (s : State) (a : Nat) : Option Peripheral :=
  s.peripherals.find? (fun p => p.claims (pageOf a))

/-- The byte the bus holds at an address: a RAM or ROM byte, and 0 where no such peripheral is
(R222, R223, R224). -/
def State.byteAt (s : State) (a : Nat) : Byte :=
  match s.ownerAt a with
  | none => 0#8
  | some p =>
    match p.kind with
    | .ram | .rom => s.mem.read a
    | .device => 0#8

/-! ## The access primitives (R230, R231) -/

/-- `BusRead(a, n)` of an aligned access: 0 where the page is unmapped (R222), the little-endian value
of the bytes of RAM or ROM (R223, R224), a draw from a device (D36). -/
def State.busRead (s : State) (a : Word) (n : Nat) : Word × State :=
  match s.ownerAt a.toNat with
  | none => (0#32, s)
  | some p =>
    match p.kind with
    | .ram | .rom => (BitVec.ofNat 32 (leValue (s.mem.readBytes a.toNat n)), s)
    | .device => (s.drawn n, s.useDraw)

/-- What an aligned bus write does at its peripheral: nothing where the page is unmapped or ROM, the
bytes in RAM, an event at a device (R222, R223, R224, D36). -/
def State.deliverWrite (s : State) (a : Word) (n : Nat) (v : Word) : State :=
  match s.ownerAt a.toNat with
  | none => s
  | some p =>
    match p.kind with
    | .ram => { s with mem := s.mem.writeBytes a.toNat (leBytes n v.toNat) }
    | .rom => s
    | .device =>
      { s with deviceWrites := s.deviceWrites ++ [⟨a, n, BitVec.ofNat 32 (v.toNat % 256 ^ n)⟩] }

/-- `BusWrite(a, n, v)` of an aligned access: the key is removed first, "whether a is in RAM, ROM or
unmapped" (R231, R252). -/
def State.busWrite (s : State) (a : Word) (n : Nat) (v : Word) : State :=
  (s.clearReservation (wordKey a)).deliverWrite a n v

/-- Whether an access of `n` bytes at an address is misaligned (R234). -/
def misaligned (a : Word) (n : Nat) : Bool := a.toNat % n != 0

/-- The keys of the aligned words that contain a .. a+n−1, addresses modulo 2^32 (R231, log 26). -/
def wordsTouched (a : Word) (n : Nat) : List Nat :=
  let first := wordKey a
  let last := wordKey (a + BitVec.ofNat 32 (n - 1))
  if first = last then [first] else [first, last]

/-- One byte of a misaligned store under Draw: in RAM it becomes a draw (R231). -/
def State.scrambleByte (s : State) (a : Nat) : State :=
  match s.ownerAt a with
  | none => s
  | some p =>
    match p.kind with
    | .ram => { s with mem := s.mem.write a (BitVec.ofNat 8 (s.drawn 1).toNat), draws := s.draws + 1 }
    | .rom | .device => s

/-- One aligned word of a misaligned store under Draw: its key removed, its RAM bytes drawn (R231). -/
def State.scrambleWord (s : State) (k : Nat) : State :=
  ((((s.clearReservation k).scrambleByte (4 * k)).scrambleByte (4 * k + 1)).scrambleByte
    (4 * k + 2)).scrambleByte (4 * k + 3)

/-- `MemRead(a, n)` (R230): the value's 8n bits, and the state with the draws it used. -/
def State.memRead (s : State) (a : Word) (n : Nat) : Except Fault (Word × State) :=
  if misaligned a n then
    match s.cfg.misalignedData with
    | .fault => .error .misalignedData
    | .draw => .ok (s.drawn n, s.useDraw)
  else .ok (s.busRead a n)

/-- `MemWrite(a, n, v)` (R231). -/
def State.memWrite (s : State) (a : Word) (n : Nat) (v : Word) : Except Fault State :=
  if misaligned a n then
    match s.cfg.misalignedData with
    | .fault => .error .misalignedData
    | .draw => .ok ((wordsTouched a n).foldl State.scrambleWord s)
  else .ok (s.busWrite a n v)

/-! ## The step's own parts (R400) -/

/-- The fetch (R232, R400): a 4-byte bus read at pc, with MISALIGNED_FETCH for the alignment check. -/
def State.fetch (s : State) : Except Fault (Word × State) :=
  if misaligned s.pc 4 then
    match s.cfg.misalignedFetch with
    | .fault => .error .misalignedFetch
    | .draw => .ok (s.drawn 4, s.useDraw)
  else .ok (s.busRead s.pc 4)

/-- R401: "default: pc+4". -/
def State.startStep (s : State) : State := s.setNextPc (s.pc + 4#32)

/-- The end of a step: instret + 1 (R404), then pc <- next_pc (R402). -/
def State.commit (s : State) : State := { s with instret := s.instret + 1#64, pc := s.nextPc }

/-! ## Results of an instruction -/

/-- A load's end (R501 to R505): the value read, widened, goes to rd. -/
def State.loadTo (s : State) (rd : Reg) (a : Word) (n : Nat) (widen : Word → Word) : Result :=
  match s.memRead a n with
  | .ok (v, t) => .next (t.setReg rd (widen v))
  | .error f => .fault f

/-- A store (R506 to R508). -/
def State.storeFrom (s : State) (a : Word) (n : Nat) (v : Word) : Result :=
  match s.memWrite a n v with
  | .ok t => .next t
  | .error f => .fault f

/-! ## Placing an instruction where the next step fetches it (log 35) -/

/-- The state in which the page of pc is plain memory: as it is where RAM or ROM owns it, else with one
page of RAM in front of the page map. -/
def State.withCodePage (s : State) : State :=
  let fresh : Peripheral := ⟨.ram, pageOf s.pc.toNat, 1⟩
  match s.ownerAt s.pc.toNat with
  | none => { s with peripherals := fresh :: s.peripherals }
  | some p =>
    match p.kind with
    | .ram | .rom => s
    | .device => { s with peripherals := fresh :: s.peripherals }

/-- The state with an opcode-table row's bits stored as an instruction at pc. -/
def State.placeInstruction (s : State) (nbits w : Nat) : State :=
  let t := s.withCodePage
  { t with mem := t.mem.writeBytes t.pc.toNat (leBytes 4 (w % 2 ^ nbits)) }

end Sys2Proof.Machine
end

