-- ==== Sys2Proof/Machine/Flags.lean ====
section
/-! DEFINITION. The core has no flags, condition codes or predicate registers (10_state.md R150): a
comparison "writes a general register or decides a branch directly". This file holds those
comparisons and the results computed from them. -/

namespace Sys2Proof.Machine

/-- signed(a) < signed(b) (R17). -/
def signedLess (a b : Word) : Bool := decide (a.toInt < b.toInt)

/-- unsigned(a) < unsigned(b) (R17). -/
def unsignedLess (a b : Word) : Bool := decide (a.toNat < b.toNat)

/-- "? 1 : 0": the word a comparison writes (R422, R423, R433, R434). -/
def conditionWord (c : Bool) : Word := if c then 1#32 else 0#32

/-- The smaller of two words as signed numbers (R551). -/
def signedMin (old src : Word) : Word := if signedLess old src then old else src

/-- The greater of two words as signed numbers (R552). -/
def signedMax (old src : Word) : Word := if signedLess src old then old else src

/-- The smaller of two words as unsigned numbers (R553). -/
def unsignedMin (old src : Word) : Word := if unsignedLess old src then old else src

/-- The greater of two words as unsigned numbers (R554). -/
def unsignedMax (old src : Word) : Word := if unsignedLess src old then old else src

end Sys2Proof.Machine
end

