-- ==== Sys2Proof/Machine/Operands.lean ====
section
/-! DEFINITION. The operand forms: how an instruction's fields become values (30_encoding.md R310 to
R315), addresses (43_memory_access.md R500) and targets (42_control_transfer.md). Registers are read
through `State.reg` before any write of the same instruction (40_cycle.md R407, log 12). -/

namespace Sys2Proof.Machine

/-- immI and immS: `sext_12` of the field (R310, R311). -/
def immediate (imm : BitVec 12) : Word := imm.signExtend 32

/-- immB: `sext_13` (R312). -/
def branchOffset (imm : BitVec 13) : Word := imm.signExtend 32

/-- immJ: `sext_21` (R314). -/
def jumpOffset (imm : BitVec 21) : Word := imm.signExtend 32

/-- zext_5 of uimm (R315). -/
def zeroExtended (uimm : BitVec 5) : Word := uimm.setWidth 32

/-- The effective address of a load or store: base plus displacement, modulo 2^32 (R500). -/
def State.effectiveAddress (s : State) (rs1 : Reg) (imm : BitVec 12) : Word :=
  s.reg rs1 + immediate imm

/-- The target of JALR: bit 0 of the sum cleared (R463). -/
def State.jalrTarget (s : State) (rs1 : Reg) (imm : BitVec 12) : Word :=
  (s.reg rs1 + immediate imm) &&& 0xFFFFFFFE#32

/-- The link JAL and JALR write: pc + 4 (R462, R463). -/
def State.link (s : State) : Word := s.pc + 4#32

/-- The shift amount of SLL, SRL and SRA: x[rs2][4:0] (R432, D26). -/
def State.shiftAmount (s : State) (rs2 : Reg) : Nat := ((s.reg rs2).extractLsb' 0 5).toNat

/-- sext_8 (R501). -/
def signedByte (v : Word) : Word := (v.extractLsb' 0 8).signExtend 32

/-- sext_16 (R502). -/
def signedHalf (v : Word) : Word := (v.extractLsb' 0 16).signExtend 32

/-- zext_8 (R504). -/
def unsignedByte (v : Word) : Word := (v.extractLsb' 0 8).setWidth 32

/-- zext_16 (R505). -/
def unsignedHalf (v : Word) : Word := (v.extractLsb' 0 16).setWidth 32

/-- The whole word, for LW (R503). -/
def wholeWord (v : Word) : Word := v

/-- A conditional branch: next_pc <- pc + immB if the condition holds, else as it is (R464 to R469). -/
def State.branchIf (s : State) (taken : Bool) (imm : BitVec 13) : State :=
  if taken then s.setNextPc (s.pc + branchOffset imm) else s

end Sys2Proof.Machine
end

