-- ==== Sys2Proof/Machine/Atomic.lean ====
section
/-! DEFINITION. Load-reserved, store-conditional and the read-modify-write operations (44_atomic.md).
The address is x[rs1] with no offset; x[rs1] and x[rs2] are read before rd is written. -/

namespace Sys2Proof.Machine

/-- The common pattern of the nine AMOs (R542): rd <- old, then the store of f(old, src). -/
def State.readModifyWrite (s : State) (rd rs1 rs2 : Reg) (f : Word → Word → Word) : Result :=
  match s.memRead (s.reg rs1) 4 with
  | .error e => .fault e
  | .ok (old, t) => (t.setReg rd old).storeFrom (s.reg rs1) 4 (f old (s.reg rs2))

/-- What a successful SC.W leaves in rd (SC_SUCCESS_RD, D12). -/
def State.scSucceeded (s : State) (rd : Reg) : State :=
  match s.cfg.scSuccessRd with
  | .unwritten => s
  | .zero => s.setReg rd 0#32

/-- R540. -/
def execLrW (rd rs1 : Reg) (s : State) : Result :=
  match s.memRead (s.reg rs1) 4 with
  | .error e => .fault e
  | .ok (v, t) => .next ((t.reserve (s.reg rs1)).setReg rd v)

/-- R541: on failure no bus write, and rd <- 1 (for a misaligned address DEDUCED, log 34). -/
def execScW (rd rs1 rs2 : Reg) (s : State) : Result :=
  if s.isReserved (s.reg rs1) then
    match s.memWrite (s.reg rs1) 4 (s.reg rs2) with
    | .error e => .fault e
    | .ok t => .next (t.scSucceeded rd)
  else .next (s.setReg rd 1#32)

/-- R546. -/
def execAmoswapW (rd rs1 rs2 : Reg) (s : State) : Result :=
  s.readModifyWrite rd rs1 rs2 (fun _ src => src)

/-- R547. -/
def execAmoaddW (rd rs1 rs2 : Reg) (s : State) : Result :=
  s.readModifyWrite rd rs1 rs2 (fun old src => old + src)

/-- R548. -/
def execAmoxorW (rd rs1 rs2 : Reg) (s : State) : Result :=
  s.readModifyWrite rd rs1 rs2 (fun old src => old ^^^ src)

/-- R549. -/
def execAmoandW (rd rs1 rs2 : Reg) (s : State) : Result :=
  s.readModifyWrite rd rs1 rs2 (fun old src => old &&& src)

/-- R550. -/
def execAmoorW (rd rs1 rs2 : Reg) (s : State) : Result :=
  s.readModifyWrite rd rs1 rs2 (fun old src => old ||| src)

/-- R551. -/
def execAmominW (rd rs1 rs2 : Reg) (s : State) : Result :=
  s.readModifyWrite rd rs1 rs2 signedMin

/-- R552. -/
def execAmomaxW (rd rs1 rs2 : Reg) (s : State) : Result :=
  s.readModifyWrite rd rs1 rs2 signedMax

/-- R553. -/
def execAmominuW (rd rs1 rs2 : Reg) (s : State) : Result :=
  s.readModifyWrite rd rs1 rs2 unsignedMin

/-- R554. -/
def execAmomaxuW (rd rs1 rs2 : Reg) (s : State) : Result :=
  s.readModifyWrite rd rs1 rs2 unsignedMax

end Sys2Proof.Machine
end

