-- ==== Sys2Proof/Machine/Control.lean ====
section
/-! DEFINITION. Upper immediates, jumps and conditional branches (42_control_transfer.md). Targets are
committed unchecked: an unaligned one is the next fetch's matter (R470). -/

namespace Sys2Proof.Machine

/-- R460. -/
def execLui (rd : Reg) (imm : Word) (s : State) : Result := .next (s.setReg rd imm)

/-- R461. -/
def execAuipc (rd : Reg) (imm : Word) (s : State) : Result := .next (s.setReg rd (s.pc + imm))

/-- R462. -/
def execJal (rd : Reg) (imm : BitVec 21) (s : State) : Result :=
  .next ((s.setNextPc (s.pc + jumpOffset imm)).setReg rd s.link)

/-- R463: x[rs1] is read before rd is written. -/
def execJalr (rd rs1 : Reg) (imm : BitVec 12) (s : State) : Result :=
  .next ((s.setNextPc (s.jalrTarget rs1 imm)).setReg rd s.link)

/-- R464. -/
def execBeq (rs1 rs2 : Reg) (imm : BitVec 13) (s : State) : Result :=
  .next (s.branchIf (s.reg rs1 == s.reg rs2) imm)

/-- R465. -/
def execBne (rs1 rs2 : Reg) (imm : BitVec 13) (s : State) : Result :=
  .next (s.branchIf (s.reg rs1 != s.reg rs2) imm)

/-- R466. -/
def execBlt (rs1 rs2 : Reg) (imm : BitVec 13) (s : State) : Result :=
  .next (s.branchIf (signedLess (s.reg rs1) (s.reg rs2)) imm)

/-- R467. -/
def execBge (rs1 rs2 : Reg) (imm : BitVec 13) (s : State) : Result :=
  .next (s.branchIf (!signedLess (s.reg rs1) (s.reg rs2)) imm)

/-- R468. -/
def execBltu (rs1 rs2 : Reg) (imm : BitVec 13) (s : State) : Result :=
  .next (s.branchIf (unsignedLess (s.reg rs1) (s.reg rs2)) imm)

/-- R469. -/
def execBgeu (rs1 rs2 : Reg) (imm : BitVec 13) (s : State) : Result :=
  .next (s.branchIf (!unsignedLess (s.reg rs1) (s.reg rs2)) imm)

end Sys2Proof.Machine
end

