-- ==== Sys2Proof/Machine/IntegerAlu.lean ====
section
/-! DEFINITION. The integer ALU: OP-IMM and the base half of OP (41_integer_alu.md). Every result is a
32-bit word written to rd; next_pc, memory and CSRs are untouched; there is no exception (R450). -/

namespace Sys2Proof.Machine

/-- R421. -/
def execAddi (rd rs1 : Reg) (imm : BitVec 12) (s : State) : Result :=
  .next (s.setReg rd (s.reg rs1 + immediate imm))

/-- R422. -/
def execSlti (rd rs1 : Reg) (imm : BitVec 12) (s : State) : Result :=
  .next (s.setReg rd (conditionWord (signedLess (s.reg rs1) (immediate imm))))

/-- R423. -/
def execSltiu (rd rs1 : Reg) (imm : BitVec 12) (s : State) : Result :=
  .next (s.setReg rd (conditionWord (unsignedLess (s.reg rs1) (immediate imm))))

/-- R424. -/
def execXori (rd rs1 : Reg) (imm : BitVec 12) (s : State) : Result :=
  .next (s.setReg rd (s.reg rs1 ^^^ immediate imm))

/-- R425. -/
def execOri (rd rs1 : Reg) (imm : BitVec 12) (s : State) : Result :=
  .next (s.setReg rd (s.reg rs1 ||| immediate imm))

/-- R426. -/
def execAndi (rd rs1 : Reg) (imm : BitVec 12) (s : State) : Result :=
  .next (s.setReg rd (s.reg rs1 &&& immediate imm))

/-- R427. -/
def execSlli (rd rs1 : Reg) (shamt : BitVec 5) (s : State) : Result :=
  .next (s.setReg rd (s.reg rs1 <<< shamt.toNat))

/-- R428. -/
def execSrli (rd rs1 : Reg) (shamt : BitVec 5) (s : State) : Result :=
  .next (s.setReg rd (s.reg rs1 >>> shamt.toNat))

/-- R429. -/
def execSrai (rd rs1 : Reg) (shamt : BitVec 5) (s : State) : Result :=
  .next (s.setReg rd ((s.reg rs1).sshiftRight shamt.toNat))

/-- R430. -/
def execAdd (rd rs1 rs2 : Reg) (s : State) : Result :=
  .next (s.setReg rd (s.reg rs1 + s.reg rs2))

/-- R431. -/
def execSub (rd rs1 rs2 : Reg) (s : State) : Result :=
  .next (s.setReg rd (s.reg rs1 - s.reg rs2))

/-- R432. -/
def execSll (rd rs1 rs2 : Reg) (s : State) : Result :=
  .next (s.setReg rd (s.reg rs1 <<< s.shiftAmount rs2))

/-- R433. -/
def execSlt (rd rs1 rs2 : Reg) (s : State) : Result :=
  .next (s.setReg rd (conditionWord (signedLess (s.reg rs1) (s.reg rs2))))

/-- R434. -/
def execSltu (rd rs1 rs2 : Reg) (s : State) : Result :=
  .next (s.setReg rd (conditionWord (unsignedLess (s.reg rs1) (s.reg rs2))))

/-- R435. -/
def execXor (rd rs1 rs2 : Reg) (s : State) : Result :=
  .next (s.setReg rd (s.reg rs1 ^^^ s.reg rs2))

/-- R436. -/
def execSrl (rd rs1 rs2 : Reg) (s : State) : Result :=
  .next (s.setReg rd (s.reg rs1 >>> s.shiftAmount rs2))

/-- R437. -/
def execSra (rd rs1 rs2 : Reg) (s : State) : Result :=
  .next (s.setReg rd ((s.reg rs1).sshiftRight (s.shiftAmount rs2)))

/-- R438. -/
def execOr (rd rs1 rs2 : Reg) (s : State) : Result :=
  .next (s.setReg rd (s.reg rs1 ||| s.reg rs2))

/-- R439. -/
def execAnd (rd rs1 rs2 : Reg) (s : State) : Result :=
  .next (s.setReg rd (s.reg rs1 &&& s.reg rs2))

end Sys2Proof.Machine
end

