-- ==== Sys2Proof/Machine/LoadStore.lean ====
section
/-! DEFINITION. Loads, stores and fences (43_memory_access.md). No load or store raises a trap once
decoded; a misaligned one follows MISALIGNED_DATA inside `State.memRead` and `State.memWrite`. A load
to x0 is still performed. -/

namespace Sys2Proof.Machine

/-- R501. -/
def execLb (rd rs1 : Reg) (imm : BitVec 12) (s : State) : Result :=
  s.loadTo rd (s.effectiveAddress rs1 imm) 1 signedByte

/-- R502. -/
def execLh (rd rs1 : Reg) (imm : BitVec 12) (s : State) : Result :=
  s.loadTo rd (s.effectiveAddress rs1 imm) 2 signedHalf

/-- R503. -/
def execLw (rd rs1 : Reg) (imm : BitVec 12) (s : State) : Result :=
  s.loadTo rd (s.effectiveAddress rs1 imm) 4 wholeWord

/-- R504. -/
def execLbu (rd rs1 : Reg) (imm : BitVec 12) (s : State) : Result :=
  s.loadTo rd (s.effectiveAddress rs1 imm) 1 unsignedByte

/-- R505. -/
def execLhu (rd rs1 : Reg) (imm : BitVec 12) (s : State) : Result :=
  s.loadTo rd (s.effectiveAddress rs1 imm) 2 unsignedHalf

/-- R506. -/
def execSb (rs1 rs2 : Reg) (imm : BitVec 12) (s : State) : Result :=
  s.storeFrom (s.effectiveAddress rs1 imm) 1 (unsignedByte (s.reg rs2))

/-- R507. -/
def execSh (rs1 rs2 : Reg) (imm : BitVec 12) (s : State) : Result :=
  s.storeFrom (s.effectiveAddress rs1 imm) 2 (unsignedHalf (s.reg rs2))

/-- R508. -/
def execSw (rs1 rs2 : Reg) (imm : BitVec 12) (s : State) : Result :=
  s.storeFrom (s.effectiveAddress rs1 imm) 4 (s.reg rs2)

/-- R520: "treated as no-ops since there is no cache or pipeline to flush". -/
def execFence (s : State) : Result := .next s

/-- R521. -/
def execFenceI (s : State) : Result := .next s

end Sys2Proof.Machine
end

