-- ==== Sys2Proof/Machine/MulDiv.lean ====
section
/-! DEFINITION. Multiply and divide (45_muldiv.md). Products and quotients are exact integers, cut to
the word explicitly; there is no exception of any kind (R589's table gives results, not traps). -/

namespace Sys2Proof.Machine

/-- INT_MIN (R17). -/
def intMin : Word := 0x80000000#32

/-- (a × b) mod 2^32 (R581). -/
def lowProduct (a b : Word) : Word := BitVec.ofNat 32 (a.toNat * b.toNat)

/-- (signed(a) × signed(b))[63:32] (R582). -/
def highSignedProduct (a b : Word) : Word := (BitVec.ofInt 64 (a.toInt * b.toInt)).extractLsb' 32 32

/-- The quotient of DIV (R585), rounded toward zero (D25). -/
def signedQuotient (a b : Word) : Word :=
  if b = 0#32 then 0xFFFFFFFF#32
  else if a = intMin ∧ b = 0xFFFFFFFF#32 then intMin
  else BitVec.ofInt 32 (Int.tdiv a.toInt b.toInt)

/-- The quotient of DIVU (R586). -/
def unsignedQuotient (a b : Word) : Word :=
  if b = 0#32 then 0xFFFFFFFF#32 else BitVec.ofNat 32 (a.toNat / b.toNat)

/-- The remainder of REM (R587), with the sign of the dividend (D25). -/
def signedRemainder (a b : Word) : Word :=
  if b = 0#32 then a
  else if a = intMin ∧ b = 0xFFFFFFFF#32 then 0#32
  else BitVec.ofInt 32 (a.toInt - b.toInt * Int.tdiv a.toInt b.toInt)

/-- The remainder of REMU (R588). -/
def unsignedRemainder (a b : Word) : Word :=
  if b = 0#32 then a else BitVec.ofNat 32 (a.toNat % b.toNat)

/-- R581. -/
def execMul (rd rs1 rs2 : Reg) (s : State) : Result :=
  .next (s.setReg rd (lowProduct (s.reg rs1) (s.reg rs2)))

/-- R582. -/
def execMulh (rd rs1 rs2 : Reg) (s : State) : Result :=
  .next (s.setReg rd (highSignedProduct (s.reg rs1) (s.reg rs2)))

/-- R583: the open function MULHSU_FN of the operands (D13, log 11). -/
def execMulhsu (rd rs1 rs2 : Reg) (s : State) : Result :=
  .next (s.setReg rd (Config.mulhsuFn (s.reg rs1) (s.reg rs2)))

/-- R584: the open function MULHU_FN of the operands (D13, log 11). -/
def execMulhu (rd rs1 rs2 : Reg) (s : State) : Result :=
  .next (s.setReg rd (Config.mulhuFn (s.reg rs1) (s.reg rs2)))

/-- R585. -/
def execDiv (rd rs1 rs2 : Reg) (s : State) : Result :=
  .next (s.setReg rd (signedQuotient (s.reg rs1) (s.reg rs2)))

/-- R586. -/
def execDivu (rd rs1 rs2 : Reg) (s : State) : Result :=
  .next (s.setReg rd (unsignedQuotient (s.reg rs1) (s.reg rs2)))

/-- R587. -/
def execRem (rd rs1 rs2 : Reg) (s : State) : Result :=
  .next (s.setReg rd (signedRemainder (s.reg rs1) (s.reg rs2)))

/-- R588. -/
def execRemu (rd rs1 rs2 : Reg) (s : State) : Result :=
  .next (s.setReg rd (unsignedRemainder (s.reg rs1) (s.reg rs2)))

end Sys2Proof.Machine
end

