-- ==== Sys2Proof/Machine/System.lean ====
section
/-! DEFINITION. The SYSTEM group: SCALL, SBREAK, ERET and the six CSR instructions (46_system.md).
There is one privilege mode, so none of them checks a mode (60_exceptions.md R740). -/

namespace Sys2Proof.Machine

/-- R621: cause 11, mepc at the SCALL itself. -/
def execScall (s : State) : Result := .next (s.raiseTrap .environmentCall)

/-- R622: cause 3. -/
def execSbreak (s : State) : Result := .next (s.raiseTrap .breakpoint)

/-- R632: legal whether or not a trap is being handled (D29). -/
def execEret (s : State) : Result := .next s.returnFromTrap

/-- rd of a CSR instruction whose read succeeds and whose write traps: a draw between its old value
and the CSR value read (R646, D15). -/
def State.csrWriteTrap (s : State) (rd : Reg) (old : Word) : State :=
  ((s.setReg rd (if s.drawnBit then old else s.reg rd)).useDraw).raiseTrap .illegalInstruction

/-- The common CSR procedure (R646): `w` says whether a write is required, `new` computes the value
written from the value read. -/
def State.csrAccess (s : State) (rd : Reg) (a : CsrAddr) (w : Bool) (new : Word → Word) : State :=
  match csrOfAddr a with
  | none => s.raiseTrap .illegalInstruction
  | some c =>
    if w then
      if csrReadOnly c then s.csrWriteTrap rd (s.csrRead c)
      else (s.setReg rd (s.csrRead c)).csrWrite c (new (s.csrRead c))
    else s.setReg rd (s.csrRead c)

/-- R640: always a write. -/
def execCsrrw (rd rs1 : Reg) (csr : CsrAddr) (s : State) : Result :=
  .next (s.csrAccess rd csr true (fun _ => s.reg rs1))

/-- R641: a write if the rs1 FIELD is not 0. -/
def execCsrrs (rd rs1 : Reg) (csr : CsrAddr) (s : State) : Result :=
  .next (s.csrAccess rd csr (rs1 != 0#5) (fun old => old ||| s.reg rs1))

/-- R642. -/
def execCsrrc (rd rs1 : Reg) (csr : CsrAddr) (s : State) : Result :=
  .next (s.csrAccess rd csr (rs1 != 0#5) (fun old => old &&& ~~~(s.reg rs1)))

/-- R643: always a write. -/
def execCsrrwi (rd : Reg) (uimm : BitVec 5) (csr : CsrAddr) (s : State) : Result :=
  .next (s.csrAccess rd csr true (fun _ => zeroExtended uimm))

/-- R644: a write if uimm is not 0. -/
def execCsrrsi (rd : Reg) (uimm : BitVec 5) (csr : CsrAddr) (s : State) : Result :=
  .next (s.csrAccess rd csr (uimm != 0#5) (fun old => old ||| zeroExtended uimm))

/-- R645. -/
def execCsrrci (rd : Reg) (uimm : BitVec 5) (csr : CsrAddr) (s : State) : Result :=
  .next (s.csrAccess rd csr (uimm != 0#5) (fun old => old &&& ~~~(zeroExtended uimm)))

end Sys2Proof.Machine
end

