-- ==== Sys2Proof/Machine/Step.lean ====
section
/-! DEFINITION. One step: fetch, decode, execute, count, commit (40_cycle.md R400). -/

namespace Sys2Proof.Machine

/-- `execute(insn)` (R400): the word's instruction, or the illegal-instruction trap (R330, R403). -/
def executeWord (w : Word) (s : State) : Host.Outcome State Fault Refusal :=
  match decodeWord w with
  | .ok i => exec i s
  | .error _ => .next (s.raiseTrap .illegalInstruction)

/-- The end of a step (R403, R404): after a next state, a trap's among them, the counter advances and
next_pc is committed. -/
def commitOutcome : Host.Outcome State Fault Refusal → Host.Outcome State Fault Refusal
  | .next s => .next s.commit
  | .fault f => .fault f
  | .refused r => .refused r

/-- `step()` (R400). -/
def step (s : State) : Host.Outcome State Fault Refusal :=
  match s.fetch with
  | .error f => .fault f
  | .ok (w, t) => commitOutcome (executeWord w t.startStep)

/-- The state with an instruction stored where the next step fetches (log 35). -/
def State.withFetchWord (s : State) (nbits w : Nat) : State := s.placeInstruction nbits w

end Sys2Proof.Machine
end

