-- ==== Sys2Proof/Machine/Asm.lean ====
section
/-! DEFINITION. Assembler syntax and pseudo-instructions (30_encoding.md R340, R341, 10_state.md R100):
syntax only, "no machine rule depends on it" (D35, log 38). -/

namespace Sys2Proof.Machine

/-- The ABI name of a register (R100). -/
def abiName (r : Reg) : String :=
  (["zero", "ra", "sp", "gp", "tp", "t0", "t1", "t2", "s0", "s1", "a0", "a1", "a2", "a3", "a4", "a5",
    "a6", "a7", "s2", "s3", "s4", "s5", "s6", "s7", "s8", "s9", "s10", "s11", "t3", "t4", "t5",
    "t6"] : List String).getD r.toNat ""

/-! ## Printing an instruction (R340) -/

/-- xN. -/
def asmReg (r : Reg) : String := "x" ++ toString r.toNat

/-- `op a, b, c`. -/
def asmLine (op : String) (operands : List String) : String :=
  op ++ (if operands.isEmpty then "" else " ") ++ String.intercalate ", " operands

/-- `imm(rs1)`. -/
def asmMem (imm : BitVec 12) (rs1 : Reg) : String :=
  toString imm.toInt ++ "(" ++ asmReg rs1 ++ ")"

/-- `op rd, rs1, rs2`. -/
def asmRrr (op : String) (rd rs1 rs2 : Reg) : String :=
  asmLine op [asmReg rd, asmReg rs1, asmReg rs2]

/-- `op rd, rs1, imm`. -/
def asmRri (op : String) (rd rs1 : Reg) (imm : BitVec 12) : String :=
  asmLine op [asmReg rd, asmReg rs1, toString imm.toInt]

/-- `bXX rs1, rs2, offset`. -/
def asmBranch (op : String) (rs1 rs2 : Reg) (imm : BitVec 13) : String :=
  asmLine op [asmReg rs1, asmReg rs2, toString imm.toInt]

/-- `amoOP.w rd, rs2, (rs1)`. -/
def asmAmo (op : String) (rd rs1 rs2 : Reg) : String :=
  asmLine op [asmReg rd, asmReg rs2, "(" ++ asmReg rs1 ++ ")"]

/-- `csrXX rd, csr, operand`. -/
def asmCsr (op : String) (rd : Reg) (csr : CsrAddr) (operand : String) : String :=
  asmLine op [asmReg rd, toString csr.toNat, operand]

/-- The assembler line of an instruction, with branch and jump targets as offsets from pc. -/
def asmOf : Instr → String
  | .lui rd imm => asmLine "lui" [asmReg rd, toString (imm.toNat / 4096)]
  | .auipc rd imm => asmLine "auipc" [asmReg rd, toString (imm.toNat / 4096)]
  | .jal rd imm => asmLine "jal" [asmReg rd, toString imm.toInt]
  | .jalr rd rs1 imm => asmLine "jalr" [asmReg rd, asmMem imm rs1]
  | .beq rs1 rs2 imm => asmBranch "beq" rs1 rs2 imm
  | .bne rs1 rs2 imm => asmBranch "bne" rs1 rs2 imm
  | .blt rs1 rs2 imm => asmBranch "blt" rs1 rs2 imm
  | .bge rs1 rs2 imm => asmBranch "bge" rs1 rs2 imm
  | .bltu rs1 rs2 imm => asmBranch "bltu" rs1 rs2 imm
  | .bgeu rs1 rs2 imm => asmBranch "bgeu" rs1 rs2 imm
  | .lb rd rs1 imm => asmLine "lb" [asmReg rd, asmMem imm rs1]
  | .lh rd rs1 imm => asmLine "lh" [asmReg rd, asmMem imm rs1]
  | .lw rd rs1 imm => asmLine "lw" [asmReg rd, asmMem imm rs1]
  | .lbu rd rs1 imm => asmLine "lbu" [asmReg rd, asmMem imm rs1]
  | .lhu rd rs1 imm => asmLine "lhu" [asmReg rd, asmMem imm rs1]
  | .sb rs1 rs2 imm => asmLine "sb" [asmReg rs2, asmMem imm rs1]
  | .sh rs1 rs2 imm => asmLine "sh" [asmReg rs2, asmMem imm rs1]
  | .sw rs1 rs2 imm => asmLine "sw" [asmReg rs2, asmMem imm rs1]
  | .addi rd rs1 imm => asmRri "addi" rd rs1 imm
  | .slti rd rs1 imm => asmRri "slti" rd rs1 imm
  | .sltiu rd rs1 imm => asmRri "sltiu" rd rs1 imm
  | .xori rd rs1 imm => asmRri "xori" rd rs1 imm
  | .ori rd rs1 imm => asmRri "ori" rd rs1 imm
  | .andi rd rs1 imm => asmRri "andi" rd rs1 imm
  | .slli rd rs1 shamt => asmLine "slli" [asmReg rd, asmReg rs1, toString shamt.toNat]
  | .srli rd rs1 shamt => asmLine "srli" [asmReg rd, asmReg rs1, toString shamt.toNat]
  | .srai rd rs1 shamt => asmLine "srai" [asmReg rd, asmReg rs1, toString shamt.toNat]
  | .add rd rs1 rs2 => asmRrr "add" rd rs1 rs2
  | .sub rd rs1 rs2 => asmRrr "sub" rd rs1 rs2
  | .sll rd rs1 rs2 => asmRrr "sll" rd rs1 rs2
  | .slt rd rs1 rs2 => asmRrr "slt" rd rs1 rs2
  | .sltu rd rs1 rs2 => asmRrr "sltu" rd rs1 rs2
  | .xor rd rs1 rs2 => asmRrr "xor" rd rs1 rs2
  | .srl rd rs1 rs2 => asmRrr "srl" rd rs1 rs2
  | .sra rd rs1 rs2 => asmRrr "sra" rd rs1 rs2
  | .or rd rs1 rs2 => asmRrr "or" rd rs1 rs2
  | .and rd rs1 rs2 => asmRrr "and" rd rs1 rs2
  | .fence => "fence"
  | .fenceI => "fence.i"
  | .scall => "scall"
  | .sbreak => "sbreak"
  | .eret => "eret"
  | .csrrw rd rs1 csr => asmCsr "csrrw" rd csr (asmReg rs1)
  | .csrrs rd rs1 csr => asmCsr "csrrs" rd csr (asmReg rs1)
  | .csrrc rd rs1 csr => asmCsr "csrrc" rd csr (asmReg rs1)
  | .csrrwi rd uimm csr => asmCsr "csrrwi" rd csr (toString uimm.toNat)
  | .csrrsi rd uimm csr => asmCsr "csrrsi" rd csr (toString uimm.toNat)
  | .csrrci rd uimm csr => asmCsr "csrrci" rd csr (toString uimm.toNat)
  | .mul rd rs1 rs2 => asmRrr "mul" rd rs1 rs2
  | .mulh rd rs1 rs2 => asmRrr "mulh" rd rs1 rs2
  | .mulhsu rd rs1 rs2 => asmRrr "mulhsu" rd rs1 rs2
  | .mulhu rd rs1 rs2 => asmRrr "mulhu" rd rs1 rs2
  | .div rd rs1 rs2 => asmRrr "div" rd rs1 rs2
  | .divu rd rs1 rs2 => asmRrr "divu" rd rs1 rs2
  | .rem rd rs1 rs2 => asmRrr "rem" rd rs1 rs2
  | .remu rd rs1 rs2 => asmRrr "remu" rd rs1 rs2
  | .lrW rd rs1 => asmLine "lr.w" [asmReg rd, "(" ++ asmReg rs1 ++ ")"]
  | .scW rd rs1 rs2 => asmAmo "sc.w" rd rs1 rs2
  | .amoswapW rd rs1 rs2 => asmAmo "amoswap.w" rd rs1 rs2
  | .amoaddW rd rs1 rs2 => asmAmo "amoadd.w" rd rs1 rs2
  | .amoxorW rd rs1 rs2 => asmAmo "amoxor.w" rd rs1 rs2
  | .amoandW rd rs1 rs2 => asmAmo "amoand.w" rd rs1 rs2
  | .amoorW rd rs1 rs2 => asmAmo "amoor.w" rd rs1 rs2
  | .amominW rd rs1 rs2 => asmAmo "amomin.w" rd rs1 rs2
  | .amomaxW rd rs1 rs2 => asmAmo "amomax.w" rd rs1 rs2
  | .amominuW rd rs1 rs2 => asmAmo "amominu.w" rd rs1 rs2
  | .amomaxuW rd rs1 rs2 => asmAmo "amomaxu.w" rd rs1 rs2

/-! ## Pseudo-instructions (R341), each the list of instructions it expands to -/

/-- The part of a value that LUI or AUIPC supplies: `(v + 0x800) & 0xFFFFF000`. -/
def upperPart (v : Word) : Word := (v + 0x800#32) &&& 0xFFFFF000#32

/-- The part that the following ADDI or JALR adds. -/
def lowerPart (v : Word) : BitVec 12 := (v - upperPart v).setWidth 12

def pseudoNop : List Instr := [.addi 0#5 0#5 0#12]
def pseudoMv (rd rs : Reg) : List Instr := [.addi rd rs 0#12]
/-- One ADDI where the value is in [−2048, 2047], else LUI and ADDI. -/
def pseudoLi (rd : Reg) (v : Word) : List Instr :=
  if -2048 ≤ v.toInt ∧ v.toInt ≤ 2047 then [.addi rd 0#5 (v.setWidth 12)]
  else [.lui rd (upperPart v), .addi rd rd (lowerPart v)]
/-- `offset` is sym − pc. -/
def pseudoLa (rd : Reg) (offset : Word) : List Instr :=
  [.auipc rd (upperPart offset), .addi rd rd (lowerPart offset)]
def pseudoNot (rd rs : Reg) : List Instr := [.xori rd rs 0xFFF#12]
def pseudoNeg (rd rs : Reg) : List Instr := [.sub rd 0#5 rs]
def pseudoSeqz (rd rs : Reg) : List Instr := [.sltiu rd rs 1#12]
def pseudoSnez (rd rs : Reg) : List Instr := [.sltu rd 0#5 rs]
def pseudoSltz (rd rs : Reg) : List Instr := [.slt rd rs 0#5]
def pseudoSgtz (rd rs : Reg) : List Instr := [.slt rd 0#5 rs]
def pseudoBeqz (rs : Reg) (offset : BitVec 13) : List Instr := [.beq rs 0#5 offset]
def pseudoBnez (rs : Reg) (offset : BitVec 13) : List Instr := [.bne rs 0#5 offset]
def pseudoBlez (rs : Reg) (offset : BitVec 13) : List Instr := [.bge 0#5 rs offset]
def pseudoBgez (rs : Reg) (offset : BitVec 13) : List Instr := [.bge rs 0#5 offset]
def pseudoBltz (rs : Reg) (offset : BitVec 13) : List Instr := [.blt rs 0#5 offset]
def pseudoBgtz (rs : Reg) (offset : BitVec 13) : List Instr := [.blt 0#5 rs offset]
def pseudoBgt (a b : Reg) (offset : BitVec 13) : List Instr := [.blt b a offset]
def pseudoBle (a b : Reg) (offset : BitVec 13) : List Instr := [.bge b a offset]
def pseudoBgtu (a b : Reg) (offset : BitVec 13) : List Instr := [.bltu b a offset]
def pseudoBleu (a b : Reg) (offset : BitVec 13) : List Instr := [.bgeu b a offset]
def pseudoJ (offset : BitVec 21) : List Instr := [.jal 0#5 offset]
def pseudoJal (offset : BitVec 21) : List Instr := [.jal 1#5 offset]
def pseudoJr (rs : Reg) : List Instr := [.jalr 0#5 rs 0#12]
def pseudoJalr (rs : Reg) : List Instr := [.jalr 1#5 rs 0#12]
def pseudoRet : List Instr := [.jalr 0#5 1#5 0#12]
/-- `offset` is L − pc. -/
def pseudoCall (offset : Word) : List Instr :=
  [.auipc 1#5 (upperPart offset), .jalr 1#5 1#5 (lowerPart offset)]
def pseudoCsrr (rd : Reg) (csr : CsrAddr) : List Instr := [.csrrs rd 0#5 csr]
def pseudoCsrw (csr : CsrAddr) (rs : Reg) : List Instr := [.csrrw 0#5 rs csr]
def pseudoCsrs (csr : CsrAddr) (rs : Reg) : List Instr := [.csrrs 0#5 rs csr]
def pseudoCsrc (csr : CsrAddr) (rs : Reg) : List Instr := [.csrrc 0#5 rs csr]
def pseudoCsrwi (csr : CsrAddr) (u : BitVec 5) : List Instr := [.csrrwi 0#5 u csr]
def pseudoCsrsi (csr : CsrAddr) (u : BitVec 5) : List Instr := [.csrrsi 0#5 u csr]
def pseudoCsrci (csr : CsrAddr) (u : BitVec 5) : List Instr := [.csrrci 0#5 u csr]
def pseudoRdinstret (rd : Reg) : List Instr := [.csrrs rd 0#5 0xC02#12]
def pseudoRdinstreth (rd : Reg) : List Instr := [.csrrs rd 0#5 0xC82#12]
def pseudoRdcycle (rd : Reg) : List Instr := [.csrrs rd 0#5 0xC00#12]
def pseudoRdtime (rd : Reg) : List Instr := [.csrrs rd 0#5 0xC01#12]

end Sys2Proof.Machine
end

