-- ==== Sys2Proof/Machine/HostOps.lean ====
section
/-! DEFINITION. What the embedding application can do to the machine between steps
(70_reset_and_hazards.md R801, R820; 60_exceptions.md R712, R713; 20_memory.md R220, R225). None of it
is part of `step`: "The host acts only between steps". A request the spec has the model refuse answers
a refusal of its own name. -/

namespace Sys2Proof.Machine

/-! ## Registers, pc and CSRs (R820) -/

/-- `get_register(i)`: an index outside 0..31 is refused (R102). -/
def State.getRegister (s : State) (i : Nat) : Host.Outcome Word Fault Refusal :=
  if i < 32 then .next (s.reg (BitVec.ofNat 5 i)) else .refused .registerIndex

/-- `set_register(i, v)`, under the same index-0 rule as an instruction (R102). -/
def State.setRegister (s : State) (i : Nat) (v : Word) : Result :=
  if i < 32 then .next (s.setReg (BitVec.ofNat 5 i) v) else .refused .registerIndex

/-- `get_pc()`. -/
def State.getPc (s : State) : Word := s.pc

/-- `set_pc(v)`: any 32-bit value (R112). -/
def State.setPc (s : State) (v : Word) : State := { s with pc := v }

/-- `read_csr(a)`: no side effect; an unsupported address is refused, no trap is taken. -/
def State.readCsr (s : State) (a : CsrAddr) : Host.Outcome Word Fault Refusal :=
  match csrOfAddr a with
  | some c => .next (s.csrRead c)
  | none => .refused .unsupportedCsr

/-! ## Direct access to a peripheral's buffer (R225, R820) -/

/-- P of a peripheral: the least power of two that is at least its size in bytes (R225). -/
def Peripheral.wrapSize (p : Peripheral) : Nat :=
  if p.size ≤ 1 then 1 else 2 ^ (Nat.log2 (p.size - 1) + 1)

/-- The bus address of the byte at a local address: `l & (P − 1)` within the buffer, and a ModelFault
where the masked address still lies outside it (R225, D34). -/
def Peripheral.cellAt (p : Peripheral) (l : Nat) : Except Fault Nat :=
  let masked := l &&& (p.wrapSize - 1)
  if masked < p.size then .ok (p.base + masked) else .error .outsideBuffer

/-- The host reads one byte of the k-th attached peripheral's buffer at a local address. -/
def State.bufferRead (s : State) (k l : Nat) : Host.Outcome Byte Fault Refusal :=
  match s.peripherals[k]? with
  | none => .refused .noSuchBuffer
  | some p =>
    match p.kind with
    | .device => .refused .noSuchBuffer
    | .ram | .rom =>
      match p.cellAt l with
      | .ok a => .next (s.mem.read a)
      | .error f => .fault f

/-- The host writes one byte of the k-th attached peripheral's RAM buffer, bypassing the bus: no
reservation changes (R254); a ROM buffer refuses it (R820). -/
def State.bufferWrite (s : State) (k l : Nat) (b : Byte) : Result :=
  match s.peripherals[k]? with
  | none => .refused .noSuchBuffer
  | some p =>
    match p.kind with
    | .device => .refused .noSuchBuffer
    | .rom => .refused .romBufferWrite
    | .ram =>
      match p.cellAt l with
      | .ok a => .next { s with mem := s.mem.write a b }
      | .error f => .fault f

/-! ## Attachment (R220, R801) -/

/-- A peripheral the host constructed and where it wants it: `image` is RAM_IMAGE or ROM_IMAGE, its
bytes from local address 0 on (log 17). -/
structure AttachRequest where
  kind : PeripheralKind
  base : Word
  pages : Nat
  image : List Byte
deriving DecidableEq, Repr

/-- Whether the kind is one that DEVICE_MODEL admits: RAM and ROM always (D36). -/
def kindAdmitted (cfg : Params) : PeripheralKind → Bool
  | .ram | .rom => true
  | .device => cfg.devicesAdmitted

/-- The attachment a request asks for. -/
def AttachRequest.peripheral (r : AttachRequest) : Peripheral :=
  ⟨r.kind, pageOf r.base.toNat, r.pages⟩

/-- Whether two peripherals claim no page in common. -/
def Peripheral.apart (p q : Peripheral) : Bool :=
  decide (p.firstPage + p.pages ≤ q.firstPage) || decide (q.firstPage + q.pages ≤ p.firstPage)

/-- R220's checks: aligned base, at least one page, inside the address space, no claimed page; and that
DEVICE_MODEL admits the kind. DESIGN CHOICE (log 27): D36 and U10 have any other attachment refused and do
not say in what form; here it fails as R220's rejections do. -/
def State.attachable (s : State) (r : AttachRequest) : Bool :=
  decide (r.base.toNat % pageBytes = 0) && decide (r.pages ≠ 0)
    && decide (r.base.toNat + pageBytes * r.pages ≤ 2 ^ 32)
    && s.peripherals.all (fun p => p.apart r.peripheral)
    && kindAdmitted s.cfg r.kind

/-- The state with the request's pages claimed and its image in place. -/
def State.withPeripheral (s : State) (r : AttachRequest) : State :=
  let p := r.peripheral
  { s with
    peripherals := s.peripherals ++ [p]
    mem := if r.kind = .device then s.mem else s.mem.writeBytes p.base (r.image.take p.size) }

/-- Whether the base is a multiple of P, as the launch premise BASES_ALIGNED asks (R226). -/
def Peripheral.baseAligned (p : Peripheral) : Bool := p.base % p.wrapSize == 0

/-- `attach(p, base)`: whether it succeeded, and the state; a rejected attachment changes nothing (R220),
and neither does one of a device that is not admitted, which reports failure (DESIGN CHOICE, log 27). After
the first step it is refused (R801; instret ≠ 0 as the test of it is a DESIGN CHOICE, log 28), and so is an
attachment that would break BASES_ALIGNED (R226, log 15). -/
def State.attach (s : State) (r : AttachRequest) : Host.Outcome (Bool × State) Fault Refusal :=
  if s.instret ≠ 0#64 then .refused .attachAfterFirstStep
  else if s.attachable r then
    if r.peripheral.baseAligned then .next (true, s.withPeripheral r) else .refused .basesNotAligned
  else .next (false, s)

/-- The attachments of a PERIPHERAL_MAP in its order; a rejected one, an unadmitted device among them,
changes nothing and the launch goes on without it (DESIGN CHOICE, log 27), a refused one refuses the map
(log 15). -/
def State.attachAll : List AttachRequest → State → Result
  | [], s => .next s
  | r :: rs, s =>
    match s.attach r with
    | .next (_, t) => State.attachAll rs t
    | .fault f => .fault f
    | .refused q => .refused q

/-- The machine the host launches with given parameters and PERIPHERAL_MAP (R801 (1) to (3)). -/
def launch (cfg : Params) (map : List AttachRequest) : Result :=
  State.attachAll map { State.reset with cfg := cfg }

/-! ## The external interrupt (R712, R713) -/

/-- `external_interrupt()`, between two steps: nothing is fetched, instret does not change, nothing is
latched. -/
def State.externalInterrupt (s : State) : State :=
  if s.cfg.extIntGated && !s.ie then s
  else { s.saveTrap .externalInterrupt with pc := trapVector }

/-- The per-cycle and per-timestep hooks of RAM and ROM (R12): they "have no effect" (D19, log 16). -/
def State.peripheralHooks (s : State) : State := s

end Sys2Proof.Machine
end

