-- ==== Sys2Proof/Safety.lean ====
section
/-! DEFINITION. The terms in which claims are stated: the ends of a run (70_reset_and_hazards.md R840),
the invariant of the machine, and what it means that parts of the state are unchanged. -/

namespace Sys2Proof.Machine

/-! ## Ends of a run (R840) -/

/-- What the host does to advance a run (R801 (5)): a call of `step()`, or a named call of
`external_interrupt()`. -/
inductive Call where
  | step
  | externalInterrupt
deriving DecidableEq, Repr

/-- How many of the calls are steps. -/
def stepsIn (calls : List Call) : Nat := calls.count .step

/-- The state after a run's calls in their order: after the `stepsIn calls` steps among them, with the
named `external_interrupt()` calls between them; or why a step stopped. -/
def afterCalls : List Call → State → Result
  | [], s => .next s
  | .externalInterrupt :: cs, s => afterCalls cs s.externalInterrupt
  | .step :: cs, s =>
    match step s with
    | .next t => afterCalls cs t
    | .fault f => .fault f
    | .refused r => .refused r

/-- The state after the first step among a run's calls whose committed pc equals the sentinel, the
calls being the bound; `none` if there is none. -/
def callsToSentinel (sentinel : Word) : List Call → State → Option State
  | [], _ => none
  | .externalInterrupt :: cs, s => callsToSentinel sentinel cs s.externalInterrupt
  | .step :: cs, s =>
    match step s with
    | .next t => if t.pc = sentinel then some t else callsToSentinel sentinel cs t
    | .fault _ => none
    | .refused _ => none

/-- The state after exactly n calls of `step()` and nothing between them. -/
def afterSteps (n : Nat) (s : State) : Result := afterCalls (List.replicate n .step) s

/-- The state after the first step whose committed pc equals the sentinel, within n steps and with
nothing between them. -/
def atSentinel (sentinel : Word) (n : Nat) (s : State) : Option State :=
  callsToSentinel sentinel (List.replicate n .step) s

/-- Straight-line execution of a list of instructions, each from its own address. -/
def execList : List Instr → State → Result
  | [], s => .next s
  | i :: is, s =>
    match commitOutcome (exec i s.startStep) with
    | .next t => execList is t
    | .fault f => .fault f
    | .refused r => .refused r

/-! ## The invariant -/

/-- The slot of x0 holds 0 (R101). -/
def State.zeroSlot (s : State) : Prop := s.regs[0] = 0#32

/-- The reservation set is in canonical form and holds 30-bit keys (R140). -/
def State.reservationsOk (s : State) : Prop :=
  s.reservations.Pairwise (fun x y => x < y) ∧ ∀ k ∈ s.reservations, k < 2 ^ 30

/-- The attachments are ones R220 accepts: at least one page each, inside the address space, no page
claimed twice. -/
def State.mapOk (s : State) : Prop :=
  s.peripherals.Pairwise (fun p q => p.apart q = true)
    ∧ ∀ p ∈ s.peripherals, 1 ≤ p.pages ∧ p.firstPage + p.pages ≤ 2 ^ 22

/-- Whether the byte at an address is a RAM or ROM byte. -/
def State.isBufferByte (s : State) (a : Nat) : Bool :=
  match s.ownerAt a with
  | none => false
  | some p =>
    match p.kind with
    | .ram | .rom => true
    | .device => false

/-- Whether the byte at an address is a RAM byte. -/
def State.isRamByte (s : State) (a : Nat) : Bool :=
  match s.ownerAt a with
  | none => false
  | some p => p.kind == .ram

/-- Whether the page of an address belongs to an admitted device. -/
def State.isDevicePage (s : State) (a : Nat) : Bool :=
  match s.ownerAt a with
  | none => false
  | some p => p.kind == .device

/-- The byte memory is in canonical form and lists only bytes of attached RAM and ROM (R142). -/
def State.memoryOk (s : State) : Prop :=
  s.mem.wf ∧ ∀ c ∈ s.mem, s.isBufferByte c.1 = true

/-- The launch premise BASES_ALIGNED: every base a multiple of its P (R226, D18, log 15). -/
def State.basesAligned (s : State) : Prop :=
  ∀ p ∈ s.peripherals, p.base % p.wrapSize = 0

/-- What holds of the machine at reset and after every step and host operation. -/
structure State.Inv (s : State) : Prop where
  zeroSlot : s.zeroSlot
  reservationsOk : s.reservationsOk
  mapOk : s.mapOk
  basesAligned : s.basesAligned
  memoryOk : s.memoryOk

/-! ## What is unchanged -/

/-- Every register but one reads as before. -/
def SameRegsBut (rd : Reg) (s t : State) : Prop := ∀ r : Reg, r ≠ rd → t.reg r = s.reg r

/-- Every register reads as before. -/
def SameRegs (s t : State) : Prop := ∀ r : Reg, t.reg r = s.reg r

/-- The interrupt-enable stack, the four stored CSRs and the counter are as before. -/
def SameCsrs (s t : State) : Prop :=
  t.ie = s.ie ∧ t.ie1 = s.ie1 ∧ t.mscratch = s.mscratch ∧ t.mepc = s.mepc ∧ t.mcause = s.mcause
    ∧ t.mbadaddr = s.mbadaddr ∧ t.instret = s.instret

/-- The page map and the parameters are as before. -/
def SamePlatform (s t : State) : Prop := t.peripherals = s.peripherals ∧ t.cfg = s.cfg

/-- Every byte of memory reads as before, and no device was written. -/
def SameMemory (s t : State) : Prop :=
  (∀ a : Nat, t.byteAt a = s.byteAt a) ∧ t.deviceWrites = s.deviceWrites

/-- Nothing is changed but one register (and the model's draw counter). -/
structure OnlyReg (rd : Reg) (s t : State) : Prop where
  regs : SameRegsBut rd s t
  zero : t.reg 0#5 = 0#32
  pc : t.pc = s.pc
  nextPc : t.nextPc = s.nextPc
  csrs : SameCsrs s t
  reservations : t.reservations = s.reservations
  memory : SameMemory s t
  platform : SamePlatform s t

/-- Nothing is changed but one register and the address the step commits. -/
structure OnlyRegAndNextPc (rd : Reg) (s t : State) : Prop where
  regs : SameRegsBut rd s t
  zero : t.reg 0#5 = 0#32
  pc : t.pc = s.pc
  csrs : SameCsrs s t
  reservations : t.reservations = s.reservations
  memory : SameMemory s t
  platform : SamePlatform s t

/-- Nothing is changed but memory, devices and the reservation set (and the draw counter). -/
structure OnlyStored (s t : State) : Prop where
  regs : SameRegs s t
  pc : t.pc = s.pc
  nextPc : t.nextPc = s.nextPc
  csrs : SameCsrs s t
  platform : SamePlatform s t

/-- The trap entry of R710 was taken during a step, with everything it does not write unchanged; what
the registers hold is said beside it. -/
structure TrapTaken (cause : Word) (s t : State) : Prop where
  ie1 : t.ie1 = s.ie
  ie : t.ie = false
  mepc : t.mepc = s.pc
  mcause : t.mcause = cause
  reservations : t.reservations = []
  nextPc : t.nextPc = 0x000001C0#32
  pc : t.pc = s.pc
  mscratch : t.mscratch = s.mscratch
  mbadaddr : t.mbadaddr = s.mbadaddr
  instret : t.instret = s.instret
  memory : SameMemory s t
  platform : SamePlatform s t

/-- The byte at `b` is one of the n bytes of an access at `a`. -/
def inAccess (a : Word) (n b : Nat) : Prop := a.toNat ≤ b ∧ b < a.toNat + n

/-- What an aligned store of the low n bytes of v at `a` leaves in memory (R231, R222 to R224, R252):
in RAM the bytes of the value, the least significant at the lowest address; every other byte as
before; the word's key removed and no other; at a device one event, in the model's own form (D36, log
29). -/
structure StoredBytes (a : Word) (n : Nat) (v : Word) (s t : State) : Prop where
  stored : ∀ i < n, s.isRamByte a.toNat = true →
    t.byteAt (a.toNat + i) = BitVec.ofNat 8 (v.toNat / 256 ^ i)
  unstored : s.isRamByte a.toNat = false → ∀ b, t.byteAt b = s.byteAt b
  others : ∀ b, ¬ inAccess a n b → t.byteAt b = s.byteAt b
  reservations : ∀ k, k ∈ t.reservations ↔ k ∈ s.reservations ∧ k ≠ a.toNat / 4
  devices : t.deviceWrites =
    if s.isDevicePage a.toNat then
      s.deviceWrites ++ [⟨a, n, BitVec.ofNat 32 (v.toNat % 256 ^ n)⟩]
    else s.deviceWrites

/-- What a misaligned store of n bytes at `a` may leave under MISALIGNED_DATA = Draw (R231, D2): only RAM
bytes of the aligned words that hold a byte of the access may change, and those words' keys are
removed; addresses are modulo 2^32 (log 26); that no event is recorded is the model's own choice (D36,
log 29). -/
structure Scrambled (a : Word) (n : Nat) (s t : State) : Prop where
  others : ∀ b, (s.isRamByte b = false ∨ ∀ j < n, b / 4 ≠ (a + BitVec.ofNat 32 j).toNat / 4) →
    t.byteAt b = s.byteAt b
  reservations : ∀ k, k ∈ t.reservations ↔
    k ∈ s.reservations ∧ ∀ j < n, k ≠ (a + BitVec.ofNat 32 j).toNat / 4
  devices : t.deviceWrites = s.deviceWrites

/-- The little-endian value of the n bytes at `a` (R230). -/
def State.valueAt (s : State) (a : Nat) : Nat → Nat
  | 0 => 0
  | n + 1 => (s.byteAt a).toNat + 256 * State.valueAt s (a + 1) n

/-- The instructions whose meaning can write memory: the stores, SC.W and the AMOs (R235). -/
def writesMemory : Instr → Bool
  | .sb .. | .sh .. | .sw .. | .scW .. | .amoswapW .. | .amoaddW .. | .amoxorW .. | .amoandW ..
  | .amoorW .. | .amominW .. | .amomaxW .. | .amominuW .. | .amomaxuW .. => true
  | _ => false

/-- The six CSR instructions. -/
def isCsrInstr : Instr → Bool
  | .csrrw .. | .csrrs .. | .csrrc .. | .csrrwi .. | .csrrsi .. | .csrrci .. => true
  | _ => false

/-- The register an instruction can write, if it names one. -/
def destination : Instr → Option Reg
  | .lui rd _ | .auipc rd _ | .jal rd _ | .jalr rd _ _ => some rd
  | .lb rd _ _ | .lh rd _ _ | .lw rd _ _ | .lbu rd _ _ | .lhu rd _ _ => some rd
  | .addi rd _ _ | .slti rd _ _ | .sltiu rd _ _ | .xori rd _ _ | .ori rd _ _ | .andi rd _ _ => some rd
  | .slli rd _ _ | .srli rd _ _ | .srai rd _ _ => some rd
  | .add rd _ _ | .sub rd _ _ | .sll rd _ _ | .slt rd _ _ | .sltu rd _ _ | .xor rd _ _ => some rd
  | .srl rd _ _ | .sra rd _ _ | .or rd _ _ | .and rd _ _ => some rd
  | .csrrw rd _ _ | .csrrs rd _ _ | .csrrc rd _ _ => some rd
  | .csrrwi rd _ _ | .csrrsi rd _ _ | .csrrci rd _ _ => some rd
  | .mul rd _ _ | .mulh rd _ _ | .mulhsu rd _ _ | .mulhu rd _ _ => some rd
  | .div rd _ _ | .divu rd _ _ | .rem rd _ _ | .remu rd _ _ => some rd
  | .lrW rd _ | .scW rd _ _ => some rd
  | .amoswapW rd _ _ | .amoaddW rd _ _ | .amoxorW rd _ _ | .amoandW rd _ _ | .amoorW rd _ _ => some rd
  | .amominW rd _ _ | .amomaxW rd _ _ | .amominuW rd _ _ | .amomaxuW rd _ _ => some rd
  | .beq .. | .bne .. | .blt .. | .bge .. | .bltu .. | .bgeu .. | .sb .. | .sh .. | .sw ..
  | .fence | .fenceI | .scall | .sbreak | .eret => none

/-- The instructions that can set next_pc (R401): taken branches, JAL, JALR, ERET and whatever can enter
a trap. -/
def setsNextPc : Instr → Bool
  | .jal .. | .jalr .. | .beq .. | .bne .. | .blt .. | .bge .. | .bltu .. | .bgeu ..
  | .scall | .sbreak | .eret => true
  | i => isCsrInstr i

/-- The data access an instruction makes on the bus: its address and width (R235); SC.W makes one only
while its word is reserved (R541; for a misaligned address DEDUCED, log 34). -/
def dataAccess (i : Instr) (s : State) : Option (Word × Nat) :=
  match i with
  | .lb _ rs1 imm | .lbu _ rs1 imm | .sb rs1 _ imm => some (s.effectiveAddress rs1 imm, 1)
  | .lh _ rs1 imm | .lhu _ rs1 imm | .sh rs1 _ imm => some (s.effectiveAddress rs1 imm, 2)
  | .lw _ rs1 imm | .sw rs1 _ imm => some (s.effectiveAddress rs1 imm, 4)
  | .lrW _ rs1 => some (s.reg rs1, 4)
  | .scW _ rs1 _ => if s.isReserved (s.reg rs1) then some (s.reg rs1, 4) else none
  | .amoswapW _ rs1 _ | .amoaddW _ rs1 _ | .amoxorW _ rs1 _ | .amoandW _ rs1 _ | .amoorW _ rs1 _
  | .amominW _ rs1 _ | .amomaxW _ rs1 _ | .amominuW _ rs1 _ | .amomaxuW _ rs1 _ => some (s.reg rs1, 4)
  | _ => none

/-- The instruction makes a data access and it is misaligned (R234; for SC.W see `dataAccess`). -/
def misalignedAccess (i : Instr) (s : State) : Prop :=
  ∃ a n, dataAccess i s = some (a, n) ∧ a.toNat % n ≠ 0

/-! ## Encodings (R330) -/

/-- R330 (a) to (c): the words that are no instruction. -/
abbrev IllegalEncoding (w : Word) : Prop :=
  w.extractLsb' 0 2 ≠ 0b11#2
    ∨ tagOf w ∈ [0b00001#5, 0b00010#5, 0b00110#5, 0b00111#5, 0b01001#5, 0b01010#5, 0b01110#5,
        0b01111#5, 0b10000#5, 0b10001#5, 0b10010#5, 0b10011#5, 0b10100#5, 0b10101#5, 0b10110#5,
        0b10111#5, 0b11010#5, 0b11101#5, 0b11110#5, 0b11111#5]
    ∨ (tagOf w = 0b00000#5 ∧ funct3Of w ∈ [0b011#3, 0b110#3, 0b111#3])
    ∨ (tagOf w = 0b01000#5 ∧ funct3Of w ∉ [0b000#3, 0b001#3, 0b010#3])
    ∨ (tagOf w = 0b00011#5 ∧ funct3Of w ∉ [0b000#3, 0b001#3])
    ∨ (tagOf w = 0b00100#5 ∧ funct3Of w = 0b001#3 ∧ funct7Of w ≠ 0b0000000#7)
    ∨ (tagOf w = 0b00100#5 ∧ funct3Of w = 0b101#3 ∧ funct7Of w ∉ [0b0000000#7, 0b0100000#7])
    ∨ (tagOf w = 0b01100#5 ∧ funct7Of w ∉ [0b0000000#7, 0b0000001#7, 0b0100000#7])
    ∨ (tagOf w = 0b01100#5 ∧ funct7Of w = 0b0100000#7 ∧ funct3Of w ∉ [0b000#3, 0b101#3])
    ∨ (tagOf w = 0b11000#5 ∧ funct3Of w ∈ [0b010#3, 0b011#3])
    ∨ (tagOf w = 0b11001#5 ∧ funct3Of w ≠ 0b000#3)
    ∨ (tagOf w = 0b01011#5 ∧ funct3Of w ≠ 0b010#3)
    ∨ (tagOf w = 0b01011#5 ∧ funct5Of w ∉ [0b00010#5, 0b00011#5, 0b00001#5, 0b00000#5, 0b00100#5,
        0b01100#5, 0b01000#5, 0b10000#5, 0b10100#5, 0b11000#5, 0b11100#5])
    ∨ (tagOf w = 0b11100#5 ∧ funct3Of w = 0b100#3)
    ∨ (tagOf w = 0b11100#5 ∧ funct3Of w = 0b000#3
        ∧ funct12Of w ∉ [0x000#12, 0x001#12, 0x100#12])

/-- The signed value of the immediate an instruction carries (R310 to R312, R314); for LUI and AUIPC the
32-bit value as a natural number (R313). -/
def immediateValue : Instr → Option Int
  | .lui _ imm | .auipc _ imm => some imm.toNat
  | .jal _ imm => some imm.toInt
  | .beq _ _ imm | .bne _ _ imm | .blt _ _ imm | .bge _ _ imm | .bltu _ _ imm | .bgeu _ _ imm =>
    some imm.toInt
  | .jalr _ _ imm | .lb _ _ imm | .lh _ _ imm | .lw _ _ imm | .lbu _ _ imm | .lhu _ _ imm => some imm.toInt
  | .sb _ _ imm | .sh _ _ imm | .sw _ _ imm => some imm.toInt
  | .addi _ _ imm | .slti _ _ imm | .sltiu _ _ imm | .xori _ _ imm | .ori _ _ imm | .andi _ _ imm =>
    some imm.toInt
  | _ => none

/-! ## How an instruction ends -/

/-- The instruction completes with v in rd and nothing else changed; x0 stays 0. -/
def WritesReg (i : Instr) (rd : Reg) (v : Word) (s : State) : Prop :=
  ∃ t, exec i s = .next t ∧ t.reg rd = (if rd = 0#5 then 0#32 else v) ∧ OnlyReg rd s t

/-- The answer is the trap entry of R710 with no register changed. -/
def Traps (r : Result) (cause : Word) (s : State) : Prop :=
  ∃ t, r = .next t ∧ SameRegs s t ∧ TrapTaken cause s t

/-- The branch completes: next_pc is pc + offset if taken, else as it was; nothing else is changed. -/
def Branches (i : Instr) (taken : Bool) (imm : BitVec 13) (s : State) : Prop :=
  ∃ t, exec i s = .next t ∧ t.nextPc = (if taken then s.pc + imm.signExtend 32 else s.nextPc)
    ∧ OnlyRegAndNextPc 0#5 s t

/-- The jump completes: next_pc is the target, rd the link pc + 4; nothing else is changed. -/
def Jumps (i : Instr) (rd : Reg) (target : Word) (s : State) : Prop :=
  ∃ t, exec i s = .next t ∧ t.nextPc = target ∧ t.reg rd = (if rd = 0#5 then 0#32 else s.pc + 4#32)
    ∧ OnlyRegAndNextPc rd s t

/-- The aligned store completes: the low n bytes of v at a, and nothing else changed. -/
def StoresTo (i : Instr) (a : Word) (n : Nat) (v : Word) (s : State) : Prop :=
  ∃ t, exec i s = .next t ∧ OnlyStored s t ∧ StoredBytes a n v s t

/-- The read-modify-write completes: rd takes the old word, `new` is stored, nothing else is changed. -/
def Updates (i : Instr) (rd : Reg) (a old new : Word) (s : State) : Prop :=
  ∃ t, exec i s = .next t ∧ t.reg rd = (if rd = 0#5 then 0#32 else old) ∧ SameRegsBut rd s t
    ∧ t.reg 0#5 = 0#32 ∧ t.pc = s.pc ∧ t.nextPc = s.nextPc ∧ SameCsrs s t ∧ SamePlatform s t
    ∧ StoredBytes a 4 new s t

/-- Nothing is changed but one register and one CSR, which takes v as its write rule says (R121, R123 to
R126). -/
structure OnlyRegAndCsr (rd : Reg) (c : Csr) (v : Word) (s t : State) : Prop where
  regs : SameRegsBut rd s t
  zero : t.reg 0#5 = 0#32
  ie : t.ie = if c = .mstatus then v.getLsbD 0 else s.ie
  ie1 : t.ie1 = if c = .mstatus then v.getLsbD 3 else s.ie1
  mscratch : t.mscratch = if c = .mscratch then v else s.mscratch
  mepc : t.mepc = if c = .mepc then v else s.mepc
  mcause : t.mcause = if c = .mcause then v else s.mcause
  mbadaddr : t.mbadaddr = if c = .mbadaddr then v else s.mbadaddr
  instret : t.instret = s.instret
  pc : t.pc = s.pc
  nextPc : t.nextPc = s.nextPc
  reservations : t.reservations = s.reservations
  memory : SameMemory s t
  platform : SamePlatform s t

/-- The CSR instruction completes: rd takes the CSR's value before the write, the CSR takes v. -/
def WritesCsr (i : Instr) (rd : Reg) (c : Csr) (v : Word) (s : State) : Prop :=
  ∃ t, exec i s = .next t ∧ t.reg rd = (if rd = 0#5 then 0#32 else s.csrRead c)
    ∧ OnlyRegAndCsr rd c v s t

/-- A CSR write that traps after its read: the trap entry, and rd either unchanged or the value read. -/
def CsrWriteTraps (i : Instr) (rd : Reg) (c : Csr) (s : State) : Prop :=
  ∃ t, exec i s = .next t ∧ TrapTaken 2#32 s t ∧ SameRegsBut rd s t ∧ t.reg 0#5 = 0#32
    ∧ (t.reg rd = s.reg rd ∨ t.reg rd = s.csrRead c)

end Sys2Proof.Machine
end

