-- ==== Sys2Proof/Certificates/Slice0/Obligations.lean ====
section
/-! DEFINITION. The statements for the provers, from the spec's numbered rules. `s` is the state before
and `t` the state after; `pc` is the instruction's own address and `nextPc` what the step commits.
Where a statement rests on a decision the spec marks as its own or on a choice of the model, its
docstring names it and its basis is 'derived'. -/

open Sys2Proof Sys2Proof.Machine

/-! ## Encoding -/

/-- Every well-formed instruction is read back from its word and from its bytes, with every operand at
every value its encoding holds (R301, R302, R324; numeric values D24, log 21). -/
def Obligations.DecodeOfEncode : Prop :=
  ∀ (i : Instr) (rest : List Byte), i.wellFormed = true →
    decodeWord (encode i) = .ok i ∧ decode (encodeBytes i ++ rest) = .ok (i, rest)

/-- Every bit of a word that decodes is read, but for the fields that have no effect (R332, D22, log
19): the instruction's word is the word with those fields cleared, and any other value in them decodes
to the same instruction. -/
def Obligations.DecodeReadsEveryBit : Prop :=
  ∀ (w : Word) (i : Instr), decodeWord w = .ok i →
    i.wellFormed = true ∧ encode i = w &&& ~~~(ignoredBits i)
      ∧ ∀ v : Word, v &&& ~~~(ignoredBits i) = w &&& ~~~(ignoredBits i) → decodeWord v = .ok i

/-- A few words written out from the spec's encodings and test vectors (R301, R324, R331, 95). -/
def Obligations.ManualWordsDecode : Prop :=
  decodeWord 0x00000013#32 = .ok (.addi 0#5 0#5 0#12)
    ∧ decodeWord 0x00008067#32 = .ok (.jalr 0#5 1#5 0#12)
    ∧ decodeWord 0x00550533#32 = .ok (.add 10#5 10#5 5#5)
    ∧ decodeWord 0x00000073#32 = .ok .scall
    ∧ decodeWord 0x00100073#32 = .ok .sbreak
    ∧ decodeWord 0x10000073#32 = .ok .eret
    ∧ decodeWord 0x123452B7#32 = .ok (.lui 5#5 0x12345000#32)

/-- A word whose bits 1:0 are not 11, and a word whose bits 6:2 are one of the twenty tags of R322, raise
the illegal-instruction trap (R320, R322). -/
def Obligations.UnsupportedOpcodesTrap : Prop :=
  ∀ (w : Word) (s : State),
    (w.extractLsb' 0 2 ≠ 0b11#2
      ∨ tagOf w ∈ [0b00001#5, 0b00010#5, 0b00110#5, 0b00111#5, 0b01001#5, 0b01010#5, 0b01110#5,
        0b01111#5, 0b10000#5, 0b10001#5, 0b10010#5, 0b10011#5, 0b10100#5, 0b10101#5, 0b10110#5,
        0b10111#5, 0b11010#5, 0b11101#5, 0b11110#5, 0b11111#5]) →
    Traps (executeWord w s) 2#32 s

/-- Decode is total: a word is an instruction exactly if it is none of the illegal encodings of R330
(a) to (c), and every illegal encoding traps with no register changed (R333, R701; D23, D24, D33, log
20 and 21). -/
def Obligations.IllegalEncodingsTrap : Prop :=
  ∀ (w : Word) (s : State),
    ((∃ i, decodeWord w = .ok i) ↔ ¬ IllegalEncoding w)
      ∧ (IllegalEncoding w → Traps (executeWord w s) 2#32 s)

/-- The immediate of every decoded instruction, as a number computed from the bits of its word: the I, S
and B forms with sign bit 11, 11 and 12, the J form with sign bit 20, the U form as it stands (R310 to
R314). Which word has which form is said by the tag numbers of R321, which are the spec's decision D24
(log 21). -/
def Obligations.ImmediatesOfWords : Prop :=
  ∀ (w : Word) (i : Instr), decodeWord w = .ok i →
    let n : Int := w.toNat
    let sign : Int := if w.getLsbD 31 then 1 else 0
    ((tagOf w = 0b00000#5 ∨ tagOf w = 0b11001#5
        ∨ (tagOf w = 0b00100#5 ∧ funct3Of w ≠ 0b001#3 ∧ funct3Of w ≠ 0b101#3)) →
      immediateValue i = some (n / 2 ^ 20 - sign * 2 ^ 12))
    ∧ (tagOf w = 0b01000#5 →
      immediateValue i = some (n / 2 ^ 25 * 2 ^ 5 + n / 2 ^ 7 % 2 ^ 5 - sign * 2 ^ 12))
    ∧ (tagOf w = 0b11000#5 →
      immediateValue i = some (n / 2 ^ 31 * 2 ^ 12 + n / 2 ^ 7 % 2 * 2 ^ 11 + n / 2 ^ 25 % 2 ^ 6 * 2 ^ 5
        + n / 2 ^ 8 % 2 ^ 4 * 2 - sign * 2 ^ 13))
    ∧ (tagOf w = 0b11011#5 →
      immediateValue i = some (n / 2 ^ 31 * 2 ^ 20 + n / 2 ^ 12 % 2 ^ 8 * 2 ^ 12 + n / 2 ^ 20 % 2 * 2 ^ 11
        + n / 2 ^ 21 % 2 ^ 10 * 2 - sign * 2 ^ 21))
    ∧ ((tagOf w = 0b01101#5 ∨ tagOf w = 0b00101#5) →
      immediateValue i = some (n / 2 ^ 12 * 2 ^ 12))

/-! ## The step -/

/-- When the bytes at an aligned pc decode to an instruction, the step is that instruction executed with
next_pc at pc + 4, then the counter and the commit (R400 to R404; bytes as D1 orders them), where RAM, ROM
or nothing owns the page of pc. Where an admitted device owns it, the step executes in the same way some
word, one draw being used for it (D36, log 29; the count of draws is the model's own field, log 33). -/
def Obligations.StepRunsDecodedInstruction : Prop :=
  ∀ s : State, s.pc.toNat % 4 = 0 →
    (s.isDevicePage s.pc.toNat = false → ∀ i : Instr,
      decode [s.byteAt s.pc.toNat, s.byteAt (s.pc.toNat + 1), s.byteAt (s.pc.toNat + 2),
        s.byteAt (s.pc.toNat + 3)] = .ok (i, []) →
      step s = match exec i { s with nextPc := s.pc + 4#32 } with
        | .next t => .next { t with instret := t.instret + 1#64, pc := t.nextPc }
        | .fault f => .fault f
        | .refused r => .refused r)
    ∧ (s.isDevicePage s.pc.toNat = true → ∃ w : Word,
      (∀ i : Instr, decodeWord w = .ok i →
        step s = match exec i { s with draws := s.draws + 1, nextPc := s.pc + 4#32 } with
          | .next t => .next { t with instret := t.instret + 1#64, pc := t.nextPc }
          | .fault f => .fault f
          | .refused r => .refused r)
      ∧ ((∀ i : Instr, decodeWord w ≠ .ok i) → ∃ t, step s = .next t ∧ t.pc = 0x000001C0#32
          ∧ t.mepc = s.pc ∧ t.mcause = 2#32 ∧ t.instret = s.instret + 1#64 ∧ SameRegs s t
          ∧ SameMemory s t ∧ SamePlatform s t))

/-- When they decode to none, the step is the illegal-instruction trap: nothing but the trap's own writes,
the counter and pc = 0x1C0 (R403, R701, R711, R232; D8, D37, log 8 and 30). -/
def Obligations.StepOfIllegalWord : Prop :=
  ∀ s : State, s.pc.toNat % 4 = 0 → s.isDevicePage s.pc.toNat = false →
    (∀ i, decode [s.byteAt s.pc.toNat, s.byteAt (s.pc.toNat + 1), s.byteAt (s.pc.toNat + 2),
      s.byteAt (s.pc.toNat + 3)] ≠ .ok (i, [])) →
    ∃ t, step s = .next t ∧ t.pc = 0x000001C0#32 ∧ t.mepc = s.pc ∧ t.mcause = 2#32 ∧ t.ie1 = s.ie
      ∧ t.ie = false ∧ t.instret = s.instret + 1#64 ∧ t.reservations = [] ∧ SameRegs s t
      ∧ t.mscratch = s.mscratch ∧ t.mbadaddr = s.mbadaddr ∧ SameMemory s t ∧ SamePlatform s t

/-- Every step that has a successor adds 1 to instret modulo 2^64, traps among them, and commits next_pc
(R402, R404, R127; D8, log 8). So after a run's steps, with any external_interrupt() calls named between
them, the counter has advanced by the number of steps alone, and the calls change neither the page map nor
the parameters (R712, R840; D11, D27, log 9 and 23). That the parameters stand in the state is the model's
choice (log 32). -/
def Obligations.StepCountsAndCommits : Prop :=
  (∀ s t : State, step s = .next t → t.instret = s.instret + 1#64 ∧ t.pc = t.nextPc)
    ∧ ∀ (calls : List Call) (s t : State), afterCalls calls s = .next t →
      t.instret = s.instret + BitVec.ofNat 64 (stepsIn calls) ∧ SamePlatform s t

/-- An instruction stops in one way only: a misaligned data access under MISALIGNED_DATA = Fault; in every
other case it answers a next state, and none is refused (R406, R230, R231; D2, log 2). That SC.W makes no
access, and so does not stop, while its word is not reserved (R235, R541), is the model's deduction for a
misaligned address (log 34), since D2 names SC among the misaligned accesses. -/
def Obligations.ExecStopsOnlyOnMisaligned : Prop :=
  ∀ (i : Instr) (s : State),
    (exec i s = .fault .misalignedData ∧ s.cfg.misalignedData = .fault ∧ misalignedAccess i s)
      ∨ ((∃ t, exec i s = .next t)
          ∧ ¬ (s.cfg.misalignedData = .fault ∧ misalignedAccess i s))

/-- The step never fails but in the two ModelFaults: exactly where pc is no multiple of 4 under
MISALIGNED_FETCH = Fault, and exactly where the word fetched decodes to an instruction whose data access,
from the state the step executes it in, is misaligned under MISALIGNED_DATA = Fault. Under
MISALIGNED_FETCH = Draw a misaligned fetch gives some word, executed with the pc as it is; with both at
Draw the step always completes (R112, R400, R406, R470; D2, D3, log 2 and 3). That SC.W makes no access,
and so does not stop, while its word is not reserved (R235, R541), is the model's deduction for a
misaligned address (log 34), since D2 names SC among the misaligned accesses. The count of draws in the
last clause is the model's own field (log 33). -/
def Obligations.StepStopsOnlyInModelFaults : Prop :=
  ∀ s : State,
    (step s = .fault .misalignedFetch ↔ (s.pc.toNat % 4 ≠ 0 ∧ s.cfg.misalignedFetch = .fault))
      ∧ (step s = .fault .misalignedData ↔ (s.cfg.misalignedData = .fault ∧
          ∃ (w : Word) (u : State) (i : Instr), s.fetch = .ok (w, u) ∧ decodeWord w = .ok i
            ∧ misalignedAccess i { u with nextPc := u.pc + 4#32 }))
      ∧ (step s = .fault .misalignedFetch ∨ step s = .fault .misalignedData ∨ ∃ t, step s = .next t)
      ∧ (s.pc.toNat % 4 ≠ 0 → s.cfg.misalignedFetch = .draw → ∃ w : Word,
          step s = commitOutcome (executeWord w { s with draws := s.draws + 1, nextPc := s.pc + 4#32 }))

/-! ## Invariants and whole-machine rules -/

/-- x0's slot, the reservation set, the page map and the byte memory keep their forms in every step: keys
are distinct 30-bit numbers (R140), no page has two owners (R141), every base is a multiple of its P
(R226, log 15), memory lists only bytes of attached RAM and ROM, each once (R142; the canonical form of
that list is the model's own, log 17). -/
def Obligations.StepKeepsInvariant : Prop :=
  ∀ s t : State, s.Inv → step s = .next t → t.Inv

/-- The invariant holds after core construction. -/
def Obligations.ResetMeetsInvariant : Prop := State.reset.Inv

/-- The host's operations keep the invariant, so it holds at the first step whatever PERIPHERAL_MAP is:
the launch answers a machine that has it, or refuses a map that breaks BASES_ALIGNED (R226, R801, R820;
log 15 and 24). That a launch goes on after an attachment that fails is the model's own choice (log 27). -/
def Obligations.HostKeepsInvariant : Prop :=
  (∀ (cfg : Params) (map : List AttachRequest),
      (∃ t, launch cfg map = .next t ∧ t.Inv) ∨ launch cfg map = .refused .basesNotAligned)
    ∧ ∀ s : State, s.Inv →
      (∀ v, (s.setPc v).Inv) ∧ s.externalInterrupt.Inv
        ∧ (∀ i v t, s.setRegister i v = .next t → t.Inv)
        ∧ (∀ k l b t, s.bufferWrite k l b = .next t → t.Inv)
        ∧ (∀ r b t, s.attach r = .next (b, t) → t.Inv)

/-- ROM bytes and the bytes of unmapped pages read the same after every step, and the page map and the
parameters are fixed once the machine runs (R221, R222, R224, R237, R141). That the parameters stand in
the state is the model's choice (log 32). -/
def Obligations.StepNeverWritesRom : Prop :=
  ∀ s t : State, step s = .next t →
    (∀ a, s.isRamByte a = false → t.byteAt a = s.byteAt a)
      ∧ t.peripherals = s.peripherals ∧ t.cfg = s.cfg

/-- Memory changes only by the stores, SC.W and the AMOs, only in RAM, and only in the bytes of the
instruction's data access; for a misaligned one, in the aligned words it touches (R231, R235, R237; D2,
log 2). That the words of a misaligned access at the top of the address space are taken modulo 2^32 is the
model's deduction (D30, log 26). For SC.W the access is that of a reserved word alone (R235, R541). -/
def Obligations.ExecMemoryFootprint : Prop :=
  ∀ (i : Instr) (s t : State) (b : Nat), exec i s = .next t → t.byteAt b ≠ s.byteAt b →
    writesMemory i = true ∧ s.isRamByte b = true ∧
      ∃ a n, dataAccess i s = some (a, n)
        ∧ (a.toNat % n = 0 → inAccess a n b)
        ∧ (a.toNat % n ≠ 0 → ∃ j < n, b / 4 = (a + BitVec.ofNat 32 j).toNat / 4)

/-- Who changes the reservation set: only LR.W adds a key, its own word's; a key goes only by a bus write
to its word or, with all the others, by a trap or ERET (R250 to R254, R544; D16, D17, log 14; for the
misaligned store D2, log 2). That the words of a misaligned access at the top of the address space are
taken modulo 2^32 is the model's deduction (D30, log 26). -/
def Obligations.ReservationsChangeOnlyBy : Prop :=
  ∀ (i : Instr) (s t : State) (k : Nat), exec i s = .next t →
    (k ∈ t.reservations → k ∉ s.reservations →
      ∃ rd rs1, i = .lrW rd rs1 ∧ k = (s.reg rs1).toNat / 4)
    ∧ (k ∈ s.reservations → k ∉ t.reservations →
        (writesMemory i = true ∧ ∃ a n, dataAccess i s = some (a, n)
            ∧ ∃ j < n, k = (a + BitVec.ofNat 32 j).toNat / 4)
          ∨ (t.reservations = [] ∧ (i = .eret ∨ i = .scall ∨ i = .sbreak ∨ isCsrInstr i = true)))

/-- Who writes what, over all instructions: a register changes only as the instruction's rd; next_pc only
by control transfers, ERET and traps; pc and instret by no instruction; mscratch and mbadaddr only by CSR
instructions; the interrupt-enable stack, mepc and mcause only by those, SCALL, SBREAK and ERET; a device
is written only by a store, SC.W or AMO (R103, R122 to R127, R401, R405), as the model records it (D36,
log 29). That exec leaves pc to the step's commit and that the parameters stand in the state are the
model's choices (log 31 and 32). -/
def Obligations.WhoWritesWhat : Prop :=
  ∀ (i : Instr) (s t : State), exec i s = .next t →
    (∀ r : Reg, destination i ≠ some r → t.reg r = s.reg r)
      ∧ t.reg 0#5 = 0#32
      ∧ (setsNextPc i = false → t.nextPc = s.nextPc)
      ∧ t.pc = s.pc ∧ t.instret = s.instret ∧ SamePlatform s t
      ∧ (isCsrInstr i = false → t.mscratch = s.mscratch ∧ t.mbadaddr = s.mbadaddr)
      ∧ (isCsrInstr i = false → i ≠ .scall → i ≠ .sbreak → i ≠ .eret →
          t.ie = s.ie ∧ t.ie1 = s.ie1 ∧ t.mepc = s.mepc ∧ t.mcause = s.mcause)
      ∧ (writesMemory i = false → t.deviceWrites = s.deviceWrites)

/-- Register 0 reads 0 in every state, a write to it leaves the state as it was, and any other register
holds what is written to it, the rest keeping their values (R101). -/
def Obligations.RegisterZeroLaw : Prop :=
  ∀ (s : State) (r q : Reg) (v : Word),
    s.reg 0#5 = 0#32 ∧ s.setReg 0#5 v = s
      ∧ (r ≠ 0#5 → (s.setReg r v).reg r = v)
      ∧ (q ≠ r → (s.setReg r v).reg q = s.reg q)

/-! ## Reset, CSRs, traps -/

/-- The state after core construction (R800, R104, R123 to R127, R140; pc, ie and ie1 by D4 and D5, log 4
and 5): every register 0, nothing reserved, nothing attached, every byte reading 0. -/
def Obligations.ResetState : Prop :=
  (∀ r : Reg, State.reset.reg r = 0#32)
    ∧ State.reset.pc = 0x00000000#32 ∧ State.reset.ie = false ∧ State.reset.ie1 = false
    ∧ State.reset.csrRead .mscratch = 0#32 ∧ State.reset.csrRead .mepc = 0#32
    ∧ State.reset.csrRead .mcause = 0#32 ∧ State.reset.csrRead .mbadaddr = 0#32
    ∧ State.reset.instret = 0#64 ∧ State.reset.csrRead .mstatus = mstatusFixed
    ∧ State.reset.reservations = [] ∧ State.reset.peripherals = []
    ∧ (∀ a, State.reset.byteAt a = 0#8)

/-- The supported CSR addresses are exactly the fourteen of R135, five of them writable (R120, R135). -/
def Obligations.SupportedCsrAddresses : Prop :=
  (∀ a : CsrAddr, (csrOfAddr a).isSome = true ↔
      a ∈ [0x300#12, 0x340#12, 0x341#12, 0x342#12, 0x343#12, 0xC00#12, 0xC01#12, 0xC02#12, 0xC80#12,
        0xC81#12, 0xC82#12, 0xF00#12, 0xF01#12, 0xF10#12])
    ∧ ∀ (a : CsrAddr) (c : Csr), csrOfAddr a = some c →
      (csrReadOnly c = false ↔ a ∈ [0x300#12, 0x340#12, 0x341#12, 0x342#12, 0x343#12])

/-- mcpuid, mimpid and mhartid: each read of one gives its constant and changes nothing but rd, and each
CSR instruction that writes one traps (R129, R130, R131). -/
def Obligations.IdentificationCsrs : Prop :=
  ∀ (rd rs1 : Reg) (u : BitVec 5) (s : State),
    ∀ p ∈ [(0xF00#12, 0x00001101#32), (0xF01#12, 0x00108000#32), (0xF10#12, 0#32)],
      (∀ i ∈ [Instr.csrrs rd 0#5 p.1, .csrrc rd 0#5 p.1, .csrrsi rd 0#5 p.1, .csrrci rd 0#5 p.1],
          WritesReg i rd p.2 s)
        ∧ (∀ i ∈ [Instr.csrrw rd rs1 p.1, .csrrwi rd u p.1], ∃ t, exec i s = .next t ∧ TrapTaken 2#32 s t)
        ∧ (rs1 ≠ 0#5 → ∀ i ∈ [Instr.csrrs rd rs1 p.1, .csrrc rd rs1 p.1],
            ∃ t, exec i s = .next t ∧ TrapTaken 2#32 s t)
        ∧ (u ≠ 0#5 → ∀ i ∈ [Instr.csrrsi rd u p.1, .csrrci rd u p.1],
            ∃ t, exec i s = .next t ∧ TrapTaken 2#32 s t)

/-- What each address reads as, through the pure reads, which change nothing but rd: the stored CSRs, the
counter's halves before this step's increment, 0 for cycle and time, mstatus with ie at bit 0, ie1 at
bit 3 and the fixed constant elsewhere (R121 to R128, R132, R135; D6, D7, D9, log 6, 7, 8). -/
def Obligations.CsrReadValues : Prop :=
  ∀ (rd : Reg) (s : State),
    ∀ p ∈ [(0x340#12, s.mscratch), (0x341#12, s.mepc), (0x342#12, s.mcause), (0x343#12, s.mbadaddr),
        (0xC00#12, 0#32), (0xC01#12, 0#32), (0xC80#12, 0#32), (0xC81#12, 0#32),
        (0xC02#12, BitVec.ofNat 32 s.instret.toNat), (0xC82#12, BitVec.ofNat 32 (s.instret.toNat / 2 ^ 32)),
        (0xF00#12, 0x00001101#32), (0xF01#12, 0x00108000#32), (0xF10#12, 0#32),
        (0x300#12, s.csrRead .mstatus)],
      WritesReg (.csrrs rd 0#5 p.1) rd p.2 s ∧ WritesReg (.csrrc rd 0#5 p.1) rd p.2 s
        ∧ WritesReg (.csrrsi rd 0#5 p.1) rd p.2 s ∧ WritesReg (.csrrci rd 0#5 p.1) rd p.2 s

/-- mstatus is made of ie, ie1 and a constant that no state changes: bit 0 is ie, bit 3 is ie1, every
other bit is MSTATUS_FIXED's, whose bits 0 and 3 are clear (R121; D6, D7, log 6 and 7). -/
def Obligations.MstatusComposition : Prop :=
  ∀ (s : State) (k : Nat), k < 32 →
    (s.csrRead .mstatus).getLsbD k =
      (if k = 0 then s.ie else if k = 3 then s.ie1 else mstatusFixed.getLsbD k)
    ∧ mstatusFixed.getLsbD 0 = false ∧ mstatusFixed.getLsbD 3 = false

/-- The six CSR instructions on the five writable CSRs, when they write: rd takes the value before the
write, the CSR the new value (on mstatus bits 0 and 3 only), operands read first, nothing else changed
(R640 to R646, R121, R123 to R126; D6, D14, D21, log 6, 12, 18). -/
def Obligations.CsrWritesComplete : Prop :=
  ∀ (rd rs1 : Reg) (u : BitVec 5) (a : CsrAddr) (c : Csr) (s : State),
    (a, c) ∈ [(0x300#12, Csr.mstatus), (0x340#12, Csr.mscratch), (0x341#12, Csr.mepc),
      (0x342#12, Csr.mcause), (0x343#12, Csr.mbadaddr)] →
    WritesCsr (.csrrw rd rs1 a) rd c (s.reg rs1) s
      ∧ WritesCsr (.csrrwi rd u a) rd c (u.setWidth 32) s
      ∧ (rs1 ≠ 0#5 → WritesCsr (.csrrs rd rs1 a) rd c (s.csrRead c ||| s.reg rs1) s
          ∧ WritesCsr (.csrrc rd rs1 a) rd c (s.csrRead c &&& ~~~(s.reg rs1)) s)
      ∧ (u ≠ 0#5 → WritesCsr (.csrrsi rd u a) rd c (s.csrRead c ||| u.setWidth 32) s
          ∧ WritesCsr (.csrrci rd u a) rd c (s.csrRead c &&& ~~~(u.setWidth 32)) s)

/-- CSR access violations: at an unsupported address every CSR instruction traps with rd unchanged; a
write to a read-only CSR traps with rd unchanged or holding the value read (R120, R646, R647; D15, log
13). -/
def Obligations.CsrViolationsTrap : Prop :=
  ∀ (rd rs1 : Reg) (u : BitVec 5) (a : CsrAddr) (s : State),
    (csrOfAddr a = none →
      Traps (exec (.csrrw rd rs1 a) s) 2#32 s ∧ Traps (exec (.csrrs rd rs1 a) s) 2#32 s
        ∧ Traps (exec (.csrrc rd rs1 a) s) 2#32 s ∧ Traps (exec (.csrrwi rd u a) s) 2#32 s
        ∧ Traps (exec (.csrrsi rd u a) s) 2#32 s ∧ Traps (exec (.csrrci rd u a) s) 2#32 s)
    ∧ ∀ c, csrOfAddr a = some c → csrReadOnly c = true →
      CsrWriteTraps (.csrrw rd rs1 a) rd c s ∧ CsrWriteTraps (.csrrwi rd u a) rd c s
        ∧ (rs1 ≠ 0#5 → CsrWriteTraps (.csrrs rd rs1 a) rd c s ∧ CsrWriteTraps (.csrrc rd rs1 a) rd c s)
        ∧ (u ≠ 0#5 → CsrWriteTraps (.csrrsi rd u a) rd c s ∧ CsrWriteTraps (.csrrci rd u a) rd c s)

/-- Trap entry during a step, for the causes 2, 3 and 11: ie is pushed and cleared, mepc and mcause
written, the reservations emptied, next_pc at 0x1C0; every register, mscratch, mbadaddr and memory are
untouched (R710), and the step's end makes pc 0x1C0 and counts, as the spec's decision D8 has it for a
trapping step (R403; log 8). -/
def Obligations.TrapEntry : Prop :=
  ∀ (s : State) (cause : TrapCause) (number : Word),
    (cause, number) ∈ [(TrapCause.illegalInstruction, 2#32), (TrapCause.breakpoint, 3#32),
      (TrapCause.environmentCall, 11#32)] →
    Traps (.next (s.raiseTrap cause)) number s
      ∧ commitOutcome (.next (s.raiseTrap cause)) = .next { s.raiseTrap cause with
          instret := s.instret + 1#64, pc := 0x000001C0#32 }

/-- SCALL and SBREAK, whatever their rd and rs1 fields hold: always the trap entry, with cause 11 or 3
and mepc at the instruction itself, so that an ERET with mepc as it is comes back to it (R621, R622). That
the two fields are ignored is the spec's decision D22 (R332, log 19). -/
def Obligations.ScallAndSbreakTrap : Prop :=
  (∀ rd rs1 : Reg, decodeWord (iType 0x000#12 rs1 0b000#3 rd 0b1110011#7) = .ok .scall
      ∧ decodeWord (iType 0x001#12 rs1 0b000#3 rd 0b1110011#7) = .ok .sbreak)
    ∧ encode .scall = 0x00000073#32 ∧ encode .sbreak = 0x00100073#32
    ∧ ∀ s : State, Traps (exec .scall s) 11#32 s ∧ Traps (exec .sbreak s) 3#32 s
      ∧ ∀ i ∈ [Instr.scall, Instr.sbreak], ∃ t u, exec i s = .next t ∧ exec .eret t = .next u
          ∧ u.nextPc = s.pc

/-- ERET, in every state: ie takes ie1, ie1 becomes 1, next_pc takes mepc unchanged, the reservations are
emptied; nothing else changes (R632, R730; D29, log 25). -/
def Obligations.EretReturns : Prop :=
  ∀ s : State, ∃ t, exec .eret s = .next t ∧ t.ie = s.ie1 ∧ t.ie1 = true ∧ t.nextPc = s.mepc
    ∧ t.reservations = [] ∧ SameRegs s t ∧ t.pc = s.pc ∧ t.mscratch = s.mscratch ∧ t.mepc = s.mepc
    ∧ t.mcause = s.mcause ∧ t.mbadaddr = s.mbadaddr ∧ t.instret = s.instret ∧ SameMemory s t
    ∧ SamePlatform s t

/-- The external interrupt between two steps: the trap's writes with cause 15, pc at 0x1C0 at once,
instret unchanged; with EXT_INT_GATED and ie = 0 nothing happens (R712, R713; D10, D11, log 9; for the
cause log 40). -/
def Obligations.ExternalInterruptEntry : Prop :=
  ∀ s : State,
    ((s.cfg.extIntGated = true ∧ s.ie = false) → s.externalInterrupt = s)
    ∧ (¬ (s.cfg.extIntGated = true ∧ s.ie = false) →
        s.externalInterrupt = { s with ie1 := s.ie, ie := false, mepc := s.pc, mcause := 15#32, reservations := [], pc := 0x000001C0#32 })

/-- Nesting is one level deep: after a trap, ERET restores ie and returns to the trapping instruction;
after two traps without an ERET between them, the first one's mepc and mcause are lost and ERET leaves
ie = 0 and ie1 = 1 (R730, R731). -/
def Obligations.TrapNesting : Prop :=
  ∀ (s : State) (p : Word) (c d : TrapCause),
    ((s.raiseTrap c).returnFromTrap.ie = s.ie ∧ (s.raiseTrap c).returnFromTrap.ie1 = true
      ∧ (s.raiseTrap c).returnFromTrap.nextPc = s.pc)
    ∧ (let t := ({ s.raiseTrap c with pc := p }).raiseTrap d
       t.mepc = p ∧ t.mcause = causeNumber d ∧ t.ie1 = false
        ∧ t.returnFromTrap.ie = false ∧ t.returnFromTrap.ie1 = true ∧ t.returnFromTrap.nextPc = p)

/-- With nothing mapped at the vector the core traps there for ever: after any number of steps pc and
mepc are 0x1C0, mcause is 2 and ie is 0, the counter still counts, and from the second step on ie1 is 0
(R732, R222, R232). -/
def Obligations.TrapLoopAtVector : Prop :=
  ∀ (s : State) (n : Nat), s.pc = 0x000001C0#32 → s.ownerAt 0x1C0 = none →
    ∃ t, afterSteps (n + 1) s = .next t ∧ t.pc = 0x000001C0#32 ∧ t.mepc = 0x000001C0#32
      ∧ t.mcause = 2#32 ∧ t.ie = false ∧ t.ie1 = (if n = 0 then s.ie else false)
      ∧ t.instret = s.instret + BitVec.ofNat 64 (n + 1) ∧ SameRegs s t ∧ SameMemory s t

/-! ## Integer ALU -/

/-- OP-IMM without the shifts, in every form: rd takes the sum modulo 2^32, the signed or unsigned
comparison with the sign-extended immediate as 1 or 0, or the bitwise result; nothing else changes (R421
to R426). -/
def Obligations.OpImmResults : Prop :=
  ∀ (rd rs1 : Reg) (imm : BitVec 12) (s : State),
    let v : Word := imm.signExtend 32
    (∀ p ∈ [(0b000#3, Instr.addi rd rs1 imm), (0b010#3, .slti rd rs1 imm), (0b011#3, .sltiu rd rs1 imm),
        (0b100#3, .xori rd rs1 imm), (0b110#3, .ori rd rs1 imm), (0b111#3, .andi rd rs1 imm)],
      decodeWord (iType imm rs1 p.1 rd 0b0010011#7) = .ok p.2)
    ∧ WritesReg (.addi rd rs1 imm) rd (BitVec.ofNat 32 ((s.reg rs1).toNat + v.toNat)) s
    ∧ WritesReg (.slti rd rs1 imm) rd (if (s.reg rs1).toInt < imm.toInt then 1#32 else 0#32) s
    ∧ WritesReg (.sltiu rd rs1 imm) rd (if (s.reg rs1).toNat < v.toNat then 1#32 else 0#32) s
    ∧ WritesReg (.xori rd rs1 imm) rd (s.reg rs1 ^^^ v) s
    ∧ WritesReg (.ori rd rs1 imm) rd (s.reg rs1 ||| v) s
    ∧ WritesReg (.andi rd rs1 imm) rd (s.reg rs1 &&& v) s

/-- The shift-immediates: x[rs1] times 2^shamt cut to 32 bits, the natural quotient by 2^shamt, and the
signed one rounded down; any other funct7 traps and writes nothing (R427, R428, R429). -/
def Obligations.ShiftImmResults : Prop :=
  ∀ (rd rs1 : Reg) (shamt : BitVec 5) (s : State),
    decodeWord (rType 0b0000000#7 shamt rs1 0b001#3 rd 0b0010011#7) = .ok (.slli rd rs1 shamt)
    ∧ decodeWord (rType 0b0000000#7 shamt rs1 0b101#3 rd 0b0010011#7) = .ok (.srli rd rs1 shamt)
    ∧ decodeWord (rType 0b0100000#7 shamt rs1 0b101#3 rd 0b0010011#7) = .ok (.srai rd rs1 shamt)
    ∧ WritesReg (.slli rd rs1 shamt) rd (BitVec.ofNat 32 ((s.reg rs1).toNat * 2 ^ shamt.toNat)) s
    ∧ WritesReg (.srli rd rs1 shamt) rd (BitVec.ofNat 32 ((s.reg rs1).toNat / 2 ^ shamt.toNat)) s
    ∧ WritesReg (.srai rd rs1 shamt) rd (BitVec.ofInt 32 ((s.reg rs1).toInt / 2 ^ shamt.toNat)) s
    ∧ ∀ funct7 : BitVec 7, funct7 ≠ 0b0000000#7 →
      Traps (executeWord (rType funct7 shamt rs1 0b001#3 rd 0b0010011#7) s) 2#32 s
      ∧ (funct7 ≠ 0b0100000#7 →
          Traps (executeWord (rType funct7 shamt rs1 0b101#3 rd 0b0010011#7) s) 2#32 s)

/-- OP without shifts: sum and difference modulo 2^32, the comparisons as 1 or 0, the bitwise results; a
source may be rd, and then its old value counts (R430, R431, R433, R434, R435, R438, R439). -/
def Obligations.OpResults : Prop :=
  ∀ (rd rs1 rs2 : Reg) (s : State),
    let a := s.reg rs1
    let b := s.reg rs2
    (∀ p ∈ [(0b0000000#7, 0b000#3, Instr.add rd rs1 rs2), (0b0100000#7, 0b000#3, .sub rd rs1 rs2),
        (0b0000000#7, 0b010#3, .slt rd rs1 rs2), (0b0000000#7, 0b011#3, .sltu rd rs1 rs2),
        (0b0000000#7, 0b100#3, .xor rd rs1 rs2), (0b0000000#7, 0b110#3, .or rd rs1 rs2),
        (0b0000000#7, 0b111#3, .and rd rs1 rs2)],
      decodeWord (rType p.1 rs2 rs1 p.2.1 rd 0b0110011#7) = .ok p.2.2)
    ∧ WritesReg (.add rd rs1 rs2) rd (BitVec.ofNat 32 (a.toNat + b.toNat)) s
    ∧ WritesReg (.sub rd rs1 rs2) rd (BitVec.ofInt 32 ((a.toNat : Int) - b.toNat)) s
    ∧ WritesReg (.slt rd rs1 rs2) rd (if a.toInt < b.toInt then 1#32 else 0#32) s
    ∧ WritesReg (.sltu rd rs1 rs2) rd (if a.toNat < b.toNat then 1#32 else 0#32) s
    ∧ WritesReg (.xor rd rs1 rs2) rd (a ^^^ b) s
    ∧ WritesReg (.or rd rs1 rs2) rd (a ||| b) s
    ∧ WritesReg (.and rd rs1 rs2) rd (a &&& b) s

/-- The register shifts use x[rs2] modulo 32 (R432, R436, R437; D26, log 22). -/
def Obligations.RegisterShiftResults : Prop :=
  ∀ (rd rs1 rs2 : Reg) (s : State),
    let a := s.reg rs1
    let k := (s.reg rs2).toNat % 32
    WritesReg (.sll rd rs1 rs2) rd (BitVec.ofNat 32 (a.toNat * 2 ^ k)) s
    ∧ WritesReg (.srl rd rs1 rs2) rd (BitVec.ofNat 32 (a.toNat / 2 ^ k)) s
    ∧ WritesReg (.sra rd rs1 rs2) rd (BitVec.ofInt 32 (a.toInt / 2 ^ k)) s

/-! ## Control transfer -/

/-- LUI and AUIPC: the upper immediate, and pc plus it modulo 2^32 (R460, R461). -/
def Obligations.UpperImmediateResults : Prop :=
  ∀ (rd : Reg) (imm : Word) (s : State), upperImmediateOk imm = true →
    decodeWord (uType imm rd 0b0110111#7) = .ok (.lui rd imm)
    ∧ decodeWord (uType imm rd 0b0010111#7) = .ok (.auipc rd imm)
    ∧ WritesReg (.lui rd imm) rd imm s ∧ imm.toNat % 2 ^ 12 = 0
    ∧ WritesReg (.auipc rd imm) rd (BitVec.ofNat 32 (s.pc.toNat + imm.toNat)) s

/-- JAL and JALR: the target (for JALR from the old x[rs1], only bit 0 cleared) goes to next_pc unchecked,
pc + 4 to rd; nothing else changes (R462, R463, R470; D14, D23, log 12 and 20). -/
def Obligations.JumpResults : Prop :=
  (∀ (rd : Reg) (imm : BitVec 21) (s : State), jumpOffsetOk imm = true →
      decodeWord (jType imm rd 0b1101111#7) = .ok (.jal rd imm)
      ∧ Jumps (.jal rd imm) rd (BitVec.ofInt 32 ((s.pc.toNat : Int) + imm.toInt)) s)
    ∧ ∀ (rd rs1 : Reg) (imm : BitVec 12) (s : State),
      Jumps (.jalr rd rs1 imm) rd
        (BitVec.ofInt 32 (((s.reg rs1).toNat + imm.toInt) / 2 * 2)) s

/-- The six branches: next_pc is pc + immB exactly if the condition holds, else as it was; no register
and nothing else is written (R464 to R469). -/
def Obligations.BranchResults : Prop :=
  ∀ (rs1 rs2 : Reg) (imm : BitVec 13) (s : State), branchOffsetOk imm = true →
    let a := s.reg rs1
    let b := s.reg rs2
    (∀ p ∈ [(0b000#3, Instr.beq rs1 rs2 imm), (0b001#3, .bne rs1 rs2 imm), (0b100#3, .blt rs1 rs2 imm),
        (0b101#3, .bge rs1 rs2 imm), (0b110#3, .bltu rs1 rs2 imm), (0b111#3, .bgeu rs1 rs2 imm)],
      decodeWord (bType imm rs2 rs1 p.1 0b1100011#7) = .ok p.2)
    ∧ Branches (.beq rs1 rs2 imm) (decide (a = b)) imm s
    ∧ Branches (.bne rs1 rs2 imm) (decide (a ≠ b)) imm s
    ∧ Branches (.blt rs1 rs2 imm) (decide (a.toInt < b.toInt)) imm s
    ∧ Branches (.bge rs1 rs2 imm) (decide (a.toInt ≥ b.toInt)) imm s
    ∧ Branches (.bltu rs1 rs2 imm) (decide (a.toNat < b.toNat)) imm s
    ∧ Branches (.bgeu rs1 rs2 imm) (decide (a.toNat ≥ b.toNat)) imm s

/-! ## Loads, stores, fences -/

/-- The loads at an aligned address in RAM, ROM or unmapped space: rd takes the little-endian value of the
bytes there, sign- or zero-extended; nothing else changes (R500 to R505, R222, R230; D1, log 1; addresses
modulo 2^32, D30, log 26). -/
def Obligations.LoadResults : Prop :=
  ∀ (rd rs1 : Reg) (imm : BitVec 12) (s : State),
    let a : Word := s.reg rs1 + imm.signExtend 32
    s.isDevicePage a.toNat = false →
    WritesReg (.lb rd rs1 imm) rd ((BitVec.ofNat 8 (s.valueAt a.toNat 1)).signExtend 32) s
    ∧ WritesReg (.lbu rd rs1 imm) rd (BitVec.ofNat 32 (s.valueAt a.toNat 1)) s
    ∧ (a.toNat % 2 = 0 →
        WritesReg (.lh rd rs1 imm) rd ((BitVec.ofNat 16 (s.valueAt a.toNat 2)).signExtend 32) s
        ∧ WritesReg (.lhu rd rs1 imm) rd (BitVec.ofNat 32 (s.valueAt a.toNat 2)) s)
    ∧ (a.toNat % 4 = 0 → WritesReg (.lw rd rs1 imm) rd (BitVec.ofNat 32 (s.valueAt a.toNat 4)) s)

/-- The loads where the spec states no value: at an aligned address of an admitted device, and at a
misaligned address under MISALIGNED_DATA = Draw, rd takes any value of the width, extended, and nothing
else changes; a misaligned one under MISALIGNED_DATA = Fault is a ModelFault, never a trap (R230, R234,
R237; D2, D36, log 2 and 29; addresses modulo 2^32, D30, log 26). -/
def Obligations.LoadsWithoutStatedValue : Prop :=
  ∀ (rd rs1 : Reg) (imm : BitVec 12) (s : State),
    let a : Word := s.reg rs1 + imm.signExtend 32
    (s.isDevicePage a.toNat = true →
      ∃ v : BitVec 8, WritesReg (.lb rd rs1 imm) rd (v.signExtend 32) s
        ∧ WritesReg (.lbu rd rs1 imm) rd (v.setWidth 32) s)
    ∧ ((a.toNat % 2 = 0 ∧ s.isDevicePage a.toNat = true)
        ∨ (a.toNat % 2 ≠ 0 ∧ s.cfg.misalignedData = .draw) →
      ∃ v : BitVec 16, WritesReg (.lh rd rs1 imm) rd (v.signExtend 32) s
        ∧ WritesReg (.lhu rd rs1 imm) rd (v.setWidth 32) s)
    ∧ ((a.toNat % 4 = 0 ∧ s.isDevicePage a.toNat = true)
        ∨ (a.toNat % 4 ≠ 0 ∧ s.cfg.misalignedData = .draw) →
      ∃ v : Word, WritesReg (.lw rd rs1 imm) rd v s)
    ∧ (s.cfg.misalignedData = .fault →
      (a.toNat % 2 ≠ 0 → exec (.lh rd rs1 imm) s = .fault .misalignedData
          ∧ exec (.lhu rd rs1 imm) s = .fault .misalignedData)
      ∧ (a.toNat % 4 ≠ 0 → exec (.lw rd rs1 imm) s = .fault .misalignedData))

/-- The stores at an aligned address: the low byte, halfword or word of x[rs2] in RAM, nothing in ROM or
unmapped space, an event at a device; the word's key removed in every case; nothing else changes (R506,
R507, R508, R222 to R224, R231, R252; D1, D16, log 1 and 14; addresses modulo 2^32, D30, log 26). The form
of the event at a device is the model's own choice (D36, log 29). -/
def Obligations.StoreResults : Prop :=
  ∀ (rs1 rs2 : Reg) (imm : BitVec 12) (s : State), s.mem.wf →
    let a : Word := s.reg rs1 + imm.signExtend 32
    StoresTo (.sb rs1 rs2 imm) a 1 (s.reg rs2) s
    ∧ (a.toNat % 2 = 0 → StoresTo (.sh rs1 rs2 imm) a 2 (s.reg rs2) s)
    ∧ (a.toNat % 4 = 0 → StoresTo (.sw rs1 rs2 imm) a 4 (s.reg rs2) s)

/-- SH and SW at a misaligned address: a ModelFault under MISALIGNED_DATA = Fault; under Draw only RAM
bytes of the aligned words touched may change, and those words' keys are removed (R231, R234; D2, log 2).
That the words of a misaligned access at the top of the address space are taken modulo 2^32 is the model's
deduction (D30, log 26). That such a store records no event at a device is the model's own choice (D36,
log 29). -/
def Obligations.MisalignedStores : Prop :=
  ∀ (rs1 rs2 : Reg) (imm : BitVec 12) (s : State),
    let a : Word := s.reg rs1 + imm.signExtend 32
    (s.cfg.misalignedData = .fault →
      (a.toNat % 2 ≠ 0 → exec (.sh rs1 rs2 imm) s = .fault .misalignedData)
      ∧ (a.toNat % 4 ≠ 0 → exec (.sw rs1 rs2 imm) s = .fault .misalignedData))
    ∧ (s.cfg.misalignedData = .draw →
      (a.toNat % 2 ≠ 0 → ∃ t, exec (.sh rs1 rs2 imm) s = .next t ∧ OnlyStored s t ∧ Scrambled a 2 s t)
      ∧ (a.toNat % 4 ≠ 0 → ∃ t, exec (.sw rs1 rs2 imm) s = .next t ∧ OnlyStored s t ∧ Scrambled a 4 s t))

/-- FENCE and FENCE.I, whatever their ignored fields hold, change nothing (R520, R521, R261; D22, log
19). -/
def Obligations.FencesDoNothing : Prop :=
  (∀ (imm : BitVec 12) (rd rs1 : Reg),
      decodeWord (iType imm rs1 0b000#3 rd 0b0001111#7) = .ok .fence
      ∧ decodeWord (iType imm rs1 0b001#3 rd 0b0001111#7) = .ok .fenceI)
    ∧ ∀ s : State, exec .fence s = .next s ∧ exec .fenceI s = .next s

/-- A word stored by SW in RAM is the word fetched there next, without a fence (R260, R262). -/
def Obligations.StoreSeenByFetch : Prop :=
  ∀ (rs1 rs2 : Reg) (imm : BitVec 12) (s : State), s.mem.wf →
    let a : Word := s.reg rs1 + imm.signExtend 32
    a.toNat % 4 = 0 → s.isRamByte a.toNat = true →
    ∃ t, exec (.sw rs1 rs2 imm) s = .next t
      ∧ State.fetch { t with pc := a } = .ok (s.reg rs2, { t with pc := a })

/-! ## Atomics -/

/-- LR.W: rd takes the word at x[rs1] (0 where unmapped), and the word's key is added to the set whatever
the page; from a device the word is any value, and a misaligned address faults or draws (R540, R250; D2,
D17, D36, log 2, 14, 29, 41). -/
def Obligations.LoadReserved : Prop :=
  ∀ (rd rs1 : Reg) (s : State),
    let a := s.reg rs1
    let done := fun (v : Word) => ∃ t, exec (.lrW rd rs1) s = .next t
      ∧ t.reg rd = (if rd = 0#5 then 0#32 else v) ∧ SameRegsBut rd s t ∧ t.reg 0#5 = 0#32
      ∧ (∀ k, k ∈ t.reservations ↔ k = a.toNat / 4 ∨ k ∈ s.reservations)
      ∧ t.pc = s.pc ∧ t.nextPc = s.nextPc ∧ SameCsrs s t ∧ SameMemory s t ∧ SamePlatform s t
    (a.toNat % 4 = 0 → s.isDevicePage a.toNat = false → done (BitVec.ofNat 32 (s.valueAt a.toNat 4)))
    ∧ (a.toNat % 4 = 0 → s.isDevicePage a.toNat = true → ∃ v, done v)
    ∧ (a.toNat % 4 ≠ 0 → s.cfg.misalignedData = .draw → ∃ v, done v)
    ∧ (a.toNat % 4 ≠ 0 → s.cfg.misalignedData = .fault → exec (.lrW rd rs1) s = .fault .misalignedData)

/-- SC.W with its word reserved, at an aligned address: x[rs2] is stored, the key removed, rd unwritten,
or 0 with SC_SUCCESS_RD = Zero (R541, R252; D12, log 10 and 41); a misaligned address faults, or under
Draw only RAM bytes of the aligned words touched may change and those words' keys are removed (R231, R234;
D2, log 2). That the words of a misaligned access at the top of the address space are taken modulo 2^32 is
the model's deduction (D30, log 26). The event that an aligned store records at a device and a misaligned
one does not, is the model's own choice (D36, log 29). -/
def Obligations.StoreConditionalSucceeds : Prop :=
  ∀ (rd rs1 rs2 : Reg) (s : State), s.mem.wf →
    let a := s.reg rs1
    a.toNat / 4 ∈ s.reservations →
    let rest := fun (t : State) => exec (.scW rd rs1 rs2) s = .next t
      ∧ t.reg rd = (if s.cfg.scSuccessRd = .zero then 0#32 else s.reg rd) ∧ SameRegsBut rd s t
      ∧ t.pc = s.pc ∧ t.nextPc = s.nextPc ∧ SameCsrs s t ∧ SamePlatform s t
    (a.toNat % 4 = 0 → ∃ t, rest t ∧ StoredBytes a 4 (s.reg rs2) s t)
    ∧ (a.toNat % 4 ≠ 0 → s.cfg.misalignedData = .draw → ∃ t, rest t ∧ Scrambled a 4 s t)
    ∧ (a.toNat % 4 ≠ 0 → s.cfg.misalignedData = .fault →
        exec (.scW rd rs1 rs2) s = .fault .misalignedData)

/-- SC.W without a reservation of its word: rd takes 1 and nothing else changes, memory and the set
included (R541, R235; log 41). That this holds at a misaligned address too, where it neither stops nor
draws, is the model's deduction (log 34), since D2 names SC among the misaligned accesses. -/
def Obligations.StoreConditionalFails : Prop :=
  ∀ (rd rs1 rs2 : Reg) (s : State), (s.reg rs1).toNat / 4 ∉ s.reservations →
    WritesReg (.scW rd rs1 rs2) rd 1#32 s

/-- The nine AMOs at an aligned address in RAM, ROM or unmapped space: rd takes the old word, and the
word computed from it and the old x[rs2] is stored as a store does, its key removed (R542, R546 to R554;
D14, D16, log 12, 14, 41). -/
def Obligations.AmoResults : Prop :=
  ∀ (rd rs1 rs2 : Reg) (s : State), s.mem.wf →
    let a := s.reg rs1
    let old : Word := BitVec.ofNat 32 (s.valueAt a.toNat 4)
    let src := s.reg rs2
    a.toNat % 4 = 0 → s.isDevicePage a.toNat = false →
    Updates (.amoswapW rd rs1 rs2) rd a old src s
    ∧ Updates (.amoaddW rd rs1 rs2) rd a old (BitVec.ofNat 32 (old.toNat + src.toNat)) s
    ∧ Updates (.amoxorW rd rs1 rs2) rd a old (old ^^^ src) s
    ∧ Updates (.amoandW rd rs1 rs2) rd a old (old &&& src) s
    ∧ Updates (.amoorW rd rs1 rs2) rd a old (old ||| src) s
    ∧ Updates (.amominW rd rs1 rs2) rd a old (if old.toInt < src.toInt then old else src) s
    ∧ Updates (.amomaxW rd rs1 rs2) rd a old (if old.toInt > src.toInt then old else src) s
    ∧ Updates (.amominuW rd rs1 rs2) rd a old (if old.toNat < src.toNat then old else src) s
    ∧ Updates (.amomaxuW rd rs1 rs2) rd a old (if old.toNat > src.toNat then old else src) s

/-- The nine AMOs elsewhere: at a device the old word is any value and the new one is recorded; at a
misaligned address a ModelFault, or under Draw any old value and scrambled words (R542, R231, R234, R237;
D2, log 2 and 41). That the words of a misaligned access at the top of the address space are taken modulo
2^32 is the model's deduction (D30, log 26). The event that an aligned store records at a device and a
misaligned one does not, is the model's own choice (D36, log 29). -/
def Obligations.AmoElsewhere : Prop :=
  ∀ (rd rs1 rs2 : Reg) (s : State), s.mem.wf →
    let a := s.reg rs1
    ∀ p ∈ [(Instr.amoswapW rd rs1 rs2, fun _ src => src), (.amoaddW rd rs1 rs2, fun old src => old + src),
        (.amoxorW rd rs1 rs2, fun old src => old ^^^ src), (.amoandW rd rs1 rs2, fun old src => old &&& src),
        (.amoorW rd rs1 rs2, fun old src => old ||| src), (.amominW rd rs1 rs2, signedMin),
        (.amomaxW rd rs1 rs2, signedMax), (.amominuW rd rs1 rs2, unsignedMin),
        (.amomaxuW rd rs1 rs2, unsignedMax)],
      (a.toNat % 4 = 0 → s.isDevicePage a.toNat = true →
        ∃ old, Updates p.1 rd a old (p.2 old (s.reg rs2)) s)
      ∧ (a.toNat % 4 ≠ 0 → s.cfg.misalignedData = .fault → exec p.1 s = .fault .misalignedData)
      ∧ (a.toNat % 4 ≠ 0 → s.cfg.misalignedData = .draw →
        ∃ t, exec p.1 s = .next t ∧ SameRegsBut rd s t ∧ t.reg 0#5 = 0#32 ∧ t.pc = s.pc
          ∧ t.nextPc = s.nextPc ∧ SameCsrs s t ∧ SamePlatform s t ∧ Scrambled a 4 s t)

/-- LR.W followed by SC.W at the same aligned word of RAM, with rd apart from the address and the source
register, succeeds, whatever was reserved before, and leaves the word unreserved, so that a second SC.W
fails and changes no memory (R540, R541, R544; log 41). -/
def Obligations.LoadReservedThenConditional : Prop :=
  ∀ (rd rs1 rs2 : Reg) (s : State), s.mem.wf → rd ≠ rs1 → rd ≠ rs2 → (s.reg rs1).toNat % 4 = 0 →
    s.isRamByte (s.reg rs1).toNat = true →
    ∃ t u v, exec (.lrW rd rs1) s = .next t ∧ exec (.scW rd rs1 rs2) t = .next u
      ∧ u.valueAt (s.reg rs1).toNat 4 = (s.reg rs2).toNat
      ∧ (s.reg rs1).toNat / 4 ∉ u.reservations
      ∧ exec (.scW rd rs1 rs2) u = .next v ∧ SameMemory u v ∧ (rd ≠ 0#5 → v.reg rd = 1#32)

/-! ## Multiply and divide -/

/-- MUL and MULH: the low word of the product and the high word of the signed product (R581, R582; the
MUL formula is PRESUMED, log 22). -/
def Obligations.MultiplyResults : Prop :=
  ∀ (rd rs1 rs2 : Reg) (s : State),
    let a := s.reg rs1
    let b := s.reg rs2
    WritesReg (.mul rd rs1 rs2) rd (BitVec.ofInt 32 (a.toInt * b.toInt)) s
    ∧ WritesReg (.mulh rd rs1 rs2) rd (BitVec.ofInt 32 (a.toInt * b.toInt / 2 ^ 32)) s

/-- MULHSU and MULHU complete with a value that depends on the two operands alone, by a function the spec
leaves open (R583, R584; D13, log 11). -/
def Obligations.OpenMultiplyResults : Prop :=
  ∃ f g : Word → Word → Word, ∀ (rd rs1 rs2 : Reg) (s : State),
    WritesReg (.mulhsu rd rs1 rs2) rd (f (s.reg rs1) (s.reg rs2)) s
    ∧ WritesReg (.mulhu rd rs1 rs2) rd (g (s.reg rs1) (s.reg rs2)) s

/-- DIVU and REMU: all ones and the dividend for a zero divisor, else the natural quotient and remainder
(R586, R588). -/
def Obligations.UnsignedDivideResults : Prop :=
  ∀ (rd rs1 rs2 : Reg) (s : State),
    let a := s.reg rs1
    let b := s.reg rs2
    decodeWord (rType 0b0000001#7 rs2 rs1 0b101#3 rd 0b0110011#7) = .ok (.divu rd rs1 rs2)
    ∧ decodeWord (rType 0b0000001#7 rs2 rs1 0b111#3 rd 0b0110011#7) = .ok (.remu rd rs1 rs2)
    ∧ WritesReg (.divu rd rs1 rs2) rd
        (if b = 0#32 then 0xFFFFFFFF#32 else BitVec.ofNat 32 (a.toNat / b.toNat)) s
    ∧ WritesReg (.remu rd rs1 rs2) rd (if b = 0#32 then a else BitVec.ofNat 32 (a.toNat % b.toNat)) s

/-- DIV and REM: the table of R589 for a zero divisor and for INT_MIN / −1; else the quotient and the
remainder of the exact signed division rounded toward zero (R585, R587, R589; D25, log 22). -/
def Obligations.SignedDivideResults : Prop :=
  ∀ (rd rs1 rs2 : Reg) (s : State),
    let a := s.reg rs1
    let b := s.reg rs2
    ∃ q r : Word, WritesReg (.div rd rs1 rs2) rd q s ∧ WritesReg (.rem rd rs1 rs2) rd r s
      ∧ (b = 0#32 → q = 0xFFFFFFFF#32 ∧ r = a)
      ∧ ((a = 0x80000000#32 ∧ b = 0xFFFFFFFF#32) → q = 0x80000000#32 ∧ r = 0#32)
      ∧ ((b ≠ 0#32 ∧ ¬ (a = 0x80000000#32 ∧ b = 0xFFFFFFFF#32)) →
          a.toInt = b.toInt * q.toInt + r.toInt ∧ r.toInt.natAbs < b.toInt.natAbs
            ∧ (0 ≤ a.toInt → 0 ≤ r.toInt) ∧ (a.toInt ≤ 0 → r.toInt ≤ 0))

/-! ## Host operations and the page map -/

/-- The host's register access keeps the index-0 rule and refuses an index outside 0..31 (R102, R820; log
24). -/
def Obligations.HostRegisterAccess : Prop :=
  ∀ (s : State) (i : Nat) (v : Word),
    (i < 32 → s.getRegister i = .next (s.reg (BitVec.ofNat 5 i))
      ∧ ∃ t, s.setRegister i v = .next t ∧ t.getRegister i = .next (if i = 0 then 0#32 else v)
        ∧ OnlyReg (BitVec.ofNat 5 i) s t)
    ∧ (¬ i < 32 → s.getRegister i = .refused .registerIndex
        ∧ s.setRegister i v = .refused .registerIndex)

/-- Direct access to a buffer at any local address l: P is the least power of two that is at least the
size; l stands for l mod P, on a read and on a write; where l mod P lies outside the buffer (a size that is
no power of two) either is a ModelFault; a write is seen at the bus address and changes no other byte and
no reservation; ROM refuses it (R225, R254, R820; D18, D34, log 15, 24 and 36). -/
def Obligations.HostBufferAccess : Prop :=
  ∀ (s : State) (k l : Nat) (b : Byte) (p : Peripheral), s.Inv → s.peripherals[k]? = some p →
    let m := l % p.wrapSize
    ((∃ e, p.wrapSize = 2 ^ e) ∧ p.size ≤ p.wrapSize ∧ ∀ e, p.size ≤ 2 ^ e → p.wrapSize ≤ 2 ^ e)
    ∧ (s.bufferRead k (l + p.wrapSize) = s.bufferRead k l
      ∧ s.bufferWrite k (l + p.wrapSize) b = s.bufferWrite k l b)
    ∧ (p.kind ≠ .device →
      (m < p.size → s.bufferRead k l = .next (s.byteAt (p.base + m)))
      ∧ (¬ m < p.size → s.bufferRead k l = .fault .outsideBuffer))
    ∧ (p.kind = .rom → s.bufferWrite k l b = .refused .romBufferWrite)
    ∧ (p.kind = .ram →
      (¬ m < p.size → s.bufferWrite k l b = .fault .outsideBuffer)
      ∧ (m < p.size → ∃ t, s.bufferWrite k l b = .next t
        ∧ t.byteAt (p.base + m) = b ∧ (∀ a, a ≠ p.base + m → t.byteAt a = s.byteAt a)
        ∧ t.reservations = s.reservations ∧ SameRegs s t ∧ t.pc = s.pc ∧ SameCsrs s t))

/-- Attachment before the first step: where R220's conditions hold (and the kind is admitted), it succeeds
if the base is a multiple of P and is refused if it is not, by the launch premise BASES_ALIGNED (R226);
where they do not hold, nothing changes. On success exactly the request's pages belong to the new
peripheral and its image is its contents, the rest 0. After the first step it is refused (R220, R141, R201,
R801; D18, D20, D31, D36, log 15). Three clauses are the model's own choice: the 0 after a short image, where
D20 gives no default (log 17); that a device which is not admitted is answered as R220's rejections are (log
27); and instret ≠ 0 as the test of 'after the first step' (log 28). -/
def Obligations.AttachRules : Prop :=
  ∀ (s : State) (r : AttachRequest), s.Inv →
    let accepted := r.base.toNat % 1024 = 0 ∧ r.pages ≠ 0 ∧ r.base.toNat + 1024 * r.pages ≤ 2 ^ 32
      ∧ (∀ a, r.base.toNat ≤ a → a < r.base.toNat + 1024 * r.pages → s.ownerAt a = none)
      ∧ (r.kind = .device → s.cfg.devicesAdmitted = true)
    let aligned := r.base.toNat % r.peripheral.wrapSize = 0
    (s.instret ≠ 0#64 → s.attach r = .refused .attachAfterFirstStep)
    ∧ (s.instret = 0#64 → ¬ accepted → s.attach r = .next (false, s))
    ∧ (s.instret = 0#64 → accepted → ¬ aligned → s.attach r = .refused .basesNotAligned)
    ∧ (s.instret = 0#64 → accepted → aligned → ∃ t, s.attach r = .next (true, t)
        ∧ (∀ a, r.base.toNat ≤ a → a < r.base.toNat + 1024 * r.pages →
            t.ownerAt a = some r.peripheral
            ∧ (r.kind ≠ .device → t.byteAt a = r.image.getD (a - r.base.toNat) 0#8))
        ∧ (∀ a, ¬ (r.base.toNat ≤ a ∧ a < r.base.toNat + 1024 * r.pages) →
            t.ownerAt a = s.ownerAt a ∧ t.byteAt a = s.byteAt a)
        ∧ SameRegs s t ∧ t.pc = s.pc ∧ SameCsrs s t ∧ t.reservations = s.reservations)

/-- Through the bus the local-address wrap is never seen: an aligned access in a mapped page lies in that
page and inside its peripheral, and the mask leaves its local address as it is (R228, R225); and, every
base being a multiple of its P, the mask of the bus address itself gives that same local address (R226,
D18, log 15). -/
def Obligations.BusNeverWraps : Prop :=
  ∀ (s : State) (a n : Nat) (p : Peripheral), s.Inv → n ∈ [1, 2, 4] → a % n = 0 →
    s.ownerAt a = some p →
    pageOf (a + n - 1) = pageOf a ∧ p.base ≤ a ∧ a - p.base + n ≤ p.size
      ∧ (a - p.base) &&& (p.wrapSize - 1) = a - p.base
      ∧ a &&& (p.wrapSize - 1) = a - p.base

/-! ## Pseudo-instructions -/

/-- `li` leaves the value in rd, in one instruction or two, `la` the address of its symbol, and `call`, from
an even pc to an even target, jumps there with the return address in x1; `li` and `la` change no other
register (R341, general knowledge G25; log 38). -/
def Obligations.PseudoInstructions : Prop :=
  ∀ (rd : Reg) (v : Word) (s : State), rd ≠ 0#5 →
    (∃ t, execList (pseudoLi rd v) s = .next t ∧ t.reg rd = v ∧ SameRegsBut rd s t ∧ SameMemory s t)
    ∧ (∃ t, execList (pseudoLa rd v) s = .next t ∧ t.reg rd = s.pc + v ∧ SameRegsBut rd s t
        ∧ t.pc = s.pc + 8#32)
    ∧ (v.toNat % 2 = 0 → s.pc.toNat % 2 = 0 →
        ∃ t, execList (pseudoCall v) s = .next t ∧ t.pc = s.pc + v ∧ t.reg 1#5 = s.pc + 8#32)
end

