-- ==== Sys2Proof/Laws/Encoding.lean ====
section
/-! SUPPORT. The fields of a word in each format (30_encoding.md R301): what the decoder reads from a
word that the encoder wrote. Every word is its number, and every field is a quotient and a remainder
of it. -/

namespace Sys2Proof

theorem toNat_append_eq {m n : Nat} (x : BitVec m) (y : BitVec n) :
    (x ++ y).toNat = x.toNat * 2 ^ n + y.toNat := by
  rw [BitVec.toNat_append, Nat.shiftLeft_eq, ← Nat.shiftLeft_eq, Nat.shiftLeft_add_eq_or_of_lt y.isLt]

theorem toNat_extract {m : Nat} (x : BitVec m) (k n : Nat) :
    (x.extractLsb' k n).toNat = x.toNat / 2 ^ k % 2 ^ n := by
  rw [BitVec.extractLsb'_toNat, Nat.shiftRight_eq_div_pow]

theorem extract_extract {m : Nat} (x : BitVec m) (k n j l : Nat) (h : j + l ≤ n) :
    (x.extractLsb' k n).extractLsb' j l = x.extractLsb' (k + j) l := by
  apply BitVec.eq_of_getLsbD_eq
  intro i hi
  simp only [BitVec.getLsbD_extractLsb']
  have : j + i < n := by omega
  simp [this, hi, Nat.add_assoc]

theorem extract_append_low {m n : Nat} (x : BitVec m) (y : BitVec n) (j l : Nat) (h : j + l ≤ n) :
    (x ++ y).extractLsb' j l = y.extractLsb' j l := by
  apply BitVec.eq_of_getLsbD_eq
  intro i hi
  have : j + i < n := by omega
  simp [BitVec.getLsbD_append, this, hi]

theorem extract_append_high {m n : Nat} (x : BitVec m) (y : BitVec n) (j l : Nat) (h : n ≤ j) :
    (x ++ y).extractLsb' j l = x.extractLsb' (j - n) l := by
  apply BitVec.eq_of_getLsbD_eq
  intro i hi
  have h1 : ¬ j + i < n := by omega
  have h2 : j + i - n = j - n + i := by omega
  simp [BitVec.getLsbD_append, h1, h2, hi]

theorem extract_all {m : Nat} (x : BitVec m) : x.extractLsb' 0 m = x := by simp

/-- The parts of a branch offset put together again. -/
theorem joinB (imm : BitVec 13) (hb : imm.toNat % 2 = 0) :
    imm.extractLsb' 12 1 ++ imm.extractLsb' 11 1 ++ imm.extractLsb' 5 6 ++ imm.extractLsb' 1 4 ++ 0#1
      = imm := by
  have := imm.isLt
  apply BitVec.eq_of_toNat_eq
  simp only [toNat_append_eq, toNat_extract, Nat.reducePow, BitVec.toNat_ofNat, Nat.reduceMod]
  omega

/-- The parts of a jump offset put together again. -/
theorem joinJ (imm : BitVec 21) (hb : imm.toNat % 2 = 0) :
    imm.extractLsb' 20 1 ++ imm.extractLsb' 12 8 ++ imm.extractLsb' 11 1 ++ imm.extractLsb' 1 10 ++ 0#1
      = imm := by
  have := imm.isLt
  apply BitVec.eq_of_toNat_eq
  simp only [toNat_append_eq, toNat_extract, Nat.reducePow, BitVec.toNat_ofNat, Nat.reduceMod]
  omega

/-! ## Each format as a number -/

theorem toNat_rType (f7 : BitVec 7) (rs2 rs1 : Reg) (f3 : BitVec 3) (rd : Reg) (op : BitVec 7) :
    (rType f7 rs2 rs1 f3 rd op).toNat = f7.toNat * 2 ^ 25 + rs2.toNat * 2 ^ 20 + rs1.toNat * 2 ^ 15
      + f3.toNat * 2 ^ 12 + rd.toNat * 2 ^ 7 + op.toNat := by
  show (f7 ++ rs2 ++ rs1 ++ f3 ++ rd ++ op).toNat = _
  simp only [toNat_append_eq, Nat.reducePow]
  omega

theorem toNat_iType (imm : BitVec 12) (rs1 : Reg) (f3 : BitVec 3) (rd : Reg) (op : BitVec 7) :
    (iType imm rs1 f3 rd op).toNat = imm.toNat * 2 ^ 20 + rs1.toNat * 2 ^ 15 + f3.toNat * 2 ^ 12
      + rd.toNat * 2 ^ 7 + op.toNat := by
  show (imm ++ rs1 ++ f3 ++ rd ++ op).toNat = _
  simp only [toNat_append_eq, Nat.reducePow]
  omega

theorem toNat_sType (imm : BitVec 12) (rs2 rs1 : Reg) (f3 : BitVec 3) (op : BitVec 7) :
    (sType imm rs2 rs1 f3 op).toNat = imm.toNat / 32 * 2 ^ 25 + rs2.toNat * 2 ^ 20
      + rs1.toNat * 2 ^ 15 + f3.toNat * 2 ^ 12 + imm.toNat % 32 * 2 ^ 7 + op.toNat := by
  show (imm.extractLsb' 5 7 ++ rs2 ++ rs1 ++ f3 ++ imm.extractLsb' 0 5 ++ op).toNat = _
  simp only [toNat_append_eq, toNat_extract, Nat.reducePow]
  omega

theorem toNat_bType (imm : BitVec 13) (rs2 rs1 : Reg) (f3 : BitVec 3) (op : BitVec 7) :
    (bType imm rs2 rs1 f3 op).toNat = imm.toNat / 4096 * 2 ^ 31 + imm.toNat / 32 % 64 * 2 ^ 25
      + rs2.toNat * 2 ^ 20 + rs1.toNat * 2 ^ 15 + f3.toNat * 2 ^ 12 + imm.toNat / 2 % 16 * 2 ^ 8
      + imm.toNat / 2048 % 2 * 2 ^ 7 + op.toNat := by
  show (imm.extractLsb' 12 1 ++ imm.extractLsb' 5 6 ++ rs2 ++ rs1 ++ f3 ++
    imm.extractLsb' 1 4 ++ imm.extractLsb' 11 1 ++ op).toNat = _
  simp only [toNat_append_eq, toNat_extract, Nat.reducePow]
  omega

theorem toNat_uType (imm : Word) (rd : Reg) (op : BitVec 7) :
    (uType imm rd op).toNat = imm.toNat / 4096 * 2 ^ 12 + rd.toNat * 2 ^ 7 + op.toNat := by
  show (imm.extractLsb' 12 20 ++ rd ++ op).toNat = _
  simp only [toNat_append_eq, toNat_extract, Nat.reducePow]
  omega

theorem toNat_jType (imm : BitVec 21) (rd : Reg) (op : BitVec 7) :
    (jType imm rd op).toNat = imm.toNat / 2 ^ 20 * 2 ^ 31 + imm.toNat / 2 % 1024 * 2 ^ 21
      + imm.toNat / 2048 % 2 * 2 ^ 20 + imm.toNat / 4096 % 256 * 2 ^ 12 + rd.toNat * 2 ^ 7
      + op.toNat := by
  show (imm.extractLsb' 20 1 ++ imm.extractLsb' 1 10 ++ imm.extractLsb' 11 1 ++
    imm.extractLsb' 12 8 ++ rd ++ op).toNat = _
  simp only [toNat_append_eq, toNat_extract, Nat.reducePow]
  omega

/-! ## The fields read back -/

/-- The R format, the shift-immediate and AMO forms among it. -/
theorem rType_fields (f7 : BitVec 7) (rs2 rs1 : Reg) (f3 : BitVec 3) (rd : Reg) (op : BitVec 7)
    (tag : BitVec 5) (hop : op = tag ++ 0b11#2) :
    let w := rType f7 rs2 rs1 f3 rd op
    w.extractLsb' 0 2 = 0b11#2 ∧ tagOf w = tag ∧ rdOf w = rd ∧ funct3Of w = f3 ∧ rs1Of w = rs1
      ∧ rs2Of w = rs2 ∧ funct7Of w = f7 ∧ funct5Of w = f7.extractLsb' 2 5 := by
  subst hop
  refine ⟨?_, ?_, ?_, ?_, ?_, ?_, ?_, ?_⟩ <;>
  · apply BitVec.eq_of_toNat_eq
    simp only [tagOf, rdOf, funct3Of, rs1Of, rs2Of, funct7Of, funct5Of, toNat_extract, toNat_rType,
      toNat_append_eq, BitVec.toNat_ofNat, Nat.reducePow, Nat.reduceMod]
    omega

/-- The I format; `funct7Of` of it is the upper part of the immediate. -/
theorem iType_fields (imm : BitVec 12) (rs1 : Reg) (f3 : BitVec 3) (rd : Reg) (op : BitVec 7)
    (tag : BitVec 5) (hop : op = tag ++ 0b11#2) :
    let w := iType imm rs1 f3 rd op
    w.extractLsb' 0 2 = 0b11#2 ∧ tagOf w = tag ∧ rdOf w = rd ∧ funct3Of w = f3 ∧ rs1Of w = rs1
      ∧ immIOf w = imm ∧ funct12Of w = imm := by
  subst hop
  refine ⟨?_, ?_, ?_, ?_, ?_, ?_, ?_⟩ <;>
  · apply BitVec.eq_of_toNat_eq
    simp only [tagOf, rdOf, funct3Of, rs1Of, immIOf, funct12Of, toNat_extract, toNat_iType,
      toNat_append_eq, BitVec.toNat_ofNat, Nat.reducePow, Nat.reduceMod]
    omega

/-- An S word is an R word whose outer fields hold the two parts of the immediate. -/
theorem sType_eq_rType (imm : BitVec 12) (rs2 rs1 : Reg) (f3 : BitVec 3) (op : BitVec 7) :
    sType imm rs2 rs1 f3 op = rType (imm.extractLsb' 5 7) rs2 rs1 f3 (imm.extractLsb' 0 5) op := rfl

theorem immSOf_eq (w : Word) : immSOf w = funct7Of w ++ rdOf w := rfl

/-- The S format. -/
theorem sType_fields (imm : BitVec 12) (rs2 rs1 : Reg) (f3 : BitVec 3) (op : BitVec 7)
    (tag : BitVec 5) (hop : op = tag ++ 0b11#2) :
    let w := sType imm rs2 rs1 f3 op
    w.extractLsb' 0 2 = 0b11#2 ∧ tagOf w = tag ∧ funct3Of w = f3 ∧ rs1Of w = rs1 ∧ rs2Of w = rs2
      ∧ immSOf w = imm := by
  subst hop
  obtain ⟨h0, ht, hd, h3, h1, h2, h7, -⟩ :=
    rType_fields (imm.extractLsb' 5 7) rs2 rs1 f3 (imm.extractLsb' 0 5) _ tag rfl
  refine ⟨h0, ht, h3, h1, h2, ?_⟩
  rw [sType_eq_rType, immSOf_eq, h7, hd]
  apply BitVec.eq_of_toNat_eq
  simp only [toNat_append_eq, toNat_extract, Nat.reducePow]
  omega

/-- A B word is an R word whose outer fields hold the four parts of the offset. -/
theorem bType_eq_rType (imm : BitVec 13) (rs2 rs1 : Reg) (f3 : BitVec 3) (op : BitVec 7) :
    bType imm rs2 rs1 f3 op = rType (imm.extractLsb' 12 1 ++ imm.extractLsb' 5 6) rs2 rs1 f3
      (imm.extractLsb' 1 4 ++ imm.extractLsb' 11 1) op := by
  apply BitVec.eq_of_toNat_eq
  simp only [toNat_bType, toNat_rType, toNat_append_eq, toNat_extract, Nat.reducePow]
  omega

theorem immBOf_eq (w : Word) : immBOf w = (funct7Of w).extractLsb' 6 1 ++ (rdOf w).extractLsb' 0 1
    ++ (funct7Of w).extractLsb' 0 6 ++ (rdOf w).extractLsb' 1 4 ++ 0#1 := by
  unfold funct7Of rdOf
  rw [extract_extract _ _ _ _ _ (by decide), extract_extract _ _ _ _ _ (by decide),
    extract_extract _ _ _ _ _ (by decide), extract_extract _ _ _ _ _ (by decide)]
  rfl

/-- The B format, for an offset with bit 0 clear. -/
theorem bType_fields (imm : BitVec 13) (rs2 rs1 : Reg) (f3 : BitVec 3) (op : BitVec 7)
    (tag : BitVec 5) (hop : op = tag ++ 0b11#2)
    (h : branchOffsetOk imm = true) :
    let w := bType imm rs2 rs1 f3 op
    w.extractLsb' 0 2 = 0b11#2 ∧ tagOf w = tag ∧ funct3Of w = f3 ∧ rs1Of w = rs1 ∧ rs2Of w = rs2
      ∧ immBOf w = imm := by
  subst hop
  have hb : imm.toNat % 2 = 0 := by
    have := congrArg BitVec.toNat (eq_of_beq h)
    simpa [toNat_extract] using this
  obtain ⟨h0, ht, hd, h3, h1, h2, h7, -⟩ := rType_fields (imm.extractLsb' 12 1 ++ imm.extractLsb' 5 6)
    rs2 rs1 f3 (imm.extractLsb' 1 4 ++ imm.extractLsb' 11 1) _ tag rfl
  rw [bType_eq_rType]
  refine ⟨h0, ht, h3, h1, h2, ?_⟩
  rw [immBOf_eq, h7, hd, extract_append_high _ _ 6 1 (by decide), extract_append_low _ _ 0 1 (by decide),
    extract_append_low _ _ 0 6 (by decide), extract_append_high _ _ 1 4 (by decide), extract_all,
    extract_all, extract_all, extract_all]
  exact joinB imm hb

/-- The 20 bits that a U or J word holds above rd. -/
def upperField (w : Word) : BitVec 20 := w.extractLsb' 12 20

theorem immJOf_eq (w : Word) : immJOf w = (upperField w).extractLsb' 19 1
    ++ (upperField w).extractLsb' 0 8 ++ (upperField w).extractLsb' 8 1
    ++ (upperField w).extractLsb' 9 10 ++ 0#1 := by
  unfold upperField
  rw [extract_extract _ _ _ _ _ (by decide), extract_extract _ _ _ _ _ (by decide),
    extract_extract _ _ _ _ _ (by decide), extract_extract _ _ _ _ _ (by decide)]
  rfl

/-- The U format, for an immediate with its low 12 bits clear. -/
theorem uType_fields (imm : Word) (rd : Reg) (op : BitVec 7)
    (tag : BitVec 5) (hop : op = tag ++ 0b11#2) (h : upperImmediateOk imm = true) :
    let w := uType imm rd op
    w.extractLsb' 0 2 = 0b11#2 ∧ tagOf w = tag ∧ rdOf w = rd ∧ immUOf w = imm := by
  subst hop
  have h0 : imm.toNat % 4096 = 0 := by
    have := congrArg BitVec.toNat (eq_of_beq h)
    simpa [toNat_extract] using this
  refine ⟨?_, ?_, ?_, ?_⟩ <;>
  · apply BitVec.eq_of_toNat_eq
    simp only [tagOf, rdOf, immUOf, toNat_extract, toNat_uType, toNat_append_eq, BitVec.toNat_ofNat, Nat.reducePow, Nat.reduceMod]
    omega

/-- The J format, for an offset with bit 0 clear. -/
theorem jType_fields (imm : BitVec 21) (rd : Reg) (op : BitVec 7)
    (tag : BitVec 5) (hop : op = tag ++ 0b11#2) (h : jumpOffsetOk imm = true) :
    let w := jType imm rd op
    w.extractLsb' 0 2 = 0b11#2 ∧ tagOf w = tag ∧ rdOf w = rd ∧ immJOf w = imm := by
  subst hop
  have hb : imm.toNat % 2 = 0 := by
    have := congrArg BitVec.toNat (eq_of_beq h)
    simpa [toNat_extract] using this
  have hu : upperField (jType imm rd (tag ++ 0b11#2)) = imm.extractLsb' 20 1 ++ imm.extractLsb' 1 10
      ++ imm.extractLsb' 11 1 ++ imm.extractLsb' 12 8 := by
    apply BitVec.eq_of_toNat_eq
    simp only [upperField, toNat_append_eq, toNat_extract, toNat_jType, Nat.reducePow,
      BitVec.toNat_ofNat]
    omega
  refine ⟨?_, ?_, ?_, ?_⟩
  case refine_4 =>
    rw [immJOf_eq, hu, extract_append_high _ _ 19 1 (by decide),
      extract_append_high _ _ _ 1 (by decide), extract_append_high _ _ _ 1 (by decide),
      extract_append_low _ _ 0 8 (by decide), extract_append_high _ _ 8 1 (by decide),
      extract_append_low _ _ _ 1 (by decide), extract_append_high _ _ 9 10 (by decide),
      extract_append_high _ _ _ 10 (by decide), extract_append_low _ _ _ 10 (by decide)]
    simp only [extract_all, Nat.reduceSub]
    exact joinJ imm hb
  all_goals
    apply BitVec.eq_of_toNat_eq
    simp only [tagOf, rdOf, toNat_extract, toNat_jType, toNat_append_eq, BitVec.toNat_ofNat,
      Nat.reducePow, Nat.reduceMod]
    omega

end Sys2Proof
end

