-- ==== Sys2Proof/Laws/State.lean ====
section
/-! SUPPORT. The state record: one lemma per field per update, so that no later proof unfolds a record
update, and the register laws behind them. -/

namespace Sys2Proof.Machine

/-! ## Registers (R101) -/

@[simp] theorem reg_zero (s : State) : s.reg 0#5 = 0#32 := rfl

@[simp] theorem setReg_zero (s : State) (v : Word) : s.setReg 0#5 v = s := rfl

theorem reg_of_regs_eq (s t : State) (h : t.regs = s.regs) (r : Reg) : t.reg r = s.reg r := by
  simp only [State.reg, h]

theorem reg_setReg_same (s : State) (r : Reg) (v : Word) (h : r ≠ 0#5) : (s.setReg r v).reg r = v := by
  simp [State.reg, State.setReg, h]

theorem reg_setReg_ne (s : State) (r q : Reg) (v : Word) (h : q ≠ r) :
    (s.setReg r v).reg q = s.reg q := by
  have hn : r.toNat ≠ q.toNat := fun e => h (BitVec.eq_of_toNat_eq e.symm)
  unfold State.setReg
  split
  · rfl
  · simp only [State.reg]
    split
    · rfl
    · exact Vector.getElem_set_ne _ _ hn

/-- What a register reads as after a register write, in every case. -/
theorem reg_setReg (s : State) (r q : Reg) (v : Word) :
    (s.setReg r v).reg q = if q = r ∧ r ≠ 0#5 then v else s.reg q := by
  by_cases hq : q = r
  · subst hq
    by_cases h0 : q = 0#5
    · subst h0; simp
    · simp [reg_setReg_same, h0]
  · simp [reg_setReg_ne, hq]

theorem setReg_regs_zero (s : State) (r : Reg) (v : Word) : (s.setReg r v).regs[0] = s.regs[0] := by
  unfold State.setReg
  split
  · rfl
  · rename_i h
    have : r.toNat ≠ 0 := fun e => h (BitVec.eq_of_toNat_eq e)
    exact Vector.getElem_set_ne r.isLt (by omega) this

/-! ## One lemma per field per update -/

@[simp] theorem setReg_pc (s : State) (r : Reg) (v : Word) : (s.setReg r v).pc = s.pc := by unfold State.setReg; split <;> rfl
@[simp] theorem setReg_nextPc (s : State) (r : Reg) (v : Word) : (s.setReg r v).nextPc = s.nextPc := by unfold State.setReg; split <;> rfl
@[simp] theorem setReg_ie (s : State) (r : Reg) (v : Word) : (s.setReg r v).ie = s.ie := by unfold State.setReg; split <;> rfl
@[simp] theorem setReg_ie1 (s : State) (r : Reg) (v : Word) : (s.setReg r v).ie1 = s.ie1 := by unfold State.setReg; split <;> rfl
@[simp] theorem setReg_mscratch (s : State) (r : Reg) (v : Word) : (s.setReg r v).mscratch = s.mscratch := by unfold State.setReg; split <;> rfl
@[simp] theorem setReg_mepc (s : State) (r : Reg) (v : Word) : (s.setReg r v).mepc = s.mepc := by unfold State.setReg; split <;> rfl
@[simp] theorem setReg_mcause (s : State) (r : Reg) (v : Word) : (s.setReg r v).mcause = s.mcause := by unfold State.setReg; split <;> rfl
@[simp] theorem setReg_mbadaddr (s : State) (r : Reg) (v : Word) : (s.setReg r v).mbadaddr = s.mbadaddr := by unfold State.setReg; split <;> rfl
@[simp] theorem setReg_instret (s : State) (r : Reg) (v : Word) : (s.setReg r v).instret = s.instret := by unfold State.setReg; split <;> rfl
@[simp] theorem setReg_reservations (s : State) (r : Reg) (v : Word) : (s.setReg r v).reservations = s.reservations := by unfold State.setReg; split <;> rfl
@[simp] theorem setReg_peripherals (s : State) (r : Reg) (v : Word) : (s.setReg r v).peripherals = s.peripherals := by unfold State.setReg; split <;> rfl
@[simp] theorem setReg_mem (s : State) (r : Reg) (v : Word) : (s.setReg r v).mem = s.mem := by unfold State.setReg; split <;> rfl
@[simp] theorem setReg_deviceWrites (s : State) (r : Reg) (v : Word) : (s.setReg r v).deviceWrites = s.deviceWrites := by unfold State.setReg; split <;> rfl
@[simp] theorem setReg_draws (s : State) (r : Reg) (v : Word) : (s.setReg r v).draws = s.draws := by unfold State.setReg; split <;> rfl
@[simp] theorem setReg_cfg (s : State) (r : Reg) (v : Word) : (s.setReg r v).cfg = s.cfg := by unfold State.setReg; split <;> rfl
@[simp] theorem setReg_ownerAt (s : State) (r : Reg) (v : Word) (x : Nat) : (s.setReg r v).ownerAt x = s.ownerAt x := by
  simp [State.ownerAt]
@[simp] theorem setReg_byteAt (s : State) (r : Reg) (v : Word) (x : Nat) : (s.setReg r v).byteAt x = s.byteAt x := by
  simp [State.byteAt]

@[simp] theorem setNextPc_regs (s : State) (t : Word) : (s.setNextPc t).regs = s.regs := rfl
@[simp] theorem setNextPc_pc (s : State) (t : Word) : (s.setNextPc t).pc = s.pc := rfl
@[simp] theorem setNextPc_nextPc (s : State) (t : Word) : (s.setNextPc t).nextPc = t := rfl
@[simp] theorem setNextPc_ie (s : State) (t : Word) : (s.setNextPc t).ie = s.ie := rfl
@[simp] theorem setNextPc_ie1 (s : State) (t : Word) : (s.setNextPc t).ie1 = s.ie1 := rfl
@[simp] theorem setNextPc_mscratch (s : State) (t : Word) : (s.setNextPc t).mscratch = s.mscratch := rfl
@[simp] theorem setNextPc_mepc (s : State) (t : Word) : (s.setNextPc t).mepc = s.mepc := rfl
@[simp] theorem setNextPc_mcause (s : State) (t : Word) : (s.setNextPc t).mcause = s.mcause := rfl
@[simp] theorem setNextPc_mbadaddr (s : State) (t : Word) : (s.setNextPc t).mbadaddr = s.mbadaddr := rfl
@[simp] theorem setNextPc_instret (s : State) (t : Word) : (s.setNextPc t).instret = s.instret := rfl
@[simp] theorem setNextPc_reservations (s : State) (t : Word) : (s.setNextPc t).reservations = s.reservations := rfl
@[simp] theorem setNextPc_peripherals (s : State) (t : Word) : (s.setNextPc t).peripherals = s.peripherals := rfl
@[simp] theorem setNextPc_mem (s : State) (t : Word) : (s.setNextPc t).mem = s.mem := rfl
@[simp] theorem setNextPc_deviceWrites (s : State) (t : Word) : (s.setNextPc t).deviceWrites = s.deviceWrites := rfl
@[simp] theorem setNextPc_draws (s : State) (t : Word) : (s.setNextPc t).draws = s.draws := rfl
@[simp] theorem setNextPc_cfg (s : State) (t : Word) : (s.setNextPc t).cfg = s.cfg := rfl
@[simp] theorem setNextPc_reg (s : State) (t : Word) (q : Reg) : (s.setNextPc t).reg q = s.reg q :=
  reg_of_regs_eq _ _ (by simp) q
@[simp] theorem setNextPc_ownerAt (s : State) (t : Word) (x : Nat) : (s.setNextPc t).ownerAt x = s.ownerAt x := by
  simp [State.ownerAt]
@[simp] theorem setNextPc_byteAt (s : State) (t : Word) (x : Nat) : (s.setNextPc t).byteAt x = s.byteAt x := by
  simp [State.byteAt]

@[simp] theorem useDraw_regs (s : State) : (s.useDraw).regs = s.regs := rfl
@[simp] theorem useDraw_pc (s : State) : (s.useDraw).pc = s.pc := rfl
@[simp] theorem useDraw_nextPc (s : State) : (s.useDraw).nextPc = s.nextPc := rfl
@[simp] theorem useDraw_ie (s : State) : (s.useDraw).ie = s.ie := rfl
@[simp] theorem useDraw_ie1 (s : State) : (s.useDraw).ie1 = s.ie1 := rfl
@[simp] theorem useDraw_mscratch (s : State) : (s.useDraw).mscratch = s.mscratch := rfl
@[simp] theorem useDraw_mepc (s : State) : (s.useDraw).mepc = s.mepc := rfl
@[simp] theorem useDraw_mcause (s : State) : (s.useDraw).mcause = s.mcause := rfl
@[simp] theorem useDraw_mbadaddr (s : State) : (s.useDraw).mbadaddr = s.mbadaddr := rfl
@[simp] theorem useDraw_instret (s : State) : (s.useDraw).instret = s.instret := rfl
@[simp] theorem useDraw_reservations (s : State) : (s.useDraw).reservations = s.reservations := rfl
@[simp] theorem useDraw_peripherals (s : State) : (s.useDraw).peripherals = s.peripherals := rfl
@[simp] theorem useDraw_mem (s : State) : (s.useDraw).mem = s.mem := rfl
@[simp] theorem useDraw_deviceWrites (s : State) : (s.useDraw).deviceWrites = s.deviceWrites := rfl
@[simp] theorem useDraw_draws (s : State) : (s.useDraw).draws = s.draws + 1 := rfl
@[simp] theorem useDraw_cfg (s : State) : (s.useDraw).cfg = s.cfg := rfl
@[simp] theorem useDraw_reg (s : State) (q : Reg) : (s.useDraw).reg q = s.reg q :=
  reg_of_regs_eq _ _ (by simp) q
@[simp] theorem useDraw_ownerAt (s : State) (x : Nat) : (s.useDraw).ownerAt x = s.ownerAt x := by
  simp [State.ownerAt]
@[simp] theorem useDraw_byteAt (s : State) (x : Nat) : (s.useDraw).byteAt x = s.byteAt x := by
  simp [State.byteAt]

@[simp] theorem clearAllReservations_regs (s : State) : (s.clearAllReservations).regs = s.regs := rfl
@[simp] theorem clearAllReservations_pc (s : State) : (s.clearAllReservations).pc = s.pc := rfl
@[simp] theorem clearAllReservations_nextPc (s : State) : (s.clearAllReservations).nextPc = s.nextPc := rfl
@[simp] theorem clearAllReservations_ie (s : State) : (s.clearAllReservations).ie = s.ie := rfl
@[simp] theorem clearAllReservations_ie1 (s : State) : (s.clearAllReservations).ie1 = s.ie1 := rfl
@[simp] theorem clearAllReservations_mscratch (s : State) : (s.clearAllReservations).mscratch = s.mscratch := rfl
@[simp] theorem clearAllReservations_mepc (s : State) : (s.clearAllReservations).mepc = s.mepc := rfl
@[simp] theorem clearAllReservations_mcause (s : State) : (s.clearAllReservations).mcause = s.mcause := rfl
@[simp] theorem clearAllReservations_mbadaddr (s : State) : (s.clearAllReservations).mbadaddr = s.mbadaddr := rfl
@[simp] theorem clearAllReservations_instret (s : State) : (s.clearAllReservations).instret = s.instret := rfl
@[simp] theorem clearAllReservations_reservations (s : State) : (s.clearAllReservations).reservations = [] := rfl
@[simp] theorem clearAllReservations_peripherals (s : State) : (s.clearAllReservations).peripherals = s.peripherals := rfl
@[simp] theorem clearAllReservations_mem (s : State) : (s.clearAllReservations).mem = s.mem := rfl
@[simp] theorem clearAllReservations_deviceWrites (s : State) : (s.clearAllReservations).deviceWrites = s.deviceWrites := rfl
@[simp] theorem clearAllReservations_draws (s : State) : (s.clearAllReservations).draws = s.draws := rfl
@[simp] theorem clearAllReservations_cfg (s : State) : (s.clearAllReservations).cfg = s.cfg := rfl
@[simp] theorem clearAllReservations_reg (s : State) (q : Reg) : (s.clearAllReservations).reg q = s.reg q :=
  reg_of_regs_eq _ _ (by simp) q
@[simp] theorem clearAllReservations_ownerAt (s : State) (x : Nat) : (s.clearAllReservations).ownerAt x = s.ownerAt x := by
  simp [State.ownerAt]
@[simp] theorem clearAllReservations_byteAt (s : State) (x : Nat) : (s.clearAllReservations).byteAt x = s.byteAt x := by
  simp [State.byteAt]

@[simp] theorem saveTrap_regs (s : State) (c : TrapCause) : (s.saveTrap c).regs = s.regs := rfl
@[simp] theorem saveTrap_pc (s : State) (c : TrapCause) : (s.saveTrap c).pc = s.pc := rfl
@[simp] theorem saveTrap_nextPc (s : State) (c : TrapCause) : (s.saveTrap c).nextPc = s.nextPc := rfl
@[simp] theorem saveTrap_ie (s : State) (c : TrapCause) : (s.saveTrap c).ie = false := rfl
@[simp] theorem saveTrap_ie1 (s : State) (c : TrapCause) : (s.saveTrap c).ie1 = s.ie := rfl
@[simp] theorem saveTrap_mscratch (s : State) (c : TrapCause) : (s.saveTrap c).mscratch = s.mscratch := rfl
@[simp] theorem saveTrap_mepc (s : State) (c : TrapCause) : (s.saveTrap c).mepc = s.pc := rfl
@[simp] theorem saveTrap_mcause (s : State) (c : TrapCause) : (s.saveTrap c).mcause = causeNumber c := rfl
@[simp] theorem saveTrap_mbadaddr (s : State) (c : TrapCause) : (s.saveTrap c).mbadaddr = s.mbadaddr := rfl
@[simp] theorem saveTrap_instret (s : State) (c : TrapCause) : (s.saveTrap c).instret = s.instret := rfl
@[simp] theorem saveTrap_reservations (s : State) (c : TrapCause) : (s.saveTrap c).reservations = [] := rfl
@[simp] theorem saveTrap_peripherals (s : State) (c : TrapCause) : (s.saveTrap c).peripherals = s.peripherals := rfl
@[simp] theorem saveTrap_mem (s : State) (c : TrapCause) : (s.saveTrap c).mem = s.mem := rfl
@[simp] theorem saveTrap_deviceWrites (s : State) (c : TrapCause) : (s.saveTrap c).deviceWrites = s.deviceWrites := rfl
@[simp] theorem saveTrap_draws (s : State) (c : TrapCause) : (s.saveTrap c).draws = s.draws := rfl
@[simp] theorem saveTrap_cfg (s : State) (c : TrapCause) : (s.saveTrap c).cfg = s.cfg := rfl
@[simp] theorem saveTrap_reg (s : State) (c : TrapCause) (q : Reg) : (s.saveTrap c).reg q = s.reg q :=
  reg_of_regs_eq _ _ (by simp) q
@[simp] theorem saveTrap_ownerAt (s : State) (c : TrapCause) (x : Nat) : (s.saveTrap c).ownerAt x = s.ownerAt x := by
  simp [State.ownerAt]
@[simp] theorem saveTrap_byteAt (s : State) (c : TrapCause) (x : Nat) : (s.saveTrap c).byteAt x = s.byteAt x := by
  simp [State.byteAt]

@[simp] theorem raiseTrap_regs (s : State) (c : TrapCause) : (s.raiseTrap c).regs = s.regs := rfl
@[simp] theorem raiseTrap_pc (s : State) (c : TrapCause) : (s.raiseTrap c).pc = s.pc := rfl
@[simp] theorem raiseTrap_nextPc (s : State) (c : TrapCause) : (s.raiseTrap c).nextPc = trapVector := rfl
@[simp] theorem raiseTrap_ie (s : State) (c : TrapCause) : (s.raiseTrap c).ie = false := rfl
@[simp] theorem raiseTrap_ie1 (s : State) (c : TrapCause) : (s.raiseTrap c).ie1 = s.ie := rfl
@[simp] theorem raiseTrap_mscratch (s : State) (c : TrapCause) : (s.raiseTrap c).mscratch = s.mscratch := rfl
@[simp] theorem raiseTrap_mepc (s : State) (c : TrapCause) : (s.raiseTrap c).mepc = s.pc := rfl
@[simp] theorem raiseTrap_mcause (s : State) (c : TrapCause) : (s.raiseTrap c).mcause = causeNumber c := rfl
@[simp] theorem raiseTrap_mbadaddr (s : State) (c : TrapCause) : (s.raiseTrap c).mbadaddr = s.mbadaddr := rfl
@[simp] theorem raiseTrap_instret (s : State) (c : TrapCause) : (s.raiseTrap c).instret = s.instret := rfl
@[simp] theorem raiseTrap_reservations (s : State) (c : TrapCause) : (s.raiseTrap c).reservations = [] := rfl
@[simp] theorem raiseTrap_peripherals (s : State) (c : TrapCause) : (s.raiseTrap c).peripherals = s.peripherals := rfl
@[simp] theorem raiseTrap_mem (s : State) (c : TrapCause) : (s.raiseTrap c).mem = s.mem := rfl
@[simp] theorem raiseTrap_deviceWrites (s : State) (c : TrapCause) : (s.raiseTrap c).deviceWrites = s.deviceWrites := rfl
@[simp] theorem raiseTrap_draws (s : State) (c : TrapCause) : (s.raiseTrap c).draws = s.draws := rfl
@[simp] theorem raiseTrap_cfg (s : State) (c : TrapCause) : (s.raiseTrap c).cfg = s.cfg := rfl
@[simp] theorem raiseTrap_reg (s : State) (c : TrapCause) (q : Reg) : (s.raiseTrap c).reg q = s.reg q :=
  reg_of_regs_eq _ _ (by simp) q
@[simp] theorem raiseTrap_ownerAt (s : State) (c : TrapCause) (x : Nat) : (s.raiseTrap c).ownerAt x = s.ownerAt x := by
  simp [State.ownerAt]
@[simp] theorem raiseTrap_byteAt (s : State) (c : TrapCause) (x : Nat) : (s.raiseTrap c).byteAt x = s.byteAt x := by
  simp [State.byteAt]

@[simp] theorem returnFromTrap_regs (s : State) : (s.returnFromTrap).regs = s.regs := rfl
@[simp] theorem returnFromTrap_pc (s : State) : (s.returnFromTrap).pc = s.pc := rfl
@[simp] theorem returnFromTrap_nextPc (s : State) : (s.returnFromTrap).nextPc = s.mepc := rfl
@[simp] theorem returnFromTrap_ie (s : State) : (s.returnFromTrap).ie = s.ie1 := rfl
@[simp] theorem returnFromTrap_ie1 (s : State) : (s.returnFromTrap).ie1 = true := rfl
@[simp] theorem returnFromTrap_mscratch (s : State) : (s.returnFromTrap).mscratch = s.mscratch := rfl
@[simp] theorem returnFromTrap_mepc (s : State) : (s.returnFromTrap).mepc = s.mepc := rfl
@[simp] theorem returnFromTrap_mcause (s : State) : (s.returnFromTrap).mcause = s.mcause := rfl
@[simp] theorem returnFromTrap_mbadaddr (s : State) : (s.returnFromTrap).mbadaddr = s.mbadaddr := rfl
@[simp] theorem returnFromTrap_instret (s : State) : (s.returnFromTrap).instret = s.instret := rfl
@[simp] theorem returnFromTrap_reservations (s : State) : (s.returnFromTrap).reservations = [] := rfl
@[simp] theorem returnFromTrap_peripherals (s : State) : (s.returnFromTrap).peripherals = s.peripherals := rfl
@[simp] theorem returnFromTrap_mem (s : State) : (s.returnFromTrap).mem = s.mem := rfl
@[simp] theorem returnFromTrap_deviceWrites (s : State) : (s.returnFromTrap).deviceWrites = s.deviceWrites := rfl
@[simp] theorem returnFromTrap_draws (s : State) : (s.returnFromTrap).draws = s.draws := rfl
@[simp] theorem returnFromTrap_cfg (s : State) : (s.returnFromTrap).cfg = s.cfg := rfl
@[simp] theorem returnFromTrap_reg (s : State) (q : Reg) : (s.returnFromTrap).reg q = s.reg q :=
  reg_of_regs_eq _ _ (by simp) q
@[simp] theorem returnFromTrap_ownerAt (s : State) (x : Nat) : (s.returnFromTrap).ownerAt x = s.ownerAt x := by
  simp [State.ownerAt]
@[simp] theorem returnFromTrap_byteAt (s : State) (x : Nat) : (s.returnFromTrap).byteAt x = s.byteAt x := by
  simp [State.byteAt]

@[simp] theorem reserve_regs (s : State) (a : Word) : (s.reserve a).regs = s.regs := rfl
@[simp] theorem reserve_pc (s : State) (a : Word) : (s.reserve a).pc = s.pc := rfl
@[simp] theorem reserve_nextPc (s : State) (a : Word) : (s.reserve a).nextPc = s.nextPc := rfl
@[simp] theorem reserve_ie (s : State) (a : Word) : (s.reserve a).ie = s.ie := rfl
@[simp] theorem reserve_ie1 (s : State) (a : Word) : (s.reserve a).ie1 = s.ie1 := rfl
@[simp] theorem reserve_mscratch (s : State) (a : Word) : (s.reserve a).mscratch = s.mscratch := rfl
@[simp] theorem reserve_mepc (s : State) (a : Word) : (s.reserve a).mepc = s.mepc := rfl
@[simp] theorem reserve_mcause (s : State) (a : Word) : (s.reserve a).mcause = s.mcause := rfl
@[simp] theorem reserve_mbadaddr (s : State) (a : Word) : (s.reserve a).mbadaddr = s.mbadaddr := rfl
@[simp] theorem reserve_instret (s : State) (a : Word) : (s.reserve a).instret = s.instret := rfl
@[simp] theorem reserve_reservations (s : State) (a : Word) : (s.reserve a).reservations = insertKey (wordKey a) s.reservations := rfl
@[simp] theorem reserve_peripherals (s : State) (a : Word) : (s.reserve a).peripherals = s.peripherals := rfl
@[simp] theorem reserve_mem (s : State) (a : Word) : (s.reserve a).mem = s.mem := rfl
@[simp] theorem reserve_deviceWrites (s : State) (a : Word) : (s.reserve a).deviceWrites = s.deviceWrites := rfl
@[simp] theorem reserve_draws (s : State) (a : Word) : (s.reserve a).draws = s.draws := rfl
@[simp] theorem reserve_cfg (s : State) (a : Word) : (s.reserve a).cfg = s.cfg := rfl
@[simp] theorem reserve_reg (s : State) (a : Word) (q : Reg) : (s.reserve a).reg q = s.reg q :=
  reg_of_regs_eq _ _ (by simp) q
@[simp] theorem reserve_ownerAt (s : State) (a : Word) (x : Nat) : (s.reserve a).ownerAt x = s.ownerAt x := by
  simp [State.ownerAt]
@[simp] theorem reserve_byteAt (s : State) (a : Word) (x : Nat) : (s.reserve a).byteAt x = s.byteAt x := by
  simp [State.byteAt]

@[simp] theorem clearReservation_regs (s : State) (k : Nat) : (s.clearReservation k).regs = s.regs := rfl
@[simp] theorem clearReservation_pc (s : State) (k : Nat) : (s.clearReservation k).pc = s.pc := rfl
@[simp] theorem clearReservation_nextPc (s : State) (k : Nat) : (s.clearReservation k).nextPc = s.nextPc := rfl
@[simp] theorem clearReservation_ie (s : State) (k : Nat) : (s.clearReservation k).ie = s.ie := rfl
@[simp] theorem clearReservation_ie1 (s : State) (k : Nat) : (s.clearReservation k).ie1 = s.ie1 := rfl
@[simp] theorem clearReservation_mscratch (s : State) (k : Nat) : (s.clearReservation k).mscratch = s.mscratch := rfl
@[simp] theorem clearReservation_mepc (s : State) (k : Nat) : (s.clearReservation k).mepc = s.mepc := rfl
@[simp] theorem clearReservation_mcause (s : State) (k : Nat) : (s.clearReservation k).mcause = s.mcause := rfl
@[simp] theorem clearReservation_mbadaddr (s : State) (k : Nat) : (s.clearReservation k).mbadaddr = s.mbadaddr := rfl
@[simp] theorem clearReservation_instret (s : State) (k : Nat) : (s.clearReservation k).instret = s.instret := rfl
@[simp] theorem clearReservation_reservations (s : State) (k : Nat) : (s.clearReservation k).reservations = removeKey k s.reservations := rfl
@[simp] theorem clearReservation_peripherals (s : State) (k : Nat) : (s.clearReservation k).peripherals = s.peripherals := rfl
@[simp] theorem clearReservation_mem (s : State) (k : Nat) : (s.clearReservation k).mem = s.mem := rfl
@[simp] theorem clearReservation_deviceWrites (s : State) (k : Nat) : (s.clearReservation k).deviceWrites = s.deviceWrites := rfl
@[simp] theorem clearReservation_draws (s : State) (k : Nat) : (s.clearReservation k).draws = s.draws := rfl
@[simp] theorem clearReservation_cfg (s : State) (k : Nat) : (s.clearReservation k).cfg = s.cfg := rfl
@[simp] theorem clearReservation_reg (s : State) (k : Nat) (q : Reg) : (s.clearReservation k).reg q = s.reg q :=
  reg_of_regs_eq _ _ (by simp) q
@[simp] theorem clearReservation_ownerAt (s : State) (k : Nat) (x : Nat) : (s.clearReservation k).ownerAt x = s.ownerAt x := by
  simp [State.ownerAt]
@[simp] theorem clearReservation_byteAt (s : State) (k : Nat) (x : Nat) : (s.clearReservation k).byteAt x = s.byteAt x := by
  simp [State.byteAt]

@[simp] theorem csrWrite_regs (s : State) (c : Csr) (v : Word) : (s.csrWrite c v).regs = s.regs := by cases c <;> rfl
@[simp] theorem csrWrite_pc (s : State) (c : Csr) (v : Word) : (s.csrWrite c v).pc = s.pc := by cases c <;> rfl
@[simp] theorem csrWrite_nextPc (s : State) (c : Csr) (v : Word) : (s.csrWrite c v).nextPc = s.nextPc := by cases c <;> rfl
@[simp] theorem csrWrite_instret (s : State) (c : Csr) (v : Word) : (s.csrWrite c v).instret = s.instret := by cases c <;> rfl
@[simp] theorem csrWrite_reservations (s : State) (c : Csr) (v : Word) : (s.csrWrite c v).reservations = s.reservations := by cases c <;> rfl
@[simp] theorem csrWrite_peripherals (s : State) (c : Csr) (v : Word) : (s.csrWrite c v).peripherals = s.peripherals := by cases c <;> rfl
@[simp] theorem csrWrite_mem (s : State) (c : Csr) (v : Word) : (s.csrWrite c v).mem = s.mem := by cases c <;> rfl
@[simp] theorem csrWrite_deviceWrites (s : State) (c : Csr) (v : Word) : (s.csrWrite c v).deviceWrites = s.deviceWrites := by cases c <;> rfl
@[simp] theorem csrWrite_draws (s : State) (c : Csr) (v : Word) : (s.csrWrite c v).draws = s.draws := by cases c <;> rfl
@[simp] theorem csrWrite_cfg (s : State) (c : Csr) (v : Word) : (s.csrWrite c v).cfg = s.cfg := by cases c <;> rfl
@[simp] theorem csrWrite_reg (s : State) (c : Csr) (v : Word) (q : Reg) : (s.csrWrite c v).reg q = s.reg q :=
  reg_of_regs_eq _ _ (by simp) q
@[simp] theorem csrWrite_ownerAt (s : State) (c : Csr) (v : Word) (x : Nat) : (s.csrWrite c v).ownerAt x = s.ownerAt x := by
  simp [State.ownerAt]
@[simp] theorem csrWrite_byteAt (s : State) (c : Csr) (v : Word) (x : Nat) : (s.csrWrite c v).byteAt x = s.byteAt x := by
  simp [State.byteAt]

@[simp] theorem deliverWrite_regs (s : State) (a : Word) (n : Nat) (v : Word) : (s.deliverWrite a n v).regs = s.regs := by unfold State.deliverWrite; repeat (first | rfl | split)
@[simp] theorem deliverWrite_pc (s : State) (a : Word) (n : Nat) (v : Word) : (s.deliverWrite a n v).pc = s.pc := by unfold State.deliverWrite; repeat (first | rfl | split)
@[simp] theorem deliverWrite_nextPc (s : State) (a : Word) (n : Nat) (v : Word) : (s.deliverWrite a n v).nextPc = s.nextPc := by unfold State.deliverWrite; repeat (first | rfl | split)
@[simp] theorem deliverWrite_ie (s : State) (a : Word) (n : Nat) (v : Word) : (s.deliverWrite a n v).ie = s.ie := by unfold State.deliverWrite; repeat (first | rfl | split)
@[simp] theorem deliverWrite_ie1 (s : State) (a : Word) (n : Nat) (v : Word) : (s.deliverWrite a n v).ie1 = s.ie1 := by unfold State.deliverWrite; repeat (first | rfl | split)
@[simp] theorem deliverWrite_mscratch (s : State) (a : Word) (n : Nat) (v : Word) : (s.deliverWrite a n v).mscratch = s.mscratch := by unfold State.deliverWrite; repeat (first | rfl | split)
@[simp] theorem deliverWrite_mepc (s : State) (a : Word) (n : Nat) (v : Word) : (s.deliverWrite a n v).mepc = s.mepc := by unfold State.deliverWrite; repeat (first | rfl | split)
@[simp] theorem deliverWrite_mcause (s : State) (a : Word) (n : Nat) (v : Word) : (s.deliverWrite a n v).mcause = s.mcause := by unfold State.deliverWrite; repeat (first | rfl | split)
@[simp] theorem deliverWrite_mbadaddr (s : State) (a : Word) (n : Nat) (v : Word) : (s.deliverWrite a n v).mbadaddr = s.mbadaddr := by unfold State.deliverWrite; repeat (first | rfl | split)
@[simp] theorem deliverWrite_instret (s : State) (a : Word) (n : Nat) (v : Word) : (s.deliverWrite a n v).instret = s.instret := by unfold State.deliverWrite; repeat (first | rfl | split)
@[simp] theorem deliverWrite_reservations (s : State) (a : Word) (n : Nat) (v : Word) : (s.deliverWrite a n v).reservations = s.reservations := by unfold State.deliverWrite; repeat (first | rfl | split)
@[simp] theorem deliverWrite_peripherals (s : State) (a : Word) (n : Nat) (v : Word) : (s.deliverWrite a n v).peripherals = s.peripherals := by unfold State.deliverWrite; repeat (first | rfl | split)
@[simp] theorem deliverWrite_draws (s : State) (a : Word) (n : Nat) (v : Word) : (s.deliverWrite a n v).draws = s.draws := by unfold State.deliverWrite; repeat (first | rfl | split)
@[simp] theorem deliverWrite_cfg (s : State) (a : Word) (n : Nat) (v : Word) : (s.deliverWrite a n v).cfg = s.cfg := by unfold State.deliverWrite; repeat (first | rfl | split)
@[simp] theorem deliverWrite_reg (s : State) (a : Word) (n : Nat) (v : Word) (q : Reg) : (s.deliverWrite a n v).reg q = s.reg q :=
  reg_of_regs_eq _ _ (by simp) q
@[simp] theorem deliverWrite_ownerAt (s : State) (a : Word) (n : Nat) (v : Word) (x : Nat) : (s.deliverWrite a n v).ownerAt x = s.ownerAt x := by
  simp [State.ownerAt]

@[simp] theorem busWrite_regs (s : State) (a : Word) (n : Nat) (v : Word) : (s.busWrite a n v).regs = s.regs := by simp [State.busWrite]
@[simp] theorem busWrite_pc (s : State) (a : Word) (n : Nat) (v : Word) : (s.busWrite a n v).pc = s.pc := by simp [State.busWrite]
@[simp] theorem busWrite_nextPc (s : State) (a : Word) (n : Nat) (v : Word) : (s.busWrite a n v).nextPc = s.nextPc := by simp [State.busWrite]
@[simp] theorem busWrite_ie (s : State) (a : Word) (n : Nat) (v : Word) : (s.busWrite a n v).ie = s.ie := by simp [State.busWrite]
@[simp] theorem busWrite_ie1 (s : State) (a : Word) (n : Nat) (v : Word) : (s.busWrite a n v).ie1 = s.ie1 := by simp [State.busWrite]
@[simp] theorem busWrite_mscratch (s : State) (a : Word) (n : Nat) (v : Word) : (s.busWrite a n v).mscratch = s.mscratch := by simp [State.busWrite]
@[simp] theorem busWrite_mepc (s : State) (a : Word) (n : Nat) (v : Word) : (s.busWrite a n v).mepc = s.mepc := by simp [State.busWrite]
@[simp] theorem busWrite_mcause (s : State) (a : Word) (n : Nat) (v : Word) : (s.busWrite a n v).mcause = s.mcause := by simp [State.busWrite]
@[simp] theorem busWrite_mbadaddr (s : State) (a : Word) (n : Nat) (v : Word) : (s.busWrite a n v).mbadaddr = s.mbadaddr := by simp [State.busWrite]
@[simp] theorem busWrite_instret (s : State) (a : Word) (n : Nat) (v : Word) : (s.busWrite a n v).instret = s.instret := by simp [State.busWrite]
@[simp] theorem busWrite_reservations (s : State) (a : Word) (n : Nat) (v : Word) : (s.busWrite a n v).reservations = removeKey (wordKey a) s.reservations := by simp [State.busWrite]
@[simp] theorem busWrite_peripherals (s : State) (a : Word) (n : Nat) (v : Word) : (s.busWrite a n v).peripherals = s.peripherals := by simp [State.busWrite]
@[simp] theorem busWrite_draws (s : State) (a : Word) (n : Nat) (v : Word) : (s.busWrite a n v).draws = s.draws := by simp [State.busWrite]
@[simp] theorem busWrite_cfg (s : State) (a : Word) (n : Nat) (v : Word) : (s.busWrite a n v).cfg = s.cfg := by simp [State.busWrite]
@[simp] theorem busWrite_reg (s : State) (a : Word) (n : Nat) (v : Word) (q : Reg) : (s.busWrite a n v).reg q = s.reg q :=
  reg_of_regs_eq _ _ (by simp) q
@[simp] theorem busWrite_ownerAt (s : State) (a : Word) (n : Nat) (v : Word) (x : Nat) : (s.busWrite a n v).ownerAt x = s.ownerAt x := by
  simp [State.ownerAt]

@[simp] theorem scrambleByte_regs (s : State) (a : Nat) : (s.scrambleByte a).regs = s.regs := by unfold State.scrambleByte; repeat (first | rfl | split)
@[simp] theorem scrambleByte_pc (s : State) (a : Nat) : (s.scrambleByte a).pc = s.pc := by unfold State.scrambleByte; repeat (first | rfl | split)
@[simp] theorem scrambleByte_nextPc (s : State) (a : Nat) : (s.scrambleByte a).nextPc = s.nextPc := by unfold State.scrambleByte; repeat (first | rfl | split)
@[simp] theorem scrambleByte_ie (s : State) (a : Nat) : (s.scrambleByte a).ie = s.ie := by unfold State.scrambleByte; repeat (first | rfl | split)
@[simp] theorem scrambleByte_ie1 (s : State) (a : Nat) : (s.scrambleByte a).ie1 = s.ie1 := by unfold State.scrambleByte; repeat (first | rfl | split)
@[simp] theorem scrambleByte_mscratch (s : State) (a : Nat) : (s.scrambleByte a).mscratch = s.mscratch := by unfold State.scrambleByte; repeat (first | rfl | split)
@[simp] theorem scrambleByte_mepc (s : State) (a : Nat) : (s.scrambleByte a).mepc = s.mepc := by unfold State.scrambleByte; repeat (first | rfl | split)
@[simp] theorem scrambleByte_mcause (s : State) (a : Nat) : (s.scrambleByte a).mcause = s.mcause := by unfold State.scrambleByte; repeat (first | rfl | split)
@[simp] theorem scrambleByte_mbadaddr (s : State) (a : Nat) : (s.scrambleByte a).mbadaddr = s.mbadaddr := by unfold State.scrambleByte; repeat (first | rfl | split)
@[simp] theorem scrambleByte_instret (s : State) (a : Nat) : (s.scrambleByte a).instret = s.instret := by unfold State.scrambleByte; repeat (first | rfl | split)
@[simp] theorem scrambleByte_reservations (s : State) (a : Nat) : (s.scrambleByte a).reservations = s.reservations := by unfold State.scrambleByte; repeat (first | rfl | split)
@[simp] theorem scrambleByte_peripherals (s : State) (a : Nat) : (s.scrambleByte a).peripherals = s.peripherals := by unfold State.scrambleByte; repeat (first | rfl | split)
@[simp] theorem scrambleByte_deviceWrites (s : State) (a : Nat) : (s.scrambleByte a).deviceWrites = s.deviceWrites := by unfold State.scrambleByte; repeat (first | rfl | split)
@[simp] theorem scrambleByte_cfg (s : State) (a : Nat) : (s.scrambleByte a).cfg = s.cfg := by unfold State.scrambleByte; repeat (first | rfl | split)
@[simp] theorem scrambleByte_reg (s : State) (a : Nat) (q : Reg) : (s.scrambleByte a).reg q = s.reg q :=
  reg_of_regs_eq _ _ (by simp) q
@[simp] theorem scrambleByte_ownerAt (s : State) (a : Nat) (x : Nat) : (s.scrambleByte a).ownerAt x = s.ownerAt x := by
  simp [State.ownerAt]

@[simp] theorem scrambleWord_regs (s : State) (k : Nat) : (s.scrambleWord k).regs = s.regs := by simp [State.scrambleWord]
@[simp] theorem scrambleWord_pc (s : State) (k : Nat) : (s.scrambleWord k).pc = s.pc := by simp [State.scrambleWord]
@[simp] theorem scrambleWord_nextPc (s : State) (k : Nat) : (s.scrambleWord k).nextPc = s.nextPc := by simp [State.scrambleWord]
@[simp] theorem scrambleWord_ie (s : State) (k : Nat) : (s.scrambleWord k).ie = s.ie := by simp [State.scrambleWord]
@[simp] theorem scrambleWord_ie1 (s : State) (k : Nat) : (s.scrambleWord k).ie1 = s.ie1 := by simp [State.scrambleWord]
@[simp] theorem scrambleWord_mscratch (s : State) (k : Nat) : (s.scrambleWord k).mscratch = s.mscratch := by simp [State.scrambleWord]
@[simp] theorem scrambleWord_mepc (s : State) (k : Nat) : (s.scrambleWord k).mepc = s.mepc := by simp [State.scrambleWord]
@[simp] theorem scrambleWord_mcause (s : State) (k : Nat) : (s.scrambleWord k).mcause = s.mcause := by simp [State.scrambleWord]
@[simp] theorem scrambleWord_mbadaddr (s : State) (k : Nat) : (s.scrambleWord k).mbadaddr = s.mbadaddr := by simp [State.scrambleWord]
@[simp] theorem scrambleWord_instret (s : State) (k : Nat) : (s.scrambleWord k).instret = s.instret := by simp [State.scrambleWord]
@[simp] theorem scrambleWord_reservations (s : State) (k : Nat) : (s.scrambleWord k).reservations = removeKey k s.reservations := by simp [State.scrambleWord]
@[simp] theorem scrambleWord_peripherals (s : State) (k : Nat) : (s.scrambleWord k).peripherals = s.peripherals := by simp [State.scrambleWord]
@[simp] theorem scrambleWord_deviceWrites (s : State) (k : Nat) : (s.scrambleWord k).deviceWrites = s.deviceWrites := by simp [State.scrambleWord]
@[simp] theorem scrambleWord_cfg (s : State) (k : Nat) : (s.scrambleWord k).cfg = s.cfg := by simp [State.scrambleWord]
@[simp] theorem scrambleWord_reg (s : State) (k : Nat) (q : Reg) : (s.scrambleWord k).reg q = s.reg q :=
  reg_of_regs_eq _ _ (by simp) q
@[simp] theorem scrambleWord_ownerAt (s : State) (k : Nat) (x : Nat) : (s.scrambleWord k).ownerAt x = s.ownerAt x := by
  simp [State.ownerAt]

@[simp] theorem startStep_regs (s : State) : (s.startStep).regs = s.regs := rfl
@[simp] theorem startStep_pc (s : State) : (s.startStep).pc = s.pc := rfl
@[simp] theorem startStep_nextPc (s : State) : (s.startStep).nextPc = s.pc + 4#32 := rfl
@[simp] theorem startStep_ie (s : State) : (s.startStep).ie = s.ie := rfl
@[simp] theorem startStep_ie1 (s : State) : (s.startStep).ie1 = s.ie1 := rfl
@[simp] theorem startStep_mscratch (s : State) : (s.startStep).mscratch = s.mscratch := rfl
@[simp] theorem startStep_mepc (s : State) : (s.startStep).mepc = s.mepc := rfl
@[simp] theorem startStep_mcause (s : State) : (s.startStep).mcause = s.mcause := rfl
@[simp] theorem startStep_mbadaddr (s : State) : (s.startStep).mbadaddr = s.mbadaddr := rfl
@[simp] theorem startStep_instret (s : State) : (s.startStep).instret = s.instret := rfl
@[simp] theorem startStep_reservations (s : State) : (s.startStep).reservations = s.reservations := rfl
@[simp] theorem startStep_peripherals (s : State) : (s.startStep).peripherals = s.peripherals := rfl
@[simp] theorem startStep_mem (s : State) : (s.startStep).mem = s.mem := rfl
@[simp] theorem startStep_deviceWrites (s : State) : (s.startStep).deviceWrites = s.deviceWrites := rfl
@[simp] theorem startStep_draws (s : State) : (s.startStep).draws = s.draws := rfl
@[simp] theorem startStep_cfg (s : State) : (s.startStep).cfg = s.cfg := rfl
@[simp] theorem startStep_reg (s : State) (q : Reg) : (s.startStep).reg q = s.reg q :=
  reg_of_regs_eq _ _ (by simp) q
@[simp] theorem startStep_ownerAt (s : State) (x : Nat) : (s.startStep).ownerAt x = s.ownerAt x := by
  simp [State.ownerAt]
@[simp] theorem startStep_byteAt (s : State) (x : Nat) : (s.startStep).byteAt x = s.byteAt x := by
  simp [State.byteAt]

@[simp] theorem commit_regs (s : State) : (s.commit).regs = s.regs := rfl
@[simp] theorem commit_pc (s : State) : (s.commit).pc = s.nextPc := rfl
@[simp] theorem commit_nextPc (s : State) : (s.commit).nextPc = s.nextPc := rfl
@[simp] theorem commit_ie (s : State) : (s.commit).ie = s.ie := rfl
@[simp] theorem commit_ie1 (s : State) : (s.commit).ie1 = s.ie1 := rfl
@[simp] theorem commit_mscratch (s : State) : (s.commit).mscratch = s.mscratch := rfl
@[simp] theorem commit_mepc (s : State) : (s.commit).mepc = s.mepc := rfl
@[simp] theorem commit_mcause (s : State) : (s.commit).mcause = s.mcause := rfl
@[simp] theorem commit_mbadaddr (s : State) : (s.commit).mbadaddr = s.mbadaddr := rfl
@[simp] theorem commit_instret (s : State) : (s.commit).instret = s.instret + 1#64 := rfl
@[simp] theorem commit_reservations (s : State) : (s.commit).reservations = s.reservations := rfl
@[simp] theorem commit_peripherals (s : State) : (s.commit).peripherals = s.peripherals := rfl
@[simp] theorem commit_mem (s : State) : (s.commit).mem = s.mem := rfl
@[simp] theorem commit_deviceWrites (s : State) : (s.commit).deviceWrites = s.deviceWrites := rfl
@[simp] theorem commit_draws (s : State) : (s.commit).draws = s.draws := rfl
@[simp] theorem commit_cfg (s : State) : (s.commit).cfg = s.cfg := rfl
@[simp] theorem commit_reg (s : State) (q : Reg) : (s.commit).reg q = s.reg q :=
  reg_of_regs_eq _ _ (by simp) q
@[simp] theorem commit_ownerAt (s : State) (x : Nat) : (s.commit).ownerAt x = s.ownerAt x := by
  simp [State.ownerAt]
@[simp] theorem commit_byteAt (s : State) (x : Nat) : (s.commit).byteAt x = s.byteAt x := by
  simp [State.byteAt]

@[simp] theorem branchIf_regs (s : State) (c : Bool) (imm : BitVec 13) : (s.branchIf c imm).regs = s.regs := by cases c <;> rfl
@[simp] theorem branchIf_pc (s : State) (c : Bool) (imm : BitVec 13) : (s.branchIf c imm).pc = s.pc := by cases c <;> rfl
@[simp] theorem branchIf_nextPc (s : State) (c : Bool) (imm : BitVec 13) : (s.branchIf c imm).nextPc = if c then s.pc + branchOffset imm else s.nextPc := by cases c <;> rfl
@[simp] theorem branchIf_ie (s : State) (c : Bool) (imm : BitVec 13) : (s.branchIf c imm).ie = s.ie := by cases c <;> rfl
@[simp] theorem branchIf_ie1 (s : State) (c : Bool) (imm : BitVec 13) : (s.branchIf c imm).ie1 = s.ie1 := by cases c <;> rfl
@[simp] theorem branchIf_mscratch (s : State) (c : Bool) (imm : BitVec 13) : (s.branchIf c imm).mscratch = s.mscratch := by cases c <;> rfl
@[simp] theorem branchIf_mepc (s : State) (c : Bool) (imm : BitVec 13) : (s.branchIf c imm).mepc = s.mepc := by cases c <;> rfl
@[simp] theorem branchIf_mcause (s : State) (c : Bool) (imm : BitVec 13) : (s.branchIf c imm).mcause = s.mcause := by cases c <;> rfl
@[simp] theorem branchIf_mbadaddr (s : State) (c : Bool) (imm : BitVec 13) : (s.branchIf c imm).mbadaddr = s.mbadaddr := by cases c <;> rfl
@[simp] theorem branchIf_instret (s : State) (c : Bool) (imm : BitVec 13) : (s.branchIf c imm).instret = s.instret := by cases c <;> rfl
@[simp] theorem branchIf_reservations (s : State) (c : Bool) (imm : BitVec 13) : (s.branchIf c imm).reservations = s.reservations := by cases c <;> rfl
@[simp] theorem branchIf_peripherals (s : State) (c : Bool) (imm : BitVec 13) : (s.branchIf c imm).peripherals = s.peripherals := by cases c <;> rfl
@[simp] theorem branchIf_mem (s : State) (c : Bool) (imm : BitVec 13) : (s.branchIf c imm).mem = s.mem := by cases c <;> rfl
@[simp] theorem branchIf_deviceWrites (s : State) (c : Bool) (imm : BitVec 13) : (s.branchIf c imm).deviceWrites = s.deviceWrites := by cases c <;> rfl
@[simp] theorem branchIf_draws (s : State) (c : Bool) (imm : BitVec 13) : (s.branchIf c imm).draws = s.draws := by cases c <;> rfl
@[simp] theorem branchIf_cfg (s : State) (c : Bool) (imm : BitVec 13) : (s.branchIf c imm).cfg = s.cfg := by cases c <;> rfl
@[simp] theorem branchIf_reg (s : State) (c : Bool) (imm : BitVec 13) (q : Reg) : (s.branchIf c imm).reg q = s.reg q :=
  reg_of_regs_eq _ _ (by simp) q
@[simp] theorem branchIf_ownerAt (s : State) (c : Bool) (imm : BitVec 13) (x : Nat) : (s.branchIf c imm).ownerAt x = s.ownerAt x := by
  simp [State.ownerAt]
@[simp] theorem branchIf_byteAt (s : State) (c : Bool) (imm : BitVec 13) (x : Nat) : (s.branchIf c imm).byteAt x = s.byteAt x := by
  simp [State.byteAt]

@[simp] theorem scSucceeded_pc (s : State) (rd : Reg) : (s.scSucceeded rd).pc = s.pc := by unfold State.scSucceeded; split <;> simp
@[simp] theorem scSucceeded_nextPc (s : State) (rd : Reg) : (s.scSucceeded rd).nextPc = s.nextPc := by unfold State.scSucceeded; split <;> simp
@[simp] theorem scSucceeded_ie (s : State) (rd : Reg) : (s.scSucceeded rd).ie = s.ie := by unfold State.scSucceeded; split <;> simp
@[simp] theorem scSucceeded_ie1 (s : State) (rd : Reg) : (s.scSucceeded rd).ie1 = s.ie1 := by unfold State.scSucceeded; split <;> simp
@[simp] theorem scSucceeded_mscratch (s : State) (rd : Reg) : (s.scSucceeded rd).mscratch = s.mscratch := by unfold State.scSucceeded; split <;> simp
@[simp] theorem scSucceeded_mepc (s : State) (rd : Reg) : (s.scSucceeded rd).mepc = s.mepc := by unfold State.scSucceeded; split <;> simp
@[simp] theorem scSucceeded_mcause (s : State) (rd : Reg) : (s.scSucceeded rd).mcause = s.mcause := by unfold State.scSucceeded; split <;> simp
@[simp] theorem scSucceeded_mbadaddr (s : State) (rd : Reg) : (s.scSucceeded rd).mbadaddr = s.mbadaddr := by unfold State.scSucceeded; split <;> simp
@[simp] theorem scSucceeded_instret (s : State) (rd : Reg) : (s.scSucceeded rd).instret = s.instret := by unfold State.scSucceeded; split <;> simp
@[simp] theorem scSucceeded_reservations (s : State) (rd : Reg) : (s.scSucceeded rd).reservations = s.reservations := by unfold State.scSucceeded; split <;> simp
@[simp] theorem scSucceeded_peripherals (s : State) (rd : Reg) : (s.scSucceeded rd).peripherals = s.peripherals := by unfold State.scSucceeded; split <;> simp
@[simp] theorem scSucceeded_mem (s : State) (rd : Reg) : (s.scSucceeded rd).mem = s.mem := by unfold State.scSucceeded; split <;> simp
@[simp] theorem scSucceeded_deviceWrites (s : State) (rd : Reg) : (s.scSucceeded rd).deviceWrites = s.deviceWrites := by unfold State.scSucceeded; split <;> simp
@[simp] theorem scSucceeded_draws (s : State) (rd : Reg) : (s.scSucceeded rd).draws = s.draws := by unfold State.scSucceeded; split <;> simp
@[simp] theorem scSucceeded_cfg (s : State) (rd : Reg) : (s.scSucceeded rd).cfg = s.cfg := by unfold State.scSucceeded; split <;> simp
@[simp] theorem scSucceeded_ownerAt (s : State) (rd : Reg) (x : Nat) : (s.scSucceeded rd).ownerAt x = s.ownerAt x := by
  simp [State.ownerAt]
@[simp] theorem scSucceeded_byteAt (s : State) (rd : Reg) (x : Nat) : (s.scSucceeded rd).byteAt x = s.byteAt x := by
  simp [State.byteAt]

@[simp] theorem csrWriteTrap_pc (s : State) (rd : Reg) (old : Word) : (s.csrWriteTrap rd old).pc = s.pc := by simp [State.csrWriteTrap]
@[simp] theorem csrWriteTrap_nextPc (s : State) (rd : Reg) (old : Word) : (s.csrWriteTrap rd old).nextPc = trapVector := by simp [State.csrWriteTrap]
@[simp] theorem csrWriteTrap_ie (s : State) (rd : Reg) (old : Word) : (s.csrWriteTrap rd old).ie = false := by simp [State.csrWriteTrap]
@[simp] theorem csrWriteTrap_ie1 (s : State) (rd : Reg) (old : Word) : (s.csrWriteTrap rd old).ie1 = s.ie := by simp [State.csrWriteTrap]
@[simp] theorem csrWriteTrap_mscratch (s : State) (rd : Reg) (old : Word) : (s.csrWriteTrap rd old).mscratch = s.mscratch := by simp [State.csrWriteTrap]
@[simp] theorem csrWriteTrap_mepc (s : State) (rd : Reg) (old : Word) : (s.csrWriteTrap rd old).mepc = s.pc := by simp [State.csrWriteTrap]
@[simp] theorem csrWriteTrap_mcause (s : State) (rd : Reg) (old : Word) : (s.csrWriteTrap rd old).mcause = causeNumber .illegalInstruction := by simp [State.csrWriteTrap]
@[simp] theorem csrWriteTrap_mbadaddr (s : State) (rd : Reg) (old : Word) : (s.csrWriteTrap rd old).mbadaddr = s.mbadaddr := by simp [State.csrWriteTrap]
@[simp] theorem csrWriteTrap_instret (s : State) (rd : Reg) (old : Word) : (s.csrWriteTrap rd old).instret = s.instret := by simp [State.csrWriteTrap]
@[simp] theorem csrWriteTrap_reservations (s : State) (rd : Reg) (old : Word) : (s.csrWriteTrap rd old).reservations = [] := by simp [State.csrWriteTrap]
@[simp] theorem csrWriteTrap_peripherals (s : State) (rd : Reg) (old : Word) : (s.csrWriteTrap rd old).peripherals = s.peripherals := by simp [State.csrWriteTrap]
@[simp] theorem csrWriteTrap_mem (s : State) (rd : Reg) (old : Word) : (s.csrWriteTrap rd old).mem = s.mem := by simp [State.csrWriteTrap]
@[simp] theorem csrWriteTrap_deviceWrites (s : State) (rd : Reg) (old : Word) : (s.csrWriteTrap rd old).deviceWrites = s.deviceWrites := by simp [State.csrWriteTrap]
@[simp] theorem csrWriteTrap_draws (s : State) (rd : Reg) (old : Word) : (s.csrWriteTrap rd old).draws = s.draws + 1 := by simp [State.csrWriteTrap]
@[simp] theorem csrWriteTrap_cfg (s : State) (rd : Reg) (old : Word) : (s.csrWriteTrap rd old).cfg = s.cfg := by simp [State.csrWriteTrap]
@[simp] theorem csrWriteTrap_ownerAt (s : State) (rd : Reg) (old : Word) (x : Nat) : (s.csrWriteTrap rd old).ownerAt x = s.ownerAt x := by
  simp [State.ownerAt]
@[simp] theorem csrWriteTrap_byteAt (s : State) (rd : Reg) (old : Word) (x : Nat) : (s.csrWriteTrap rd old).byteAt x = s.byteAt x := by
  simp [State.byteAt]

@[simp] theorem setPc_regs (s : State) (v : Word) : (s.setPc v).regs = s.regs := rfl
@[simp] theorem setPc_pc (s : State) (v : Word) : (s.setPc v).pc = v := rfl
@[simp] theorem setPc_nextPc (s : State) (v : Word) : (s.setPc v).nextPc = s.nextPc := rfl
@[simp] theorem setPc_ie (s : State) (v : Word) : (s.setPc v).ie = s.ie := rfl
@[simp] theorem setPc_ie1 (s : State) (v : Word) : (s.setPc v).ie1 = s.ie1 := rfl
@[simp] theorem setPc_mscratch (s : State) (v : Word) : (s.setPc v).mscratch = s.mscratch := rfl
@[simp] theorem setPc_mepc (s : State) (v : Word) : (s.setPc v).mepc = s.mepc := rfl
@[simp] theorem setPc_mcause (s : State) (v : Word) : (s.setPc v).mcause = s.mcause := rfl
@[simp] theorem setPc_mbadaddr (s : State) (v : Word) : (s.setPc v).mbadaddr = s.mbadaddr := rfl
@[simp] theorem setPc_instret (s : State) (v : Word) : (s.setPc v).instret = s.instret := rfl
@[simp] theorem setPc_reservations (s : State) (v : Word) : (s.setPc v).reservations = s.reservations := rfl
@[simp] theorem setPc_peripherals (s : State) (v : Word) : (s.setPc v).peripherals = s.peripherals := rfl
@[simp] theorem setPc_mem (s : State) (v : Word) : (s.setPc v).mem = s.mem := rfl
@[simp] theorem setPc_deviceWrites (s : State) (v : Word) : (s.setPc v).deviceWrites = s.deviceWrites := rfl
@[simp] theorem setPc_draws (s : State) (v : Word) : (s.setPc v).draws = s.draws := rfl
@[simp] theorem setPc_cfg (s : State) (v : Word) : (s.setPc v).cfg = s.cfg := rfl
@[simp] theorem setPc_reg (s : State) (v : Word) (q : Reg) : (s.setPc v).reg q = s.reg q :=
  reg_of_regs_eq _ _ (by simp) q
@[simp] theorem setPc_ownerAt (s : State) (v : Word) (x : Nat) : (s.setPc v).ownerAt x = s.ownerAt x := by
  simp [State.ownerAt]
@[simp] theorem setPc_byteAt (s : State) (v : Word) (x : Nat) : (s.setPc v).byteAt x = s.byteAt x := by
  simp [State.byteAt]

end Sys2Proof.Machine
end

