-- ==== Sys2Proof/Laws/Memory.lean ====
section
/-! SUPPORT. The laws of the byte memory, of byte order and of the reservation set: a read after a write
gives the value written, a write leaves every other place alone, and every operation keeps the
canonical forms. -/

namespace Sys2Proof.Machine

/-! ## One byte -/

theorem Memory.read_write_ne (m : Memory) (a : Nat) (v : Byte) (b : Nat) (h : b ≠ a) :
    (m.write a v).read b = m.read b := by
  induction m with
  | nil =>
    unfold Memory.write
    split
    · rfl
    · simp [Memory.read, Ne.symm h]
  | cons c m ih =>
    obtain ⟨k, x⟩ := c
    unfold Memory.write
    split
    · split <;> simp [Memory.read, Ne.symm h]
    · split
      · subst_vars
        split <;> simp [Memory.read, Ne.symm h]
      · simp [Memory.read, ih]

theorem Memory.read_of_lt (m : Memory) (a : Nat) (h : ∀ c ∈ m, a < c.1) : m.read a = unlistedByte := by
  induction m with
  | nil => rfl
  | cons c m ih =>
    obtain ⟨k, x⟩ := c
    have hk : a < k := h (k, x) (by simp)
    have : k ≠ a := by omega
    simp [Memory.read, this, ih (fun c hc => h c (by simp [hc]))]

theorem Memory.wf_tail {c : Host.Cell} {m : Memory} (h : Memory.wf (c :: m)) : Memory.wf m :=
  ⟨(List.pairwise_cons.1 h.1).2, fun d hd => h.2 d (by simp [hd])⟩

theorem Memory.wf_head {c : Host.Cell} {m : Memory} (h : Memory.wf (c :: m)) : ∀ d ∈ m, c.1 < d.1 :=
  (List.pairwise_cons.1 h.1).1

theorem Memory.read_write_same (m : Memory) (a : Nat) (v : Byte) (h : m.wf) :
    (m.write a v).read a = v := by
  induction m with
  | nil =>
    unfold Memory.write
    split <;> simp_all [Memory.read]
  | cons c m ih =>
    obtain ⟨k, x⟩ := c
    have hh := Memory.wf_head h
    unfold Memory.write
    split
    · rename_i hk
      split
      · rename_i hv
        rw [hv]
        refine Memory.read_of_lt _ _ fun d hd => ?_
        rcases List.mem_cons.1 hd with rfl | hd
        · exact hk
        · exact Nat.lt_trans hk (hh d hd)
      · simp [Memory.read]
    · split
      · rename_i hk; subst hk
        split
        · rename_i hv
          rw [hv]
          exact Memory.read_of_lt _ _ hh
        · simp [Memory.read]
      · rename_i hk
        simp [Memory.read, Ne.symm hk, ih (Memory.wf_tail h)]

/-- What a write can list: the cell written, or a cell that was there. -/
theorem Memory.mem_write (m : Memory) (a : Nat) (v : Byte) (c : Host.Cell) (h : c ∈ m.write a v) :
    (c = (a, v) ∧ v ≠ unlistedByte) ∨ c ∈ m := by
  induction m with
  | nil =>
    unfold Memory.write at h
    split at h <;> simp_all
  | cons d m ih =>
    obtain ⟨k, x⟩ := d
    unfold Memory.write at h
    split at h
    · split at h <;> simp_all
    · split at h
      · split at h
        · exact .inr (List.mem_cons_of_mem _ h)
        · rename_i hv
          rcases List.mem_cons.1 h with rfl | h
          · exact .inl ⟨rfl, hv⟩
          · exact .inr (List.mem_cons_of_mem _ h)
      · rcases List.mem_cons.1 h with rfl | h
        · simp
        · rcases ih h with h | h
          · exact .inl h
          · exact .inr (by simp [h])

theorem Memory.write_wf (m : Memory) (a : Nat) (v : Byte) (h : m.wf) : (m.write a v).wf := by
  induction m with
  | nil =>
    unfold Memory.write
    split <;> simp_all [Memory.wf]
  | cons c m ih =>
    obtain ⟨k, x⟩ := c
    have hh := Memory.wf_head h
    have ht := Memory.wf_tail h
    have hx : x ≠ unlistedByte := h.2 (k, x) (by simp)
    unfold Memory.write
    split
    · rename_i hk
      split
      · exact h
      · rename_i hv
        refine ⟨List.pairwise_cons.2 ⟨?_, h.1⟩, ?_⟩
        · intro d hd
          rcases List.mem_cons.1 hd with rfl | hd
          · exact hk
          · exact Nat.lt_trans hk (hh d hd)
        · intro d hd
          rcases List.mem_cons.1 hd with rfl | hd
          · exact hv
          · exact h.2 d hd
    · split
      · rename_i hk; subst hk
        split
        · exact ht
        · rename_i hv
          refine ⟨List.pairwise_cons.2 ⟨hh, ht.1⟩, ?_⟩
          intro d hd
          rcases List.mem_cons.1 hd with rfl | hd
          · exact hv
          · exact ht.2 d hd
      · rename_i hlt hne
        have hi := ih ht
        refine ⟨List.pairwise_cons.2 ⟨?_, hi.1⟩, ?_⟩
        · intro d hd
          rcases Memory.mem_write m a v d hd with ⟨rfl, -⟩ | hd
          · show k < a; omega
          · exact hh d hd
        · intro d hd
          rcases List.mem_cons.1 hd with rfl | hd
          · exact hx
          · exact hi.2 d hd

/-! ## Consecutive bytes -/

theorem Memory.writeBytes_wf (bs : List Byte) : ∀ (m : Memory) (a : Nat), m.wf → (m.writeBytes a bs).wf := by
  induction bs with
  | nil => exact fun m a h => h
  | cons b bs ih => exact fun m a h => ih _ _ (Memory.write_wf m a b h)

theorem Memory.read_writeBytes_of_outside (bs : List Byte) : ∀ (m : Memory) (a x : Nat),
    (x < a ∨ a + bs.length ≤ x) → (m.writeBytes a bs).read x = m.read x := by
  induction bs with
  | nil => exact fun m a x h => rfl
  | cons b bs ih =>
    intro m a x h
    simp only [List.length_cons] at h
    rw [Memory.writeBytes, ih _ _ _ (by omega), Memory.read_write_ne _ _ _ _ (by omega)]

theorem Memory.read_writeBytes_of_inside (bs : List Byte) : ∀ (m : Memory) (a i : Nat), m.wf →
    (h : i < bs.length) → (m.writeBytes a bs).read (a + i) = bs[i] := by
  induction bs with
  | nil => intro m a i _ h; simp at h
  | cons b bs ih =>
    intro m a i hm h
    rw [Memory.writeBytes]
    cases i with
    | zero =>
      rw [Memory.read_writeBytes_of_outside _ _ _ _ (by omega)]
      exact Memory.read_write_same m a b hm
    | succ i =>
      have := ih (m.write a b) (a + 1) i (Memory.write_wf m a b hm) (by simpa using h)
      rw [show a + (i + 1) = a + 1 + i by omega, this]
      rfl

theorem Memory.mem_writeBytes (bs : List Byte) : ∀ (m : Memory) (a : Nat) (c : Host.Cell),
    c ∈ m.writeBytes a bs → (a ≤ c.1 ∧ c.1 < a + bs.length) ∨ c ∈ m := by
  induction bs with
  | nil => exact fun m a c h => .inr h
  | cons b bs ih =>
    intro m a c h
    rcases ih _ _ _ h with h | h
    · left; simp only [List.length_cons]; omega
    · rcases Memory.mem_write _ _ _ _ h with ⟨rfl, -⟩ | h
      · left; simp
      · exact .inr h

@[simp] theorem Memory.length_readBytes (m : Memory) (n : Nat) : ∀ a, (m.readBytes a n).length = n := by
  induction n with
  | zero => intro a; rfl
  | succ n ih => intro a; simp [Memory.readBytes, ih]

/-! ## Byte order -/

end Sys2Proof.Machine

namespace Sys2Proof

@[simp] theorem length_leBytes (n : Nat) : ∀ v, (leBytes n v).length = n := by
  induction n with
  | zero => intro v; rfl
  | succ n ih => intro v; simp [leBytes, ih]

theorem leBytes_getElem (n : Nat) : ∀ (v i : Nat) (h : i < (leBytes n v).length),
    (leBytes n v)[i] = BitVec.ofNat 8 (v / 256 ^ i) := by
  induction n with
  | zero => intro v i h; simp at h
  | succ n ih =>
    intro v i h
    cases i with
    | zero => simp [leBytes]
    | succ i =>
      have : i < (leBytes n (v / 256)).length := by simpa using h
      simp only [leBytes, List.getElem_cons_succ]
      rw [ih _ _ this, Nat.div_div_eq_div_mul, Nat.pow_succ, Nat.mul_comm]

theorem leValue_leBytes (n : Nat) : ∀ v, leValue (leBytes n v) = v % 256 ^ n := by
  induction n with
  | zero => intro v; simp [leBytes, leValue, Nat.mod_one]
  | succ n ih =>
    intro v
    have h : (BitVec.ofNat 8 v).toNat = v % 256 := by simp
    rw [leBytes, leValue, ih, h, Nat.pow_succ, Nat.mul_comm (256 ^ n), Nat.mod_mul]

theorem leValue_lt (bs : List Byte) : leValue bs < 256 ^ bs.length := by
  induction bs with
  | nil => simp [leValue]
  | cons b bs ih =>
    have : b.toNat < 256 := b.isLt
    simp only [leValue, List.length_cons, Nat.pow_succ]
    omega

theorem leBytes_leValue (bs : List Byte) : leBytes bs.length (leValue bs) = bs := by
  induction bs with
  | nil => rfl
  | cons b bs ih =>
    have hb : b.toNat < 256 := b.isLt
    have h1 : (b.toNat + 256 * leValue bs) / 256 = leValue bs := by omega
    have h2 : BitVec.ofNat 8 (b.toNat + 256 * leValue bs) = b := by
      apply BitVec.eq_of_toNat_eq
      simp only [BitVec.toNat_ofNat]
      omega
    simp only [List.length_cons, leBytes, leValue, h1, h2, ih]

end Sys2Proof

namespace Sys2Proof.Machine

/-! ## The reservation set (R250 to R252) -/

@[simp] theorem mem_insertKey (k x : Nat) (ks : List Nat) : x ∈ insertKey k ks ↔ x = k ∨ x ∈ ks := by
  induction ks with
  | nil => simp [insertKey]
  | cons y ys ih =>
    unfold insertKey
    split
    · simp
    · split
      · subst_vars; simp
      · simp only [List.mem_cons, ih]; tauto

@[simp] theorem mem_removeKey (k x : Nat) (ks : List Nat) : x ∈ removeKey k ks ↔ x ∈ ks ∧ x ≠ k := by
  simp [removeKey]

theorem insertKey_pairwise (k : Nat) (ks : List Nat) (h : ks.Pairwise (fun x y => x < y)) :
    (insertKey k ks).Pairwise (fun x y => x < y) := by
  induction ks with
  | nil => simp [insertKey]
  | cons y ys ih =>
    have hy := List.pairwise_cons.1 h
    unfold insertKey
    split
    · rename_i hk
      refine List.pairwise_cons.2 ⟨?_, h⟩
      intro x hx
      rcases List.mem_cons.1 hx with rfl | hx
      · exact hk
      · exact Nat.lt_trans hk (hy.1 x hx)
    · split
      · exact h
      · refine List.pairwise_cons.2 ⟨?_, ih hy.2⟩
        intro x hx
        rcases (mem_insertKey k x ys).1 hx with rfl | hx
        · omega
        · exact hy.1 x hx

theorem removeKey_pairwise (k : Nat) (ks : List Nat) (h : ks.Pairwise (fun x y => x < y)) :
    (removeKey k ks).Pairwise (fun x y => x < y) :=
  List.Pairwise.filter _ h

theorem wordKey_lt (a : Word) : wordKey a < 2 ^ 30 := by
  have := a.isLt
  unfold wordKey
  omega

theorem isReserved_iff (s : State) (a : Word) : s.isReserved a = true ↔ wordKey a ∈ s.reservations := by
  simp [State.isReserved]

end Sys2Proof.Machine
end

