-- ==== Sys2Proof/Laws/Decode.lean ====
section
/-! SUPPORT. The byte decoder in terms of the word decoder. -/

namespace Sys2Proof

/-- The four bytes of a word, lowest first, decode as the word does. -/
theorem decode_leBytes (w : Word) (rest : List Byte) :
    decode (leBytes 4 w.toNat ++ rest) =
      match decodeWord w with
      | .ok i => .ok (i, rest)
      | .error r => .error r := by
  have h : BitVec.ofNat 32 (leValue (leBytes 4 w.toNat)) = w := by
    rw [leValue_leBytes]
    apply BitVec.eq_of_toNat_eq
    have := w.isLt
    simp only [BitVec.toNat_ofNat]
    omega
  show (match decodeWord (BitVec.ofNat 32 (leValue (leBytes 4 w.toNat))) with
      | .ok i => Except.ok (i, rest)
      | .error r => .error r) = _
  rw [h]

/-- Any four bytes decode as the word they hold. -/
theorem decode_four (b0 b1 b2 b3 : Byte) :
    decode [b0, b1, b2, b3] =
      match decodeWord (BitVec.ofNat 32 (leValue [b0, b1, b2, b3])) with
      | .ok i => .ok (i, [])
      | .error r => .error r := rfl

end Sys2Proof
end

