-- ==== Sys2Proof/Laws/Ops.lean ====
section
/-! SUPPORT. One lemma per shared operation that says everything it can do: the bus accesses, the
misaligned ones, the trap entry, the ends of the instructions. Later proofs cite these and do not unfold
the operations. -/

namespace Sys2Proof.Machine

/-! ## Reading registers after a write -/

/-- What rd reads after a write to it. -/
theorem reg_setReg_rd (s : State) (rd : Reg) (v : Word) :
    (s.setReg rd v).reg rd = if rd = 0#5 then 0#32 else v := by
  by_cases h : rd = 0#5
  · subst h; simp
  · simp [reg_setReg_same, h]

/-- A register write changes nothing but that register, whatever draws were used before it. -/
theorem onlyReg_setReg {s t : State} (rd : Reg) (v : Word) (h : t = s ∨ t = s.useDraw) :
    OnlyReg rd s (t.setReg rd v) := by
  have e : ∀ u : State, OnlyReg rd u (u.setReg rd v) := fun u =>
    { regs := fun r hr => reg_setReg_ne u rd r v hr
      zero := by simp
      pc := by simp
      nextPc := by simp
      csrs := by simp [SameCsrs]
      reservations := by simp
      memory := by simp [SameMemory]
      platform := by simp [SamePlatform] }
  rcases h with rfl | rfl
  · exact e t
  · have := e s.useDraw
    exact
      { regs := fun r hr => by rw [this.regs r hr]; simp
        zero := by simp
        pc := by simp
        nextPc := by simp
        csrs := by simp [SameCsrs]
        reservations := by simp
        memory := by simp [SameMemory]
        platform := by simp [SamePlatform] }

theorem writesReg_of {i : Instr} {rd : Reg} {v : Word} {s t : State} (h : t = s ∨ t = s.useDraw)
    (e : exec i s = .next (t.setReg rd v)) : WritesReg i rd v s :=
  ⟨_, e, reg_setReg_rd t rd v, onlyReg_setReg rd v h⟩

/-! ## Pages -/

/-- An aligned access of 1, 2 or 4 bytes lies in one page (R228). -/
theorem pageOf_add {a n i : Nat} (hn : n ∈ [1, 2, 4]) (ha : a % n = 0) (hi : i < n) :
    pageOf (a + i) = pageOf a := by
  unfold pageOf pageBytes
  simp only [List.mem_cons, List.not_mem_nil, or_false] at hn
  rcases hn with rfl | rfl | rfl <;> omega

theorem ownerAt_of_page {s : State} {a b : Nat} (h : pageOf a = pageOf b) :
    s.ownerAt a = s.ownerAt b := by
  unfold State.ownerAt
  rw [h]

theorem ownerAt_add (s : State) {a n i : Nat} (hn : n ∈ [1, 2, 4]) (ha : a % n = 0) (hi : i < n) :
    s.ownerAt (a + i) = s.ownerAt a :=
  ownerAt_of_page (pageOf_add hn ha hi)

theorem isRamByte_congr {s t : State} {a b : Nat} (h : t.ownerAt b = s.ownerAt a) :
    t.isRamByte b = s.isRamByte a := by
  unfold State.isRamByte
  rw [h]

theorem byteAt_unmapped {s : State} {a : Nat} (h : s.ownerAt a = none) : s.byteAt a = 0#8 := by
  simp [State.byteAt, h]

theorem byteAt_buffer {s : State} {a : Nat} {p : Peripheral} (h : s.ownerAt a = some p)
    (hk : p.kind ≠ .device) : s.byteAt a = s.mem.read a := by
  unfold State.byteAt
  rw [h]
  cases hp : p.kind <;> simp_all

theorem byteAt_device {s : State} {a : Nat} {p : Peripheral} (h : s.ownerAt a = some p)
    (hk : p.kind = .device) : s.byteAt a = 0#8 := by
  simp [State.byteAt, h, hk]

/-- Two states with the same page map and the same listed byte at `a` hold the same byte there. -/
theorem byteAt_congr {s t : State} {a : Nat} (ho : t.ownerAt a = s.ownerAt a)
    (hm : t.mem.read a = s.mem.read a) : t.byteAt a = s.byteAt a := by
  unfold State.byteAt
  rw [ho, hm]

/-! ## Values of consecutive bytes -/

theorem valueAt_congr {s t : State} : ∀ (n a : Nat), (∀ i < n, t.byteAt (a + i) = s.byteAt (a + i)) →
    t.valueAt a n = s.valueAt a n
  | 0, _, _ => rfl
  | n + 1, a, h => by
    have h0 := h 0 (by omega)
    rw [Nat.add_zero] at h0
    simp only [State.valueAt]
    rw [h0, valueAt_congr n (a + 1)]
    intro i hi
    have := h (i + 1) (by omega)
    rwa [show a + (i + 1) = a + 1 + i by omega] at this

theorem valueAt_zero {s : State} : ∀ (n a : Nat), (∀ i < n, s.byteAt (a + i) = 0#8) →
    s.valueAt a n = 0
  | 0, _, _ => rfl
  | n + 1, a, h => by
    have h0 := h 0 (by omega)
    rw [Nat.add_zero] at h0
    simp only [State.valueAt]
    rw [h0, valueAt_zero n (a + 1)]
    · rfl
    · intro i hi
      have := h (i + 1) (by omega)
      rwa [show a + (i + 1) = a + 1 + i by omega] at this

theorem valueAt_readBytes {s : State} : ∀ (n a : Nat),
    (∀ i < n, s.byteAt (a + i) = s.mem.read (a + i)) → leValue (s.mem.readBytes a n) = s.valueAt a n
  | 0, _, _ => rfl
  | n + 1, a, h => by
    have h0 := h 0 (by omega)
    rw [Nat.add_zero] at h0
    simp only [State.valueAt, Memory.readBytes, leValue]
    rw [h0, valueAt_readBytes n (a + 1)]
    intro i hi
    have := h (i + 1) (by omega)
    rwa [show a + (i + 1) = a + 1 + i by omega] at this

theorem valueAt_lt (s : State) : ∀ (n a : Nat), s.valueAt a n < 256 ^ n
  | 0, _ => by simp [State.valueAt]
  | n + 1, a => by
    have := valueAt_lt s n (a + 1)
    have hb : (s.byteAt a).toNat < 256 := (s.byteAt a).isLt
    simp only [State.valueAt, Nat.pow_succ]
    omega

/-- The bytes that hold a number give it back. -/
theorem valueAt_of_bytes {s : State} : ∀ (n a v : Nat),
    (∀ i < n, s.byteAt (a + i) = BitVec.ofNat 8 (v / 256 ^ i)) → s.valueAt a n = v % 256 ^ n
  | 0, _, v, _ => by simp [State.valueAt, Nat.mod_one]
  | n + 1, a, v, h => by
    have h0 := h 0 (by omega)
    rw [Nat.add_zero] at h0
    simp only [State.valueAt]
    rw [h0, valueAt_of_bytes n (a + 1) (v / 256)]
    · have e : (BitVec.ofNat 8 (v / 256 ^ 0)).toNat = v % 256 := by simp
      rw [e, Nat.pow_succ, Nat.mul_comm (256 ^ n), Nat.mod_mul]
    · intro i hi
      have := h (i + 1) (by omega)
      rw [show a + 1 + i = a + (i + 1) by omega, this, Nat.div_div_eq_div_mul, Nat.pow_succ,
        Nat.mul_comm]

/-! ## Bus reads (R230) -/

/-- A bus read away from devices gives the bytes' value and changes nothing. -/
theorem busRead_memory {s : State} {a : Word} {n : Nat} (hn : n ∈ [1, 2, 4]) (ha : a.toNat % n = 0)
    (hd : s.isDevicePage a.toNat = false) :
    s.busRead a n = (BitVec.ofNat 32 (s.valueAt a.toNat n), s) := by
  have own : ∀ i < n, s.ownerAt (a.toNat + i) = s.ownerAt a.toNat := fun i hi => ownerAt_add s hn ha hi
  unfold State.busRead
  cases ho : s.ownerAt a.toNat with
  | none =>
    have : s.valueAt a.toNat n = 0 :=
      valueAt_zero n _ fun i hi => byteAt_unmapped (by rw [own i hi, ho])
    simp [this]
  | some p =>
    have hk : p.kind ≠ .device := by
      intro h
      simp [State.isDevicePage, ho, h] at hd
    have : leValue (s.mem.readBytes a.toNat n) = s.valueAt a.toNat n :=
      valueAt_readBytes n _ fun i hi => byteAt_buffer (by rw [own i hi, ho]) hk
    cases hp : p.kind <;> simp_all

theorem busRead_device {s : State} {a : Word} {n : Nat} (hd : s.isDevicePage a.toNat = true) :
    s.busRead a n = (s.drawn n, s.useDraw) := by
  unfold State.isDevicePage at hd
  unfold State.busRead
  cases ho : s.ownerAt a.toNat with
  | none => rw [ho] at hd; cases hd
  | some p =>
    rw [ho] at hd
    have hk : p.kind = .device := by simpa using hd
    simp only [hk]

/-- A bus read leaves the state as it was, or uses one draw. -/
theorem busRead_state (s : State) (a : Word) (n : Nat) :
    (s.busRead a n).2 = s ∨ (s.busRead a n).2 = s.useDraw := by
  unfold State.busRead
  split
  · exact .inl rfl
  · split <;> simp

theorem drawn_lt (s : State) (n : Nat) : (s.drawn n).toNat < 256 ^ n := by
  unfold State.drawn
  simp only [BitVec.toNat_ofNat]
  exact Nat.lt_of_le_of_lt (Nat.mod_le _ _) (Nat.mod_lt _ (by positivity))

/-! ## MemRead -/

theorem misaligned_iff (a : Word) (n : Nat) : misaligned a n = true ↔ a.toNat % n ≠ 0 := by
  simp [misaligned]

theorem memRead_aligned {s : State} {a : Word} {n : Nat} (h : a.toNat % n = 0) :
    s.memRead a n = .ok (s.busRead a n) := by
  simp [State.memRead, misaligned, h]

theorem memRead_fault {s : State} {a : Word} {n : Nat} (h : a.toNat % n ≠ 0)
    (hc : s.cfg.misalignedData = .fault) : s.memRead a n = .error .misalignedData := by
  simp [State.memRead, misaligned, h, hc]

theorem memRead_draw {s : State} {a : Word} {n : Nat} (h : a.toNat % n ≠ 0)
    (hc : s.cfg.misalignedData = .draw) : s.memRead a n = .ok (s.drawn n, s.useDraw) := by
  simp [State.memRead, misaligned, h, hc]

/-- Everything MemRead can do. -/
theorem memRead_cases (s : State) (a : Word) (n : Nat) :
    (s.memRead a n = .error .misalignedData ∧ a.toNat % n ≠ 0 ∧ s.cfg.misalignedData = .fault)
      ∨ ∃ v t, s.memRead a n = .ok (v, t) ∧ (t = s ∨ t = s.useDraw)
          ∧ ¬ (a.toNat % n ≠ 0 ∧ s.cfg.misalignedData = .fault) := by
  by_cases h : a.toNat % n = 0
  · exact .inr ⟨_, _, memRead_aligned h, busRead_state s a n, fun hh => hh.1 h⟩
  · cases hc : s.cfg.misalignedData with
    | fault => exact .inl ⟨memRead_fault h hc, h, rfl⟩
    | draw => exact .inr ⟨_, _, memRead_draw h hc, .inr rfl, fun hh => by cases hh.2⟩

/-! ## Bus writes (R231, R252) -/

@[simp] theorem deliverWrite_reservations' (s : State) (a : Word) (n : Nat) (v : Word) :
    (s.deliverWrite a n v).reservations = s.reservations := by
  unfold State.deliverWrite
  split
  · rfl
  · split <;> rfl

theorem mem_deliverWrite_ram {s : State} {a : Word} {n : Nat} {v : Word}
    (h : s.isRamByte a.toNat = true) :
    (s.deliverWrite a n v).mem = s.mem.writeBytes a.toNat (leBytes n v.toNat) := by
  unfold State.isRamByte at h
  unfold State.deliverWrite
  cases ho : s.ownerAt a.toNat with
  | none => rw [ho] at h; cases h
  | some p =>
    rw [ho] at h
    have hk : p.kind = .ram := by simpa using h
    simp only [hk]

theorem mem_deliverWrite_not_ram {s : State} {a : Word} {n : Nat} {v : Word}
    (h : s.isRamByte a.toNat = false) : (s.deliverWrite a n v).mem = s.mem := by
  unfold State.isRamByte at h
  unfold State.deliverWrite
  split
  · rfl
  · rename_i p ho
    rw [ho] at h
    have : p.kind ≠ .ram := by simpa using h
    cases hp : p.kind <;> simp_all

theorem deviceWrites_deliverWrite (s : State) (a : Word) (n : Nat) (v : Word) :
    (s.deliverWrite a n v).deviceWrites =
      if s.isDevicePage a.toNat then
        s.deviceWrites ++ [⟨a, n, BitVec.ofNat 32 (v.toNat % 256 ^ n)⟩]
      else s.deviceWrites := by
  unfold State.deliverWrite State.isDevicePage
  cases s.ownerAt a.toNat with
  | none => simp
  | some p => cases hp : p.kind <;> simp [hp]

/-- Everything an aligned bus write does. The value may be given as any number with the same low bytes. -/
theorem busWrite_stored {s : State} {a : Word} {n : Nat} {v w : Word} (hn : n ∈ [1, 2, 4])
    (ha : a.toNat % n = 0) (hm : s.mem.wf) (hv : v.toNat % 256 ^ n = w.toNat % 256 ^ n) :
    StoredBytes a n w s (s.busWrite a n v) := by
  have own : ∀ b, (s.busWrite a n v).ownerAt b = s.ownerAt b := fun b => by simp
  have hram : ∀ b, (s.clearReservation (wordKey a)).isRamByte b = s.isRamByte b := fun b =>
    rfl
  have memRam : s.isRamByte a.toNat = true →
      (s.busWrite a n v).mem = s.mem.writeBytes a.toNat (leBytes n v.toNat) := fun h =>
    mem_deliverWrite_ram (s := s.clearReservation (wordKey a)) h
  have memNot : s.isRamByte a.toNat = false → (s.busWrite a n v).mem = s.mem := fun h =>
    mem_deliverWrite_not_ram (s := s.clearReservation (wordKey a)) h
  refine ⟨?_, ?_, ?_, ?_, ?_⟩
  · intro i hi h
    have hp : ∃ p, s.ownerAt a.toNat = some p ∧ p.kind = .ram := by
      unfold State.isRamByte at h
      split at h
      · cases h
      · rename_i p ho; exact ⟨p, ho, by simpa using h⟩
    obtain ⟨p, ho, hk⟩ := hp
    have ho' : (s.busWrite a n v).ownerAt (a.toNat + i) = some p := by
      rw [own, ownerAt_add s hn ha hi, ho]
    rw [byteAt_buffer ho' (by rw [hk]; decide), memRam h,
      Memory.read_writeBytes_of_inside _ _ _ _ hm (by simpa using hi), leBytes_getElem]
    apply BitVec.eq_of_toNat_eq
    have key : ∀ x : Nat, x / 256 ^ i % 256 = x % 256 ^ n / 256 ^ i % 256 := by
      intro x
      obtain ⟨d, hd⟩ : ∃ d, n = i + 1 + d := ⟨n - (i + 1), by omega⟩
      subst hd
      rw [Nat.pow_add, Nat.pow_succ, Nat.mul_assoc, Nat.mod_mul, Nat.add_mul_div_left _ _ (by positivity),
        Nat.div_eq_of_lt (Nat.mod_lt _ (by positivity)), Nat.zero_add, Nat.mod_mul_right_mod]
    simp only [BitVec.toNat_ofNat]
    show v.toNat / 256 ^ i % 256 = w.toNat / 256 ^ i % 256
    rw [key v.toNat, key w.toNat, hv]
  · intro h b
    exact byteAt_congr (own b) (by rw [memNot h])
  · intro b hb
    refine byteAt_congr (own b) ?_
    cases h : s.isRamByte a.toNat with
    | false => rw [memNot h]
    | true =>
      rw [memRam h, Memory.read_writeBytes_of_outside]
      unfold inAccess at hb
      rw [length_leBytes]
      omega
  · intro k
    show k ∈ (s.busWrite a n v).reservations ↔ _
    unfold State.busWrite
    rw [deliverWrite_reservations']
    show k ∈ removeKey (wordKey a) s.reservations ↔ _
    rw [mem_removeKey]
    rfl
  · have := deviceWrites_deliverWrite (s.clearReservation (wordKey a)) a n v
    show (State.deliverWrite (s.clearReservation (wordKey a)) a n v).deviceWrites = _
    rw [this, hv]
    rfl

/-- A bus write changes no register, CSR, pc or next_pc, and not the platform. -/
theorem busWrite_onlyStored (s : State) (a : Word) (n : Nat) (v : Word) :
    OnlyStored s (s.busWrite a n v) :=
  { regs := fun r => by simp
    pc := by simp
    nextPc := by simp
    csrs := by simp [SameCsrs]
    platform := by simp [SamePlatform] }

/-! ## Scrambled words (R231 under Draw) -/

theorem scrambleByte_spec (s : State) (a : Nat) :
    (∀ b, b ≠ a ∨ s.isRamByte b = false → (s.scrambleByte a).byteAt b = s.byteAt b)
      ∧ (s.scrambleByte a).reservations = s.reservations
      ∧ (s.scrambleByte a).deviceWrites = s.deviceWrites
      ∧ (∀ b, (s.scrambleByte a).isRamByte b = s.isRamByte b) := by
  refine ⟨?_, ?_, ?_, ?_⟩
  · intro b hb
    have own : (s.scrambleByte a).ownerAt b = s.ownerAt b := by simp
    refine byteAt_congr own ?_
    unfold State.scrambleByte
    cases ho : s.ownerAt a with
    | none => rfl
    | some p =>
      cases hp : p.kind with
      | rom => simp [hp]
      | device => simp [hp]
      | ram =>
        simp only [hp]
        refine Memory.read_write_ne _ _ _ _ ?_
        rcases hb with hb | hb
        · exact hb
        · rintro rfl
          simp [State.isRamByte, ho, hp] at hb
  · unfold State.scrambleByte
    split
    · rfl
    · split <;> rfl
  · unfold State.scrambleByte
    split
    · rfl
    · split <;> rfl
  · intro b
    exact isRamByte_congr (by simp)

/-- One aligned word scrambled: its RAM bytes only, and its key. -/
theorem scrambleWord_spec (s : State) (k : Nat) :
    (∀ b, b / 4 ≠ k ∨ s.isRamByte b = false → (s.scrambleWord k).byteAt b = s.byteAt b)
      ∧ (∀ x, x ∈ (s.scrambleWord k).reservations ↔ x ∈ s.reservations ∧ x ≠ k)
      ∧ (s.scrambleWord k).deviceWrites = s.deviceWrites
      ∧ (∀ b, (s.scrambleWord k).isRamByte b = s.isRamByte b) := by
  obtain ⟨b1, r1, d1, m1⟩ := scrambleByte_spec (s.clearReservation k) (4 * k)
  obtain ⟨b2, r2, d2, m2⟩ := scrambleByte_spec ((s.clearReservation k).scrambleByte (4 * k)) (4 * k + 1)
  obtain ⟨b3, r3, d3, m3⟩ := scrambleByte_spec
    (((s.clearReservation k).scrambleByte (4 * k)).scrambleByte (4 * k + 1)) (4 * k + 2)
  obtain ⟨b4, r4, d4, m4⟩ := scrambleByte_spec
    ((((s.clearReservation k).scrambleByte (4 * k)).scrambleByte (4 * k + 1)).scrambleByte (4 * k + 2))
    (4 * k + 3)
  have m0 : ∀ b, (s.clearReservation k).isRamByte b = s.isRamByte b := fun b => rfl
  have b0 : ∀ b, (s.clearReservation k).byteAt b = s.byteAt b := fun b => rfl
  unfold State.scrambleWord
  refine ⟨?_, ?_, ?_, ?_⟩
  · intro b hb
    rw [b4 b (by rw [m3, m2, m1, m0]; rcases hb with h | h <;> [left; right] <;> [omega; exact h]),
      b3 b (by rw [m2, m1, m0]; rcases hb with h | h <;> [left; right] <;> [omega; exact h]),
      b2 b (by rw [m1, m0]; rcases hb with h | h <;> [left; right] <;> [omega; exact h]),
      b1 b (by rw [m0]; rcases hb with h | h <;> [left; right] <;> [omega; exact h]), b0]
  · intro x
    rw [r4, r3, r2, r1]
    exact mem_removeKey k x s.reservations
  · rw [d4, d3, d2, d1]; rfl
  · intro b
    rw [m4, m3, m2, m1, m0]

theorem scrambleWords_spec (ks : List Nat) : ∀ s : State,
    let t := ks.foldl State.scrambleWord s
    (∀ b, b / 4 ∉ ks ∨ s.isRamByte b = false → t.byteAt b = s.byteAt b)
      ∧ (∀ x, x ∈ t.reservations ↔ x ∈ s.reservations ∧ x ∉ ks)
      ∧ t.deviceWrites = s.deviceWrites
      ∧ (∀ b, t.isRamByte b = s.isRamByte b)
      ∧ OnlyStored s t := by
  induction ks with
  | nil =>
    intro s
    refine ⟨fun b _ => rfl, by simp, rfl, fun b => rfl, ⟨fun r => rfl, rfl, rfl, ?_, rfl, rfl⟩⟩
    simp [SameCsrs]
  | cons k ks ih =>
    intro s
    obtain ⟨ib, ir, id, im, io⟩ := ih (s.scrambleWord k)
    obtain ⟨sb, sr, sd, sm⟩ := scrambleWord_spec s k
    refine ⟨?_, ?_, ?_, ?_, ?_⟩
    · intro b hb
      have h1 : b / 4 ∉ ks ∨ (s.scrambleWord k).isRamByte b = false := by
        rw [sm]
        rcases hb with h | h
        · exact .inl fun hh => h (List.mem_cons_of_mem _ hh)
        · exact .inr h
      have h2 : b / 4 ≠ k ∨ s.isRamByte b = false := by
        rcases hb with h | h
        · exact .inl fun hh => h (by simp [hh])
        · exact .inr h
      rw [List.foldl_cons, ib b h1, sb b h2]
    · intro x
      rw [List.foldl_cons, ir, sr]
      simp only [List.mem_cons, not_or]
      tauto
    · rw [List.foldl_cons, id, sd]
    · intro b
      rw [List.foldl_cons, im, sm]
    · rw [List.foldl_cons]
      obtain ⟨r, pc, np, cs, pl⟩ := io
      refine ⟨fun q => by rw [r q]; simp, by rw [pc]; simp, by rw [np]; simp, ?_, ?_⟩
      · simpa [SameCsrs] using cs
      · simpa [SamePlatform] using pl

/-- The words that hold a byte of an access of at most four bytes: its first and last byte's (log 26). -/
theorem mem_wordsTouched {a : Word} {n k : Nat} (hn : n ∈ [1, 2, 4]) :
    k ∈ wordsTouched a n ↔ ∃ j < n, k = (a + BitVec.ofNat 32 j).toNat / 4 := by
  have key : k ∈ wordsTouched a n ↔ k = wordKey a ∨ k = wordKey (a + BitVec.ofNat 32 (n - 1)) := by
    unfold wordsTouched
    simp only
    split
    · rename_i h
      rw [← h]
      simp
    · simp
  rw [key]
  have ha := a.isLt
  simp only [wordKey, BitVec.toNat_add, BitVec.toNat_ofNat]
  simp only [List.mem_cons, List.not_mem_nil, or_false] at hn
  constructor
  · rintro (h | h)
    · refine ⟨0, ?_, ?_⟩
      · rcases hn with rfl | rfl | rfl <;> decide
      · rw [h]
        show a.toNat / 4 = (a.toNat + 0) % 2 ^ 32 / 4
        rw [Nat.add_zero, Nat.mod_eq_of_lt ha]
    · refine ⟨n - 1, ?_, h⟩
      rcases hn with rfl | rfl | rfl <;> decide
  · rintro ⟨j, hj, h⟩
    rcases hn with rfl | rfl | rfl <;> omega

theorem scrambled_of_draw {s : State} {a : Word} {n : Nat} (hn : n ∈ [1, 2, 4]) :
    Scrambled a n s ((wordsTouched a n).foldl State.scrambleWord s) := by
  obtain ⟨hb, hr, hd, -, -⟩ := scrambleWords_spec (wordsTouched a n) s
  have key : ∀ k, k ∉ wordsTouched a n ↔ ∀ j < n, k ≠ (a + BitVec.ofNat 32 j).toNat / 4 := by
    intro k
    rw [mem_wordsTouched hn]
    simp only [not_exists, not_and]
  refine ⟨fun b hb' => hb b ?_, fun k => ?_, hd⟩
  · rw [key]; tauto
  · rw [hr, key]

/-! ## MemWrite -/

theorem memWrite_aligned {s : State} {a : Word} {n : Nat} {v : Word} (h : a.toNat % n = 0) :
    s.memWrite a n v = .ok (s.busWrite a n v) := by
  simp [State.memWrite, misaligned, h]

theorem memWrite_fault {s : State} {a : Word} {n : Nat} {v : Word} (h : a.toNat % n ≠ 0)
    (hc : s.cfg.misalignedData = .fault) : s.memWrite a n v = .error .misalignedData := by
  simp [State.memWrite, misaligned, h, hc]

theorem memWrite_draw {s : State} {a : Word} {n : Nat} {v : Word} (h : a.toNat % n ≠ 0)
    (hc : s.cfg.misalignedData = .draw) :
    s.memWrite a n v = .ok ((wordsTouched a n).foldl State.scrambleWord s) := by
  simp [State.memWrite, misaligned, h, hc]

/-- Everything MemWrite can do: fault, write on the bus, or scramble. -/
theorem memWrite_cases (s : State) (a : Word) (n : Nat) (v : Word) :
    (s.memWrite a n v = .error .misalignedData ∧ a.toNat % n ≠ 0 ∧ s.cfg.misalignedData = .fault)
      ∨ (s.memWrite a n v = .ok (s.busWrite a n v) ∧ a.toNat % n = 0)
      ∨ (s.memWrite a n v = .ok ((wordsTouched a n).foldl State.scrambleWord s) ∧ a.toNat % n ≠ 0
          ∧ s.cfg.misalignedData = .draw) := by
  by_cases h : a.toNat % n = 0
  · exact .inr (.inl ⟨memWrite_aligned h, h⟩)
  · cases hc : s.cfg.misalignedData with
    | fault => exact .inl ⟨memWrite_fault h hc, h, rfl⟩
    | draw => exact .inr (.inr ⟨memWrite_draw h hc, h, rfl⟩)

end Sys2Proof.Machine
end

