-- ==== Sys2Proof/Laws/Exec.lean ====
section
/-! SUPPORT. Everything an instruction can do, said once: `Effect i s t` lists the shapes of the next
states, and `exec_effect` says that there are no others. The invariants and the whole-machine rules
go by cases on it. -/

namespace Sys2Proof.Machine

/-- The next states of an instruction, by what was done to the state. -/
inductive Effect (i : Instr) (s : State) : State → Prop
  | nothing : Effect i s s
  | writes (rd : Reg) (v : Word) (u : State) : destination i = some rd → (u = s ∨ u = s.useDraw) →
      Effect i s (u.setReg rd v)
  | jumps (rd : Reg) (v a : Word) : destination i = some rd → setsNextPc i = true →
      Effect i s ((s.setNextPc a).setReg rd v)
  | branches (a : Word) : setsNextPc i = true → Effect i s (s.setNextPc a)
  | traps (c : TrapCause) : setsNextPc i = true →
      (i = .scall ∨ i = .sbreak ∨ isCsrInstr i = true) → Effect i s (s.raiseTrap c)
  | csrTraps (rd : Reg) (old : Word) : destination i = some rd → isCsrInstr i = true →
      Effect i s (s.csrWriteTrap rd old)
  | returns : i = .eret → Effect i s s.returnFromTrap
  | csrWrites (rd : Reg) (v : Word) (c : Csr) (new : Word) : destination i = some rd →
      isCsrInstr i = true → Effect i s ((s.setReg rd v).csrWrite c new)
  | reserves (rd rs1 : Reg) (v : Word) (u : State) : i = .lrW rd rs1 → (u = s ∨ u = s.useDraw) →
      Effect i s ((u.reserve (s.reg rs1)).setReg rd v)
  | stores (a : Word) (n : Nat) (v : Word) (t : State) : n ∈ [1, 2, 4] → writesMemory i = true →
      dataAccess i s = some (a, n) → s.memWrite a n v = .ok t → Effect i s t
  | conditional (rd : Reg) (a v : Word) (t : State) : destination i = some rd →
      writesMemory i = true → dataAccess i s = some (a, 4) → s.memWrite a 4 v = .ok t →
      Effect i s (t.scSucceeded rd)
  | updates (rd : Reg) (old a v : Word) (u t : State) : destination i = some rd →
      (u = s ∨ u = s.useDraw) → writesMemory i = true → dataAccess i s = some (a, 4) →
      (u.setReg rd old).memWrite a 4 v = .ok t → Effect i s t

/-- A load's end. -/
theorem loadTo_effect {i : Instr} {s t : State} {rd : Reg} {a : Word} {n : Nat} {f : Word → Word}
    (hd : destination i = some rd) (h : s.loadTo rd a n f = .next t) : Effect i s t := by
  unfold State.loadTo at h
  rcases memRead_cases s a n with ⟨e, -⟩ | ⟨v, u, e, hu, -⟩
  · rw [e] at h; cases h
  · rw [e] at h
    cases h
    exact .writes rd (f v) u hd hu

/-- A store's end. -/
theorem storeFrom_next {s t : State} {a : Word} {n : Nat} {v : Word} (h : s.storeFrom a n v = .next t) :
    s.memWrite a n v = .ok t := by
  unfold State.storeFrom at h
  split at h
  · cases h; assumption
  · cases h

theorem readModifyWrite_effect {i : Instr} {s t : State} {rd rs1 rs2 : Reg} {f : Word → Word → Word}
    (hd : destination i = some rd) (hw : writesMemory i = true)
    (ha : dataAccess i s = some (s.reg rs1, 4)) (h : s.readModifyWrite rd rs1 rs2 f = .next t) :
    Effect i s t := by
  unfold State.readModifyWrite at h
  rcases memRead_cases s (s.reg rs1) 4 with ⟨e, -⟩ | ⟨v, u, e, hu, -⟩
  · rw [e] at h; cases h
  · rw [e] at h
    exact .updates rd v _ _ u t hd hu hw ha (storeFrom_next h)

/-- Everything a CSR instruction can do. -/
theorem csrAccess_effect {i : Instr} {s : State} {rd : Reg} {a : CsrAddr} {w : Bool}
    {new : Word → Word} (hd : destination i = some rd) (hc : isCsrInstr i = true)
    (hs : setsNextPc i = true) : Effect i s (s.csrAccess rd a w new) := by
  unfold State.csrAccess
  cases csrOfAddr a with
  | none => exact .traps _ hs (.inr (.inr hc))
  | some c =>
    cases w with
    | false => exact .writes rd _ s hd (.inl rfl)
    | true =>
      simp only [if_true]
      split
      · exact .csrTraps rd _ hd hc
      · exact .csrWrites rd _ c _ hd hc

theorem branchIf_effect {i : Instr} {s : State} {c : Bool} {imm : BitVec 13}
    (hs : setsNextPc i = true) : Effect i s (s.branchIf c imm) := by
  unfold State.branchIf
  split
  · exact .branches _ hs
  · exact .nothing

/-- Every next state of an instruction is one of the listed shapes. -/
theorem exec_effect {i : Instr} {s t : State} (h : exec i s = .next t) : Effect i s t := by
  cases i with
  | lui rd imm => cases h; exact .writes rd _ s rfl (.inl rfl)
  | auipc rd imm => cases h; exact .writes rd _ s rfl (.inl rfl)
  | jal rd imm => cases h; exact .jumps rd _ _ rfl rfl
  | jalr rd rs1 imm => cases h; exact .jumps rd _ _ rfl rfl
  | beq rs1 rs2 imm => cases h; exact branchIf_effect rfl
  | bne rs1 rs2 imm => cases h; exact branchIf_effect rfl
  | blt rs1 rs2 imm => cases h; exact branchIf_effect rfl
  | bge rs1 rs2 imm => cases h; exact branchIf_effect rfl
  | bltu rs1 rs2 imm => cases h; exact branchIf_effect rfl
  | bgeu rs1 rs2 imm => cases h; exact branchIf_effect rfl
  | lb rd rs1 imm => exact loadTo_effect rfl h
  | lh rd rs1 imm => exact loadTo_effect rfl h
  | lw rd rs1 imm => exact loadTo_effect rfl h
  | lbu rd rs1 imm => exact loadTo_effect rfl h
  | lhu rd rs1 imm => exact loadTo_effect rfl h
  | sb rs1 rs2 imm => exact .stores _ 1 _ t (by decide) rfl rfl (storeFrom_next h)
  | sh rs1 rs2 imm => exact .stores _ 2 _ t (by decide) rfl rfl (storeFrom_next h)
  | sw rs1 rs2 imm => exact .stores _ 4 _ t (by decide) rfl rfl (storeFrom_next h)
  | addi rd rs1 imm => cases h; exact .writes rd _ s rfl (.inl rfl)
  | slti rd rs1 imm => cases h; exact .writes rd _ s rfl (.inl rfl)
  | sltiu rd rs1 imm => cases h; exact .writes rd _ s rfl (.inl rfl)
  | xori rd rs1 imm => cases h; exact .writes rd _ s rfl (.inl rfl)
  | ori rd rs1 imm => cases h; exact .writes rd _ s rfl (.inl rfl)
  | andi rd rs1 imm => cases h; exact .writes rd _ s rfl (.inl rfl)
  | slli rd rs1 shamt => cases h; exact .writes rd _ s rfl (.inl rfl)
  | srli rd rs1 shamt => cases h; exact .writes rd _ s rfl (.inl rfl)
  | srai rd rs1 shamt => cases h; exact .writes rd _ s rfl (.inl rfl)
  | add rd rs1 rs2 => cases h; exact .writes rd _ s rfl (.inl rfl)
  | sub rd rs1 rs2 => cases h; exact .writes rd _ s rfl (.inl rfl)
  | sll rd rs1 rs2 => cases h; exact .writes rd _ s rfl (.inl rfl)
  | slt rd rs1 rs2 => cases h; exact .writes rd _ s rfl (.inl rfl)
  | sltu rd rs1 rs2 => cases h; exact .writes rd _ s rfl (.inl rfl)
  | xor rd rs1 rs2 => cases h; exact .writes rd _ s rfl (.inl rfl)
  | srl rd rs1 rs2 => cases h; exact .writes rd _ s rfl (.inl rfl)
  | sra rd rs1 rs2 => cases h; exact .writes rd _ s rfl (.inl rfl)
  | or rd rs1 rs2 => cases h; exact .writes rd _ s rfl (.inl rfl)
  | and rd rs1 rs2 => cases h; exact .writes rd _ s rfl (.inl rfl)
  | fence => cases h; exact .nothing
  | fenceI => cases h; exact .nothing
  | scall => cases h; exact .traps _ rfl (.inl rfl)
  | sbreak => cases h; exact .traps _ rfl (.inr (.inl rfl))
  | eret => cases h; exact .returns rfl
  | csrrw rd rs1 csr => cases h; exact csrAccess_effect rfl rfl rfl
  | csrrs rd rs1 csr => cases h; exact csrAccess_effect rfl rfl rfl
  | csrrc rd rs1 csr => cases h; exact csrAccess_effect rfl rfl rfl
  | csrrwi rd uimm csr => cases h; exact csrAccess_effect rfl rfl rfl
  | csrrsi rd uimm csr => cases h; exact csrAccess_effect rfl rfl rfl
  | csrrci rd uimm csr => cases h; exact csrAccess_effect rfl rfl rfl
  | mul rd rs1 rs2 => cases h; exact .writes rd _ s rfl (.inl rfl)
  | mulh rd rs1 rs2 => cases h; exact .writes rd _ s rfl (.inl rfl)
  | mulhsu rd rs1 rs2 => cases h; exact .writes rd _ s rfl (.inl rfl)
  | mulhu rd rs1 rs2 => cases h; exact .writes rd _ s rfl (.inl rfl)
  | div rd rs1 rs2 => cases h; exact .writes rd _ s rfl (.inl rfl)
  | divu rd rs1 rs2 => cases h; exact .writes rd _ s rfl (.inl rfl)
  | rem rd rs1 rs2 => cases h; exact .writes rd _ s rfl (.inl rfl)
  | remu rd rs1 rs2 => cases h; exact .writes rd _ s rfl (.inl rfl)
  | lrW rd rs1 =>
    have h : execLrW rd rs1 s = .next t := h
    unfold execLrW at h
    rcases memRead_cases s (s.reg rs1) 4 with ⟨e, -⟩ | ⟨v, u, e, hu, -⟩
    · rw [e] at h; cases h
    · rw [e] at h
      cases h
      exact .reserves rd rs1 v u rfl hu
  | scW rd rs1 rs2 =>
    have h : execScW rd rs1 rs2 s = .next t := h
    unfold execScW at h
    split at h
    · rename_i hr
      split at h
      · cases h
      · rename_i u e
        cases h
        exact .conditional rd _ _ u rfl rfl (by simp [dataAccess, hr]) e
    · cases h
      exact .writes rd _ s rfl (.inl rfl)
  | amoswapW rd rs1 rs2 => exact readModifyWrite_effect (f := (fun _ src => src)) rfl rfl rfl h
  | amoaddW rd rs1 rs2 => exact readModifyWrite_effect (f := (fun old src => old + src)) rfl rfl rfl h
  | amoxorW rd rs1 rs2 => exact readModifyWrite_effect (f := (fun old src => old ^^^ src)) rfl rfl rfl h
  | amoandW rd rs1 rs2 => exact readModifyWrite_effect (f := (fun old src => old &&& src)) rfl rfl rfl h
  | amoorW rd rs1 rs2 => exact readModifyWrite_effect (f := (fun old src => old ||| src)) rfl rfl rfl h
  | amominW rd rs1 rs2 => exact readModifyWrite_effect (f := signedMin) rfl rfl rfl h
  | amomaxW rd rs1 rs2 => exact readModifyWrite_effect (f := signedMax) rfl rfl rfl h
  | amominuW rd rs1 rs2 => exact readModifyWrite_effect (f := unsignedMin) rfl rfl rfl h
  | amomaxuW rd rs1 rs2 => exact readModifyWrite_effect (f := unsignedMax) rfl rfl rfl h

/-! ## Memory of an effect -/

/-- What MemWrite leaves of memory, the reservations and the rest, in every case. -/
theorem memWrite_spec {s t : State} {a : Word} {n : Nat} {v : Word} (hn : n ∈ [1, 2, 4])
    (h : s.memWrite a n v = .ok t) :
    OnlyStored s t
      ∧ (∀ b, t.byteAt b ≠ s.byteAt b → s.isRamByte b = true
          ∧ (a.toNat % n = 0 → inAccess a n b)
          ∧ (a.toNat % n ≠ 0 → ∃ j < n, b / 4 = (a + BitVec.ofNat 32 j).toNat / 4))
      ∧ (∀ k, k ∈ t.reservations → k ∈ s.reservations)
      ∧ (∀ k, k ∈ s.reservations → k ∉ t.reservations →
          ∃ j < n, k = (a + BitVec.ofNat 32 j).toNat / 4) := by
  rcases memWrite_cases s a n v with ⟨e, -⟩ | ⟨e, ha⟩ | ⟨e, ha, -⟩
  · rw [e] at h; cases h
  · rw [e] at h
    cases h
    refine ⟨busWrite_onlyStored s a n v, ?_, ?_, ?_⟩
    · intro b hb
      have hram : s.isRamByte a.toNat = true := by
        by_contra hr
        refine hb (byteAt_congr (by simp) ?_)
        show ((s.clearReservation (wordKey a)).deliverWrite a n v).mem.read b = _
        rw [mem_deliverWrite_not_ram (s := s.clearReservation (wordKey a))
          (show s.isRamByte a.toNat = false by simpa using hr)]
        rfl
      have hin : inAccess a n b := by
        by_contra hr
        refine hb (byteAt_congr (by simp) ?_)
        show ((s.clearReservation (wordKey a)).deliverWrite a n v).mem.read b = _
        rw [mem_deliverWrite_ram (s := s.clearReservation (wordKey a))
          (show s.isRamByte a.toNat = true from hram), Memory.read_writeBytes_of_outside]
        · rfl
        · unfold inAccess at hr
          rw [length_leBytes]
          omega
      refine ⟨?_, fun _ => hin, fun hh => absurd ha hh⟩
      have : b = a.toNat + (b - a.toNat) := by have := hin.1; omega
      rw [this, isRamByte_congr (ownerAt_add s hn ha (by have := hin.2; have := hin.1; omega))]
      exact hram
    · intro k hk
      have : k ∈ (s.clearReservation (wordKey a)).reservations := by
        rw [← deliverWrite_reservations' (s.clearReservation (wordKey a)) a n v]
        exact hk
      exact ((mem_removeKey _ _ _).1 this).1
    · intro k hk hn'
      have : k = wordKey a := by
        by_contra hne
        apply hn'
        show k ∈ ((s.clearReservation (wordKey a)).deliverWrite a n v).reservations
        rw [deliverWrite_reservations']
        exact (mem_removeKey _ _ _).2 ⟨hk, hne⟩
      refine ⟨0, ?_, ?_⟩
      · simp only [List.mem_cons, List.not_mem_nil, or_false] at hn; omega
      · rw [this]; simp [wordKey]
  · rw [e] at h
    cases h
    obtain ⟨hb, hr, -, -, ho⟩ := scrambleWords_spec (wordsTouched a n) s
    refine ⟨ho, ?_, ?_, ?_⟩
    · intro b hne
      refine ⟨?_, fun hh => absurd hh ha, fun _ => ?_⟩
      · by_contra h'
        exact hne (hb b (.inr (by simpa using h')))
      · rw [← mem_wordsTouched hn]
        by_contra h'
        exact hne (hb b (.inl h'))
    · intro k hk
      exact ((hr k).1 hk).1
    · intro k hk hn'
      rw [← mem_wordsTouched hn]
      by_contra h'
      exact hn' ((hr k).2 ⟨hk, h'⟩)

end Sys2Proof.Machine
end

