-- ==== Sys2Proof/Laws/Step.lean ====
section
/-! SUPPORT. Everything the fetch and the step can do, and the instruction placed where the next step
fetches. -/

namespace Sys2Proof.Machine

/-! ## The fetch (R232, R400) -/

theorem fetch_memory {s : State} (h : s.pc.toNat % 4 = 0) (hd : s.isDevicePage s.pc.toNat = false) :
    s.fetch = .ok (BitVec.ofNat 32 (s.valueAt s.pc.toNat 4), s) := by
  simp [State.fetch, misaligned, h, busRead_memory (by decide) h hd]

theorem fetch_fault {s : State} (h : s.pc.toNat % 4 ≠ 0) (hc : s.cfg.misalignedFetch = .fault) :
    s.fetch = .error .misalignedFetch := by
  simp [State.fetch, misaligned, h, hc]

theorem fetch_draw {s : State} (h : s.pc.toNat % 4 ≠ 0) (hc : s.cfg.misalignedFetch = .draw) :
    s.fetch = .ok (s.drawn 4, s.useDraw) := by
  simp [State.fetch, misaligned, h, hc]

theorem fetch_device {s : State} (h : s.pc.toNat % 4 = 0) (hd : s.isDevicePage s.pc.toNat = true) :
    s.fetch = .ok (s.drawn 4, s.useDraw) := by
  simp [State.fetch, misaligned, h, busRead_device hd]

/-- Everything the fetch can do. -/
theorem fetch_cases (s : State) :
    (s.fetch = .error .misalignedFetch ∧ s.pc.toNat % 4 ≠ 0 ∧ s.cfg.misalignedFetch = .fault)
      ∨ ∃ w u, s.fetch = .ok (w, u) ∧ (u = s ∨ u = s.useDraw)
          ∧ ¬ (s.pc.toNat % 4 ≠ 0 ∧ s.cfg.misalignedFetch = .fault) := by
  by_cases h : s.pc.toNat % 4 = 0
  · refine .inr ⟨(s.busRead s.pc 4).1, (s.busRead s.pc 4).2, ?_, busRead_state s s.pc 4, fun hh => hh.1 h⟩
    simp [State.fetch, misaligned, h]
  · cases hc : s.cfg.misalignedFetch with
    | fault => exact .inl ⟨fetch_fault h hc, h, rfl⟩
    | draw => exact .inr ⟨_, _, fetch_draw h hc, .inr rfl, fun hh => by cases hh.2⟩

/-! ## The step (R400) -/

/-- Everything a step with a successor did: a fetch, then an instruction or the illegal-instruction trap
on the state with next_pc at pc + 4, then the commit. -/
theorem step_next {s t : State} (h : step s = .next t) :
    ∃ w u r, s.fetch = .ok (w, u) ∧ (u = s ∨ u = s.useDraw) ∧ t = r.commit
      ∧ ((∃ i, decodeWord w = .ok i ∧ exec i u.startStep = .next r)
          ∨ r = u.startStep.raiseTrap .illegalInstruction) := by
  unfold step at h
  rcases fetch_cases s with ⟨e, -⟩ | ⟨w, u, e, hu, -⟩
  · rw [e] at h; cases h
  · rw [e] at h
    refine ⟨w, u, ?_⟩
    simp only [executeWord] at h
    cases hd : decodeWord w with
    | error r =>
      rw [hd] at h
      cases h
      exact ⟨_, e, hu, rfl, .inr rfl⟩
    | ok i =>
      rw [hd] at h
      simp only at h
      cases hx : exec i u.startStep with
      | next r =>
        rw [hx] at h
        cases h
        exact ⟨r, e, hu, rfl, .inl ⟨i, rfl, hx⟩⟩
      | fault f => rw [hx] at h; cases h
      | refused r => rw [hx] at h; cases h

/-- A step whose fetch succeeds. -/
theorem step_of_fetch {s u : State} {w : Word} (h : s.fetch = .ok (w, u)) :
    step s = commitOutcome (executeWord w u.startStep) := by
  simp only [step, h]

/-- A run's calls, one at a time. -/
theorem afterCalls_step (cs : List Call) (s : State) :
    afterCalls (.step :: cs) s = match step s with
      | .next t => afterCalls cs t
      | .fault f => .fault f
      | .refused r => .refused r := rfl

theorem afterCalls_interrupt (cs : List Call) (s : State) :
    afterCalls (.externalInterrupt :: cs) s = afterCalls cs s.externalInterrupt := rfl

theorem stepsIn_step (cs : List Call) : stepsIn (.step :: cs) = stepsIn cs + 1 := by
  simp [stepsIn]

theorem stepsIn_interrupt (cs : List Call) : stepsIn (.externalInterrupt :: cs) = stepsIn cs := by
  simp [stepsIn]

/-- n steps and one more. -/
theorem afterSteps_succ (n : Nat) (s : State) :
    afterSteps (n + 1) s = match step s with
      | .next t => afterSteps n t
      | .fault f => .fault f
      | .refused r => .refused r := rfl

/-- What the external interrupt leaves alone (R712). -/
theorem externalInterrupt_same (s : State) :
    SameRegs s s.externalInterrupt ∧ SameMemory s s.externalInterrupt ∧ SamePlatform s s.externalInterrupt
      ∧ s.externalInterrupt.instret = s.instret := by
  unfold State.externalInterrupt
  split <;> exact ⟨fun _ => rfl, ⟨fun _ => rfl, rfl⟩, ⟨rfl, rfl⟩, rfl⟩

/-! ## What an answer is, in every case -/

/-- An instruction answers a next state unless its data access is misaligned under Fault. -/
theorem loadTo_answers (s : State) (rd : Reg) (a : Word) (n : Nat) (f : Word → Word) :
    (s.loadTo rd a n f = .fault .misalignedData ∧ s.cfg.misalignedData = .fault ∧ a.toNat % n ≠ 0)
      ∨ ((∃ t, s.loadTo rd a n f = .next t)
          ∧ ¬ (s.cfg.misalignedData = .fault ∧ a.toNat % n ≠ 0)) := by
  unfold State.loadTo
  rcases memRead_cases s a n with ⟨e, h1, h2⟩ | ⟨v, u, e, -, h⟩
  · rw [e]; exact .inl ⟨rfl, h2, h1⟩
  · rw [e]; exact .inr ⟨⟨_, rfl⟩, fun hh => h ⟨hh.2, hh.1⟩⟩

theorem storeFrom_answers (s : State) (a : Word) (n : Nat) (v : Word) :
    (s.storeFrom a n v = .fault .misalignedData ∧ s.cfg.misalignedData = .fault ∧ a.toNat % n ≠ 0)
      ∨ ((∃ t, s.storeFrom a n v = .next t)
          ∧ ¬ (s.cfg.misalignedData = .fault ∧ a.toNat % n ≠ 0)) := by
  unfold State.storeFrom
  rcases memWrite_cases s a n v with ⟨e, h1, h2⟩ | ⟨e, h⟩ | ⟨e, h, hc⟩
  · rw [e]; exact .inl ⟨rfl, h2, h1⟩
  · rw [e]; exact .inr ⟨⟨_, rfl⟩, fun hh => hh.2 h⟩
  · rw [e]; exact .inr ⟨⟨_, rfl⟩, fun hh => by rw [hc] at hh; cases hh.1⟩

theorem readModifyWrite_answers (s : State) (rd rs1 rs2 : Reg) (f : Word → Word → Word) :
    (s.readModifyWrite rd rs1 rs2 f = .fault .misalignedData ∧ s.cfg.misalignedData = .fault
        ∧ (s.reg rs1).toNat % 4 ≠ 0)
      ∨ ((∃ t, s.readModifyWrite rd rs1 rs2 f = .next t)
          ∧ ¬ (s.cfg.misalignedData = .fault ∧ (s.reg rs1).toNat % 4 ≠ 0)) := by
  unfold State.readModifyWrite
  rcases memRead_cases s (s.reg rs1) 4 with ⟨e, h1, h2⟩ | ⟨v, u, e, hu, h⟩
  · rw [e]; exact .inl ⟨rfl, h2, h1⟩
  · rw [e]
    have hc : (u.setReg rd v).cfg = s.cfg := by rcases hu with rfl | rfl <;> simp
    rcases storeFrom_answers (u.setReg rd v) (s.reg rs1) 4 (f v (s.reg rs2)) with ⟨-, h1, h2⟩ | ⟨h1, -⟩
    · rw [hc] at h1; exact absurd ⟨h2, h1⟩ h
    · exact .inr ⟨h1, fun hh => h ⟨hh.2, hh.1⟩⟩

/-! ## The placed instruction (log 35) -/

/-- The page of pc is plain memory once it has been made so. -/
theorem withCodePage_owner (s : State) :
    ∃ p, s.withCodePage.ownerAt s.pc.toNat = some p ∧ p.kind ≠ .device := by
  have fresh : ∀ t : State, t.peripherals = ⟨.ram, pageOf s.pc.toNat, 1⟩ :: s.peripherals →
      t.ownerAt s.pc.toNat = some ⟨.ram, pageOf s.pc.toNat, 1⟩ := by
    intro t ht
    unfold State.ownerAt
    rw [ht, List.find?_cons_of_pos]
    simp [Peripheral.claims]
  unfold State.withCodePage
  cases ho : s.ownerAt s.pc.toNat with
  | none => exact ⟨_, fresh _ rfl, nofun⟩
  | some p =>
    cases hk : p.kind with
    | ram => simp only [hk]; exact ⟨p, ho, by rw [hk]; decide⟩
    | rom => simp only [hk]; exact ⟨p, ho, by rw [hk]; decide⟩
    | device => simp only [hk]; exact ⟨_, fresh _ rfl, nofun⟩

@[simp] theorem withCodePage_pc (s : State) : s.withCodePage.pc = s.pc := by
  unfold State.withCodePage
  split
  · rfl
  · split <;> rfl

@[simp] theorem withCodePage_mem (s : State) : s.withCodePage.mem = s.mem := by
  unfold State.withCodePage
  split
  · rfl
  · split <;> rfl

/-- The fetch after placing an instruction answers that instruction's bits. -/
theorem fetch_withFetchWord {s : State} (nbits w : Nat) (h : s.pc.toNat % 4 = 0) (hm : s.mem.wf) :
    (s.withFetchWord nbits w).fetch
      = .ok (BitVec.ofNat 32 (w % 2 ^ nbits), s.withFetchWord nbits w) := by
  obtain ⟨p, ho, hk⟩ := withCodePage_owner s
  let t := s.withFetchWord nbits w
  have hpc : t.pc = s.pc := withCodePage_pc s
  have hown : t.ownerAt s.pc.toNat = some p := ho
  have hd : t.isDevicePage t.pc.toNat = false := by
    rw [hpc]; simp [State.isDevicePage, hown, hk]
  have ha : t.pc.toNat % 4 = 0 := by rw [hpc]; exact h
  have hmem : t.mem = s.mem.writeBytes s.pc.toNat (leBytes 4 (w % 2 ^ nbits)) := by
    show s.withCodePage.mem.writeBytes s.withCodePage.pc.toNat _ = _
    rw [withCodePage_mem, withCodePage_pc]
  have hv : t.valueAt t.pc.toNat 4 = w % 2 ^ nbits % 256 ^ 4 := by
    rw [hpc]
    refine valueAt_of_bytes 4 _ _ fun i hi => ?_
    rw [byteAt_buffer (p := p) (by rw [ownerAt_add t (n := 4) (by decide) h hi, hown]) hk, hmem,
      Memory.read_writeBytes_of_inside _ _ _ _ hm (by simpa using hi), leBytes_getElem]
  show t.fetch = .ok (_, t)
  rw [fetch_memory ha hd, hv]
  congr 2
  apply BitVec.eq_of_toNat_eq
  simp only [BitVec.toNat_ofNat]
  omega

end Sys2Proof.Machine
end

