-- ==== Sys2Proof/Laws/Answers.lean ====
section
/-! SUPPORT. How each shape of meaning ends, in the terms the statements use: one lemma per shape, each
from the equation of `exec` with that shape. -/

namespace Sys2Proof.Machine

theorem writesReg_of_exec {i : Instr} {rd : Reg} {v w : Word} {s : State}
    (h : exec i s = .next (s.setReg rd v)) (e : v = w) : WritesReg i rd w s :=
  e ▸ writesReg_of (.inl rfl) h

/-- A load of plain memory. -/
theorem writesReg_of_load {i : Instr} {rd : Reg} {a w : Word} {n : Nat} {f : Word → Word} {s : State}
    (h : exec i s = s.loadTo rd a n f) (hn : n ∈ [1, 2, 4]) (ha : a.toNat % n = 0)
    (hd : s.isDevicePage a.toNat = false) (e : f (BitVec.ofNat 32 (s.valueAt a.toNat n)) = w) :
    WritesReg i rd w s := by
  refine writesReg_of (t := s) (.inl rfl) ?_
  rw [h, State.loadTo, memRead_aligned ha, busRead_memory hn ha hd, ← e]

/-- A load that draws its value. -/
theorem writesReg_of_draw {i : Instr} {rd : Reg} {a : Word} {n : Nat} {f : Word → Word} {s : State}
    (h : exec i s = s.loadTo rd a n f) (e : s.memRead a n = .ok (s.drawn n, s.useDraw)) :
    WritesReg i rd (f (s.drawn n)) s := by
  refine writesReg_of (t := s.useDraw) (.inr rfl) ?_
  rw [h, State.loadTo, e]

/-- An aligned store. -/
theorem storesTo_of_exec {i : Instr} {a v w : Word} {n : Nat} {s : State}
    (h : exec i s = s.storeFrom a n v) (hm : s.mem.wf) (hn : n ∈ [1, 2, 4]) (ha : a.toNat % n = 0)
    (e : v.toNat % 256 ^ n = w.toNat % 256 ^ n) : StoresTo i a n w s := by
  refine ⟨s.busWrite a n v, ?_, busWrite_onlyStored _ _ _ _, busWrite_stored hn ha hm e⟩
  rw [h, State.storeFrom, memWrite_aligned ha]

/-- A jump. -/
theorem jumps_of_exec {i : Instr} {rd : Reg} {a b : Word} {s : State}
    (h : exec i s = .next ((s.setNextPc a).setReg rd s.link)) (e : a = b) : Jumps i rd b s := by
  refine ⟨_, h, by simp [e], ?_, ?_⟩
  · rw [reg_setReg_rd]; rfl
  · constructor <;> try simp [SameCsrs, SameMemory, SamePlatform]
    intro r hr
    rw [reg_setReg_ne _ _ _ _ hr]
    simp

/-- A branch. -/
theorem branches_of_exec {i : Instr} {c : Bool} {imm : BitVec 13} {s : State}
    (h : exec i s = .next (s.branchIf c imm)) : Branches i c imm s := by
  refine ⟨_, h, ?_, ?_⟩
  · unfold State.branchIf; cases c <;> rfl
  · constructor <;> try simp [SameCsrs, SameMemory, SamePlatform]
    intro r hr
    simp

/-- An aligned read-modify-write. -/
theorem updates_of_exec {i : Instr} {rd rs1 rs2 : Reg} {f : Word → Word → Word} {v w : Word}
    {u s : State} (h : exec i s = s.readModifyWrite rd rs1 rs2 f) (hm : s.mem.wf)
    (hu : u = s ∨ u = s.useDraw) (ha : (s.reg rs1).toNat % 4 = 0)
    (e : s.memRead (s.reg rs1) 4 = .ok (v, u)) (hw : f v (s.reg rs2) = w) :
    Updates i rd (s.reg rs1) v w s := by
  subst hw
  have hmem : (u.setReg rd v).mem = s.mem := by rcases hu with rfl | rfl <;> simp
  have hb : ∀ b, (u.setReg rd v).byteAt b = s.byteAt b := by rcases hu with rfl | rfl <;> simp
  have ho : ∀ b, (u.setReg rd v).ownerAt b = s.ownerAt b := by rcases hu with rfl | rfl <;> simp
  have hr : (u.setReg rd v).reservations = s.reservations := by rcases hu with rfl | rfl <;> simp
  have hd : (u.setReg rd v).deviceWrites = s.deviceWrites := by rcases hu with rfl | rfl <;> simp
  obtain ⟨a1, a2, a3, a4, a5⟩ := busWrite_stored (s := u.setReg rd v) (n := 4)
    (v := f v (s.reg rs2)) (w := f v (s.reg rs2)) (by decide) ha (hmem ▸ hm) rfl
  have o := onlyReg_setReg rd v hu
  refine ⟨(u.setReg rd v).busWrite (s.reg rs1) 4 (f v (s.reg rs2)), ?_, ?_, ?_, by simp, ?_, ?_, ?_,
    ?_, ?_⟩
  · rw [h, State.readModifyWrite, e]
    show State.storeFrom _ _ _ _ = _
    rw [State.storeFrom, memWrite_aligned ha]
  · rw [busWrite_reg, reg_setReg_rd]
  · intro r hr; rw [busWrite_reg, o.regs r hr]
  · simpa using o.pc
  · simpa using o.nextPc
  · simpa [SameCsrs] using o.csrs
  · simpa [SamePlatform] using o.platform
  · refine ⟨?_, ?_, ?_, ?_, ?_⟩
    · intro i hi hh; exact a1 i hi (by rw [isRamByte_congr (ho _)]; exact hh)
    · intro hh b; rw [a2 (by rw [isRamByte_congr (ho _)]; exact hh) b, hb]
    · intro b hh; rw [a3 b hh, hb]
    · intro k; rw [a4, hr]
    · rw [a5, hd]; unfold State.isDevicePage; rw [ho]

end Sys2Proof.Machine
end

