-- ==== Sys2Proof/Laws/Numbers.lean ====
section
/-! SUPPORT. The operand, comparison and target computations as numbers. -/

namespace Sys2Proof.Machine

theorem toInt_immediate (imm : BitVec 12) : (immediate imm).toInt = imm.toInt :=
  BitVec.toInt_signExtend_of_le (by decide)

/-- An arithmetic right shift is the quotient rounded down. -/
theorem sshiftRight_eq_ofInt (a : Word) (k : Nat) :
    a.sshiftRight k = BitVec.ofInt 32 (a.toInt / 2 ^ k) := by
  apply BitVec.eq_of_toInt_eq
  rw [BitVec.toInt_sshiftRight, Int.shiftRight_eq_div_pow, BitVec.toInt_ofInt]
  have h1 := BitVec.le_toInt a
  have h2 := BitVec.toInt_lt (x := a)
  norm_num at h1 h2
  have hp : (0 : Int) < 2 ^ k := by positivity
  have hp1 : (1 : Int) ≤ 2 ^ k := hp
  have b1 : -2 ^ 31 ≤ a.toInt / 2 ^ k := by
    rw [Int.le_ediv_iff_mul_le hp]; nlinarith
  have b2 : a.toInt / 2 ^ k < 2 ^ 31 := by
    rw [Int.ediv_lt_iff_lt_mul hp]; nlinarith
  rw [Int.bmod_eq_of_le] <;> norm_num at * <;> omega

/-- Clearing bit 0. -/
theorem clearBit0_eq (x : Word) : x &&& 0xFFFFFFFE#32 = BitVec.ofNat 32 (x.toNat / 2 * 2) := by
  apply BitVec.eq_of_toNat_eq
  have : x &&& 0xFFFFFFFE#32 = (x >>> 1) <<< 1 := by
    ext i hi
    simp [BitVec.getElem_shiftLeft]
    interval_cases i <;> simp
  rw [this]
  simp [Nat.shiftRight_eq_div_pow, Nat.shiftLeft_eq]

/-- A word plus a signed offset, modulo 2^32. -/
theorem add_eq_ofInt (a b : Word) : a + b = BitVec.ofInt 32 (a.toNat + b.toInt) := by
  apply BitVec.eq_of_toInt_eq
  rw [BitVec.toInt_ofInt, BitVec.toInt_add, BitVec.toInt_eq_toNat_bmod a]
  simp

/-- The two parts of a split value make it up again (R341). -/
theorem upperPart_add_lowerPart (v : Word) : upperPart v + (lowerPart v).signExtend 32 = v := by
  have hu : upperPart v = ((v + 0x800#32) >>> 12) <<< 12 := by
    unfold upperPart
    ext i hi
    simp [BitVec.getElem_shiftLeft]
    interval_cases i <;> simp
  have hn : (upperPart v).toNat = (v.toNat + 0x800) % 2 ^ 32 / 4096 * 4096 := by
    rw [hu]
    simp only [BitVec.toNat_shiftLeft, BitVec.toNat_ushiftRight, BitVec.toNat_add, Nat.shiftLeft_eq,
      Nat.shiftRight_eq_div_pow, BitVec.toNat_ofNat]
    omega
  have hv := v.isLt
  apply BitVec.eq_of_toNat_eq
  have hl : (lowerPart v).toNat = (v.toNat + 2 ^ 32 - (upperPart v).toNat) % 4096 := by
    unfold lowerPart
    simp [BitVec.toNat_sub]
    omega
  rw [BitVec.toNat_add, BitVec.toNat_signExtend, BitVec.toNat_setWidth, BitVec.msb_eq_decide, hl, hn]
  by_cases hb : 2 ^ (12 - 1) ≤ (v.toNat + 2 ^ 32 - (v.toNat + 0x800) % 2 ^ 32 / 4096 * 4096) % 4096
  · simp only [hb, decide_true, if_true]; norm_num at *; omega
  · simp only [hb, decide_false]; norm_num at *; omega

/-- The truncated quotient of two words fits a word but for INT_MIN / −1. -/
theorem tdiv_bounds {x y : Int} (hx : -2 ^ 31 ≤ x) (hx2 : x < 2 ^ 31) (hy0 : y ≠ 0)
    (h : ¬ (x = -2 ^ 31 ∧ y = -1)) : -2 ^ 31 ≤ x.tdiv y ∧ x.tdiv y < 2 ^ 31 := by
  have habs : (x.tdiv y).natAbs ≤ x.natAbs := by rw [Int.natAbs_tdiv]; exact Nat.div_le_self _ _
  by_cases hy : y = -1
  · subst hy
    have : x.tdiv (-1) = -x := by simp
    omega
  · by_cases hx0 : x = -2 ^ 31
    · by_cases hy1 : y = 1
      · subst hy1; simp; omega
      · have : (x.tdiv y).natAbs ≤ 2 ^ 30 := by
          rw [Int.natAbs_tdiv]
          have : 2 ≤ y.natAbs := by omega
          have h2 : x.natAbs = 2 ^ 31 := by omega
          rw [h2]
          exact Nat.div_le_of_le_mul (by omega)
        omega
    · omega

end Sys2Proof.Machine
end

