-- ==== Sys2Proof/Laws/PerInstr.lean ====
section
/-! SUPPORT. Per instruction: the encoder's word carries the fixed bits of the instruction's row of
spec/opcode_table.json (its match, under its mask). -/

namespace Sys2Proof

/-- The mask of an instruction's row. -/
def rowMask : Instr → Word
  | .lui .. | .auipc .. | .jal .. => 0x0000007F#32
  | .jalr .. | .beq .. | .bne .. | .blt .. | .bge .. | .bltu .. | .bgeu .. | .lb .. | .lh ..
  | .lw .. | .lbu .. | .lhu .. | .sb .. | .sh .. | .sw .. | .addi .. | .slti .. | .sltiu ..
  | .xori .. | .ori .. | .andi .. | .fence | .fenceI | .csrrw .. | .csrrs .. | .csrrc ..
  | .csrrwi .. | .csrrsi .. | .csrrci .. => 0x0000707F#32
  | .slli .. | .srli .. | .srai .. | .add .. | .sub .. | .sll .. | .slt .. | .sltu .. | .xor ..
  | .srl .. | .sra .. | .or .. | .and .. | .mul .. | .mulh .. | .mulhsu .. | .mulhu .. | .div ..
  | .divu .. | .rem .. | .remu .. => 0xFE00707F#32
  | .scall | .sbreak | .eret => 0xFFF0707F#32
  | .lrW .. | .scW .. | .amoswapW .. | .amoaddW .. | .amoxorW .. | .amoandW .. | .amoorW ..
  | .amominW .. | .amomaxW .. | .amominuW .. | .amomaxuW .. => 0xF800707F#32

/-- The match of an instruction's row. -/
def rowMatch : Instr → Word
  | .lui .. => 0x00000037#32
  | .auipc .. => 0x00000017#32
  | .jal .. => 0x0000006F#32
  | .jalr .. => 0x00000067#32
  | .beq .. => 0x00000063#32
  | .bne .. => 0x00001063#32
  | .blt .. => 0x00004063#32
  | .bge .. => 0x00005063#32
  | .bltu .. => 0x00006063#32
  | .bgeu .. => 0x00007063#32
  | .lb .. => 0x00000003#32
  | .lh .. => 0x00001003#32
  | .lw .. => 0x00002003#32
  | .lbu .. => 0x00004003#32
  | .lhu .. => 0x00005003#32
  | .sb .. => 0x00000023#32
  | .sh .. => 0x00001023#32
  | .sw .. => 0x00002023#32
  | .addi .. => 0x00000013#32
  | .slti .. => 0x00002013#32
  | .sltiu .. => 0x00003013#32
  | .xori .. => 0x00004013#32
  | .ori .. => 0x00006013#32
  | .andi .. => 0x00007013#32
  | .slli .. => 0x00001013#32
  | .srli .. => 0x00005013#32
  | .srai .. => 0x40005013#32
  | .add .. => 0x00000033#32
  | .sub .. => 0x40000033#32
  | .sll .. => 0x00001033#32
  | .slt .. => 0x00002033#32
  | .sltu .. => 0x00003033#32
  | .xor .. => 0x00004033#32
  | .srl .. => 0x00005033#32
  | .sra .. => 0x40005033#32
  | .or .. => 0x00006033#32
  | .and .. => 0x00007033#32
  | .fence => 0x0000000F#32
  | .fenceI => 0x0000100F#32
  | .scall => 0x00000073#32
  | .sbreak => 0x00100073#32
  | .eret => 0x10000073#32
  | .csrrw .. => 0x00001073#32
  | .csrrs .. => 0x00002073#32
  | .csrrc .. => 0x00003073#32
  | .csrrwi .. => 0x00005073#32
  | .csrrsi .. => 0x00006073#32
  | .csrrci .. => 0x00007073#32
  | .mul .. => 0x02000033#32
  | .mulh .. => 0x02001033#32
  | .mulhsu .. => 0x02002033#32
  | .mulhu .. => 0x02003033#32
  | .div .. => 0x02004033#32
  | .divu .. => 0x02005033#32
  | .rem .. => 0x02006033#32
  | .remu .. => 0x02007033#32
  | .lrW .. => 0x1000202F#32
  | .scW .. => 0x1800202F#32
  | .amoswapW .. => 0x0800202F#32
  | .amoaddW .. => 0x0000202F#32
  | .amoxorW .. => 0x2000202F#32
  | .amoandW .. => 0x6000202F#32
  | .amoorW .. => 0x4000202F#32
  | .amominW .. => 0x8000202F#32
  | .amomaxW .. => 0xA000202F#32
  | .amominuW .. => 0xC000202F#32
  | .amomaxuW .. => 0xE000202F#32

/-! ## One lemma per format -/

theorem cat_and_cat {w v : Nat} {x m r : BitVec w} {y n q : BitVec v} (h : x &&& m = r)
    (k : y &&& n = q) : (x ++ y) &&& (m ++ n) = r ++ q := by
  rw [BitVec.and_append, h, k]

theorem rType_fixed (funct7 : BitVec 7) (rs2 rs1 : Reg) (funct3 : BitVec 3) (rd : Reg)
    (op : BitVec 7) :
    rType funct7 rs2 rs1 funct3 rd op &&& 0xFE00707F#32 =
      rType funct7 0#5 0#5 funct3 0#5 op :=
  cat_and_cat (m := BitVec.allOnes 7 ++ 0#5 ++ 0#5 ++ BitVec.allOnes 3 ++ 0#5) (n := BitVec.allOnes
    7)
    (cat_and_cat (cat_and_cat (cat_and_cat (cat_and_cat BitVec.and_allOnes BitVec.and_zero)
      BitVec.and_zero) BitVec.and_allOnes) BitVec.and_zero)
    BitVec.and_allOnes

theorem amoType_fixed (funct5 : BitVec 5) (rs2 rs1 rd : Reg) :
    amoType funct5 rs2 rs1 rd &&& 0xF800707F#32 =
      amoType funct5 0#5 0#5 0#5 :=
  cat_and_cat (m := (BitVec.allOnes 5 ++ 0#2) ++ 0#5 ++ 0#5 ++ BitVec.allOnes 3 ++ 0#5) (n :=
    BitVec.allOnes 7)
    (cat_and_cat (cat_and_cat (cat_and_cat (cat_and_cat ((cat_and_cat BitVec.and_allOnes
      BitVec.and_zero)) BitVec.and_zero) BitVec.and_zero) BitVec.and_allOnes) BitVec.and_zero)
    BitVec.and_allOnes

theorem iType_fixed (imm : BitVec 12) (rs1 : Reg) (funct3 : BitVec 3) (rd : Reg) (op : BitVec 7) :
    iType imm rs1 funct3 rd op &&& 0x0000707F#32 =
      iType 0#12 0#5 funct3 0#5 op :=
  cat_and_cat (m := 0#12 ++ 0#5 ++ BitVec.allOnes 3 ++ 0#5) (n := BitVec.allOnes 7)
    (cat_and_cat (cat_and_cat (cat_and_cat BitVec.and_zero BitVec.and_zero) BitVec.and_allOnes)
      BitVec.and_zero)
    BitVec.and_allOnes

theorem sType_fixed (imm : BitVec 12) (rs2 rs1 : Reg) (funct3 : BitVec 3) (op : BitVec 7) :
    sType imm rs2 rs1 funct3 op &&& 0x0000707F#32 =
      sType 0#12 0#5 0#5 funct3 op :=
  cat_and_cat (m := 0#7 ++ 0#5 ++ 0#5 ++ BitVec.allOnes 3 ++ 0#5) (n := BitVec.allOnes 7)
    (cat_and_cat (cat_and_cat (cat_and_cat (cat_and_cat BitVec.and_zero BitVec.and_zero)
      BitVec.and_zero) BitVec.and_allOnes) BitVec.and_zero)
    BitVec.and_allOnes

theorem bType_fixed (imm : BitVec 13) (rs2 rs1 : Reg) (funct3 : BitVec 3) (op : BitVec 7) :
    bType imm rs2 rs1 funct3 op &&& 0x0000707F#32 =
      bType 0#13 0#5 0#5 funct3 op :=
  cat_and_cat (m := 0#1 ++ 0#6 ++ 0#5 ++ 0#5 ++ BitVec.allOnes 3 ++ 0#4 ++ 0#1) (n :=
    BitVec.allOnes 7)
    (cat_and_cat (cat_and_cat (cat_and_cat (cat_and_cat (cat_and_cat (cat_and_cat BitVec.and_zero
      BitVec.and_zero) BitVec.and_zero) BitVec.and_zero) BitVec.and_allOnes) BitVec.and_zero)
        BitVec.and_zero)
    BitVec.and_allOnes

theorem uType_fixed (imm : Word) (rd : Reg) (op : BitVec 7) :
    uType imm rd op &&& 0x0000007F#32 =
      uType 0#32 0#5 op :=
  cat_and_cat (m := 0#20 ++ 0#5) (n := BitVec.allOnes 7)
    (cat_and_cat BitVec.and_zero BitVec.and_zero)
    BitVec.and_allOnes

theorem jType_fixed (imm : BitVec 21) (rd : Reg) (op : BitVec 7) :
    jType imm rd op &&& 0x0000007F#32 =
      jType 0#21 0#5 op :=
  cat_and_cat (m := 0#1 ++ 0#10 ++ 0#1 ++ 0#8 ++ 0#5) (n := BitVec.allOnes 7)
    (cat_and_cat (cat_and_cat (cat_and_cat (cat_and_cat BitVec.and_zero BitVec.and_zero)
      BitVec.and_zero) BitVec.and_zero) BitVec.and_zero)
    BitVec.and_allOnes

end Sys2Proof

/-- The instruction's word has its row's fixed bits. -/
def Sys2Proof.Laws.TableRow.Statement (i : Sys2Proof.Instr) : Prop :=
  Sys2Proof.encode i &&& Sys2Proof.rowMask i = Sys2Proof.rowMatch i

theorem Sys2Proof.Laws.TableRow.lui (rd : Sys2Proof.Reg) (imm : Sys2Proof.Word) :
    Sys2Proof.Laws.TableRow.Statement (.lui rd imm) :=
  Sys2Proof.uType_fixed _ _ _

theorem Sys2Proof.Laws.TableRow.auipc (rd : Sys2Proof.Reg) (imm : Sys2Proof.Word) :
    Sys2Proof.Laws.TableRow.Statement (.auipc rd imm) :=
  Sys2Proof.uType_fixed _ _ _

theorem Sys2Proof.Laws.TableRow.jal (rd : Sys2Proof.Reg) (imm : BitVec 21) :
    Sys2Proof.Laws.TableRow.Statement (.jal rd imm) :=
  Sys2Proof.jType_fixed _ _ _

theorem Sys2Proof.Laws.TableRow.jalr (rd rs1 : Sys2Proof.Reg) (imm : BitVec 12) :
    Sys2Proof.Laws.TableRow.Statement (.jalr rd rs1 imm) :=
  Sys2Proof.iType_fixed _ _ _ _ _

theorem Sys2Proof.Laws.TableRow.beq (rs1 rs2 : Sys2Proof.Reg) (imm : BitVec 13) :
    Sys2Proof.Laws.TableRow.Statement (.beq rs1 rs2 imm) :=
  Sys2Proof.bType_fixed _ _ _ _ _

theorem Sys2Proof.Laws.TableRow.bne (rs1 rs2 : Sys2Proof.Reg) (imm : BitVec 13) :
    Sys2Proof.Laws.TableRow.Statement (.bne rs1 rs2 imm) :=
  Sys2Proof.bType_fixed _ _ _ _ _

theorem Sys2Proof.Laws.TableRow.blt (rs1 rs2 : Sys2Proof.Reg) (imm : BitVec 13) :
    Sys2Proof.Laws.TableRow.Statement (.blt rs1 rs2 imm) :=
  Sys2Proof.bType_fixed _ _ _ _ _

theorem Sys2Proof.Laws.TableRow.bge (rs1 rs2 : Sys2Proof.Reg) (imm : BitVec 13) :
    Sys2Proof.Laws.TableRow.Statement (.bge rs1 rs2 imm) :=
  Sys2Proof.bType_fixed _ _ _ _ _

theorem Sys2Proof.Laws.TableRow.bltu (rs1 rs2 : Sys2Proof.Reg) (imm : BitVec 13) :
    Sys2Proof.Laws.TableRow.Statement (.bltu rs1 rs2 imm) :=
  Sys2Proof.bType_fixed _ _ _ _ _

theorem Sys2Proof.Laws.TableRow.bgeu (rs1 rs2 : Sys2Proof.Reg) (imm : BitVec 13) :
    Sys2Proof.Laws.TableRow.Statement (.bgeu rs1 rs2 imm) :=
  Sys2Proof.bType_fixed _ _ _ _ _

theorem Sys2Proof.Laws.TableRow.lb (rd rs1 : Sys2Proof.Reg) (imm : BitVec 12) :
    Sys2Proof.Laws.TableRow.Statement (.lb rd rs1 imm) :=
  Sys2Proof.iType_fixed _ _ _ _ _

theorem Sys2Proof.Laws.TableRow.lh (rd rs1 : Sys2Proof.Reg) (imm : BitVec 12) :
    Sys2Proof.Laws.TableRow.Statement (.lh rd rs1 imm) :=
  Sys2Proof.iType_fixed _ _ _ _ _

theorem Sys2Proof.Laws.TableRow.lw (rd rs1 : Sys2Proof.Reg) (imm : BitVec 12) :
    Sys2Proof.Laws.TableRow.Statement (.lw rd rs1 imm) :=
  Sys2Proof.iType_fixed _ _ _ _ _

theorem Sys2Proof.Laws.TableRow.lbu (rd rs1 : Sys2Proof.Reg) (imm : BitVec 12) :
    Sys2Proof.Laws.TableRow.Statement (.lbu rd rs1 imm) :=
  Sys2Proof.iType_fixed _ _ _ _ _

theorem Sys2Proof.Laws.TableRow.lhu (rd rs1 : Sys2Proof.Reg) (imm : BitVec 12) :
    Sys2Proof.Laws.TableRow.Statement (.lhu rd rs1 imm) :=
  Sys2Proof.iType_fixed _ _ _ _ _

theorem Sys2Proof.Laws.TableRow.sb (rs1 rs2 : Sys2Proof.Reg) (imm : BitVec 12) :
    Sys2Proof.Laws.TableRow.Statement (.sb rs1 rs2 imm) :=
  Sys2Proof.sType_fixed _ _ _ _ _

theorem Sys2Proof.Laws.TableRow.sh (rs1 rs2 : Sys2Proof.Reg) (imm : BitVec 12) :
    Sys2Proof.Laws.TableRow.Statement (.sh rs1 rs2 imm) :=
  Sys2Proof.sType_fixed _ _ _ _ _

theorem Sys2Proof.Laws.TableRow.sw (rs1 rs2 : Sys2Proof.Reg) (imm : BitVec 12) :
    Sys2Proof.Laws.TableRow.Statement (.sw rs1 rs2 imm) :=
  Sys2Proof.sType_fixed _ _ _ _ _

theorem Sys2Proof.Laws.TableRow.addi (rd rs1 : Sys2Proof.Reg) (imm : BitVec 12) :
    Sys2Proof.Laws.TableRow.Statement (.addi rd rs1 imm) :=
  Sys2Proof.iType_fixed _ _ _ _ _

theorem Sys2Proof.Laws.TableRow.slti (rd rs1 : Sys2Proof.Reg) (imm : BitVec 12) :
    Sys2Proof.Laws.TableRow.Statement (.slti rd rs1 imm) :=
  Sys2Proof.iType_fixed _ _ _ _ _

theorem Sys2Proof.Laws.TableRow.sltiu (rd rs1 : Sys2Proof.Reg) (imm : BitVec 12) :
    Sys2Proof.Laws.TableRow.Statement (.sltiu rd rs1 imm) :=
  Sys2Proof.iType_fixed _ _ _ _ _

theorem Sys2Proof.Laws.TableRow.xori (rd rs1 : Sys2Proof.Reg) (imm : BitVec 12) :
    Sys2Proof.Laws.TableRow.Statement (.xori rd rs1 imm) :=
  Sys2Proof.iType_fixed _ _ _ _ _

theorem Sys2Proof.Laws.TableRow.ori (rd rs1 : Sys2Proof.Reg) (imm : BitVec 12) :
    Sys2Proof.Laws.TableRow.Statement (.ori rd rs1 imm) :=
  Sys2Proof.iType_fixed _ _ _ _ _

theorem Sys2Proof.Laws.TableRow.andi (rd rs1 : Sys2Proof.Reg) (imm : BitVec 12) :
    Sys2Proof.Laws.TableRow.Statement (.andi rd rs1 imm) :=
  Sys2Proof.iType_fixed _ _ _ _ _

theorem Sys2Proof.Laws.TableRow.slli (rd rs1 : Sys2Proof.Reg) (shamt : BitVec 5) :
    Sys2Proof.Laws.TableRow.Statement (.slli rd rs1 shamt) :=
  Sys2Proof.rType_fixed _ _ _ _ _ _

theorem Sys2Proof.Laws.TableRow.srli (rd rs1 : Sys2Proof.Reg) (shamt : BitVec 5) :
    Sys2Proof.Laws.TableRow.Statement (.srli rd rs1 shamt) :=
  Sys2Proof.rType_fixed _ _ _ _ _ _

theorem Sys2Proof.Laws.TableRow.srai (rd rs1 : Sys2Proof.Reg) (shamt : BitVec 5) :
    Sys2Proof.Laws.TableRow.Statement (.srai rd rs1 shamt) :=
  Sys2Proof.rType_fixed _ _ _ _ _ _

theorem Sys2Proof.Laws.TableRow.add (rd rs1 rs2 : Sys2Proof.Reg) :
    Sys2Proof.Laws.TableRow.Statement (.add rd rs1 rs2) :=
  Sys2Proof.rType_fixed _ _ _ _ _ _

theorem Sys2Proof.Laws.TableRow.sub (rd rs1 rs2 : Sys2Proof.Reg) :
    Sys2Proof.Laws.TableRow.Statement (.sub rd rs1 rs2) :=
  Sys2Proof.rType_fixed _ _ _ _ _ _

theorem Sys2Proof.Laws.TableRow.sll (rd rs1 rs2 : Sys2Proof.Reg) :
    Sys2Proof.Laws.TableRow.Statement (.sll rd rs1 rs2) :=
  Sys2Proof.rType_fixed _ _ _ _ _ _

theorem Sys2Proof.Laws.TableRow.slt (rd rs1 rs2 : Sys2Proof.Reg) :
    Sys2Proof.Laws.TableRow.Statement (.slt rd rs1 rs2) :=
  Sys2Proof.rType_fixed _ _ _ _ _ _

theorem Sys2Proof.Laws.TableRow.sltu (rd rs1 rs2 : Sys2Proof.Reg) :
    Sys2Proof.Laws.TableRow.Statement (.sltu rd rs1 rs2) :=
  Sys2Proof.rType_fixed _ _ _ _ _ _

theorem Sys2Proof.Laws.TableRow.xor (rd rs1 rs2 : Sys2Proof.Reg) :
    Sys2Proof.Laws.TableRow.Statement (.xor rd rs1 rs2) :=
  Sys2Proof.rType_fixed _ _ _ _ _ _

theorem Sys2Proof.Laws.TableRow.srl (rd rs1 rs2 : Sys2Proof.Reg) :
    Sys2Proof.Laws.TableRow.Statement (.srl rd rs1 rs2) :=
  Sys2Proof.rType_fixed _ _ _ _ _ _

theorem Sys2Proof.Laws.TableRow.sra (rd rs1 rs2 : Sys2Proof.Reg) :
    Sys2Proof.Laws.TableRow.Statement (.sra rd rs1 rs2) :=
  Sys2Proof.rType_fixed _ _ _ _ _ _

theorem Sys2Proof.Laws.TableRow.or (rd rs1 rs2 : Sys2Proof.Reg) :
    Sys2Proof.Laws.TableRow.Statement (.or rd rs1 rs2) :=
  Sys2Proof.rType_fixed _ _ _ _ _ _

theorem Sys2Proof.Laws.TableRow.and (rd rs1 rs2 : Sys2Proof.Reg) :
    Sys2Proof.Laws.TableRow.Statement (.and rd rs1 rs2) :=
  Sys2Proof.rType_fixed _ _ _ _ _ _

theorem Sys2Proof.Laws.TableRow.fence :
    Sys2Proof.Laws.TableRow.Statement (.fence) :=
  rfl

theorem Sys2Proof.Laws.TableRow.fenceI :
    Sys2Proof.Laws.TableRow.Statement (.fenceI) :=
  rfl

theorem Sys2Proof.Laws.TableRow.scall :
    Sys2Proof.Laws.TableRow.Statement (.scall) :=
  rfl

theorem Sys2Proof.Laws.TableRow.sbreak :
    Sys2Proof.Laws.TableRow.Statement (.sbreak) :=
  rfl

theorem Sys2Proof.Laws.TableRow.eret :
    Sys2Proof.Laws.TableRow.Statement (.eret) :=
  rfl

theorem Sys2Proof.Laws.TableRow.csrrw (rd rs1 : Sys2Proof.Reg) (csr : Sys2Proof.CsrAddr) :
    Sys2Proof.Laws.TableRow.Statement (.csrrw rd rs1 csr) :=
  Sys2Proof.iType_fixed _ _ _ _ _

theorem Sys2Proof.Laws.TableRow.csrrs (rd rs1 : Sys2Proof.Reg) (csr : Sys2Proof.CsrAddr) :
    Sys2Proof.Laws.TableRow.Statement (.csrrs rd rs1 csr) :=
  Sys2Proof.iType_fixed _ _ _ _ _

theorem Sys2Proof.Laws.TableRow.csrrc (rd rs1 : Sys2Proof.Reg) (csr : Sys2Proof.CsrAddr) :
    Sys2Proof.Laws.TableRow.Statement (.csrrc rd rs1 csr) :=
  Sys2Proof.iType_fixed _ _ _ _ _

theorem Sys2Proof.Laws.TableRow.csrrwi (rd : Sys2Proof.Reg) (uimm : BitVec 5) (csr : Sys2Proof.CsrAddr) :
    Sys2Proof.Laws.TableRow.Statement (.csrrwi rd uimm csr) :=
  Sys2Proof.iType_fixed _ _ _ _ _

theorem Sys2Proof.Laws.TableRow.csrrsi (rd : Sys2Proof.Reg) (uimm : BitVec 5) (csr : Sys2Proof.CsrAddr) :
    Sys2Proof.Laws.TableRow.Statement (.csrrsi rd uimm csr) :=
  Sys2Proof.iType_fixed _ _ _ _ _

theorem Sys2Proof.Laws.TableRow.csrrci (rd : Sys2Proof.Reg) (uimm : BitVec 5) (csr : Sys2Proof.CsrAddr) :
    Sys2Proof.Laws.TableRow.Statement (.csrrci rd uimm csr) :=
  Sys2Proof.iType_fixed _ _ _ _ _

theorem Sys2Proof.Laws.TableRow.mul (rd rs1 rs2 : Sys2Proof.Reg) :
    Sys2Proof.Laws.TableRow.Statement (.mul rd rs1 rs2) :=
  Sys2Proof.rType_fixed _ _ _ _ _ _

theorem Sys2Proof.Laws.TableRow.mulh (rd rs1 rs2 : Sys2Proof.Reg) :
    Sys2Proof.Laws.TableRow.Statement (.mulh rd rs1 rs2) :=
  Sys2Proof.rType_fixed _ _ _ _ _ _

theorem Sys2Proof.Laws.TableRow.mulhsu (rd rs1 rs2 : Sys2Proof.Reg) :
    Sys2Proof.Laws.TableRow.Statement (.mulhsu rd rs1 rs2) :=
  Sys2Proof.rType_fixed _ _ _ _ _ _

theorem Sys2Proof.Laws.TableRow.mulhu (rd rs1 rs2 : Sys2Proof.Reg) :
    Sys2Proof.Laws.TableRow.Statement (.mulhu rd rs1 rs2) :=
  Sys2Proof.rType_fixed _ _ _ _ _ _

theorem Sys2Proof.Laws.TableRow.div (rd rs1 rs2 : Sys2Proof.Reg) :
    Sys2Proof.Laws.TableRow.Statement (.div rd rs1 rs2) :=
  Sys2Proof.rType_fixed _ _ _ _ _ _

theorem Sys2Proof.Laws.TableRow.divu (rd rs1 rs2 : Sys2Proof.Reg) :
    Sys2Proof.Laws.TableRow.Statement (.divu rd rs1 rs2) :=
  Sys2Proof.rType_fixed _ _ _ _ _ _

theorem Sys2Proof.Laws.TableRow.rem (rd rs1 rs2 : Sys2Proof.Reg) :
    Sys2Proof.Laws.TableRow.Statement (.rem rd rs1 rs2) :=
  Sys2Proof.rType_fixed _ _ _ _ _ _

theorem Sys2Proof.Laws.TableRow.remu (rd rs1 rs2 : Sys2Proof.Reg) :
    Sys2Proof.Laws.TableRow.Statement (.remu rd rs1 rs2) :=
  Sys2Proof.rType_fixed _ _ _ _ _ _

theorem Sys2Proof.Laws.TableRow.lrW (rd rs1 : Sys2Proof.Reg) :
    Sys2Proof.Laws.TableRow.Statement (.lrW rd rs1) :=
  Sys2Proof.amoType_fixed _ _ _ _

theorem Sys2Proof.Laws.TableRow.scW (rd rs1 rs2 : Sys2Proof.Reg) :
    Sys2Proof.Laws.TableRow.Statement (.scW rd rs1 rs2) :=
  Sys2Proof.amoType_fixed _ _ _ _

theorem Sys2Proof.Laws.TableRow.amoswapW (rd rs1 rs2 : Sys2Proof.Reg) :
    Sys2Proof.Laws.TableRow.Statement (.amoswapW rd rs1 rs2) :=
  Sys2Proof.amoType_fixed _ _ _ _

theorem Sys2Proof.Laws.TableRow.amoaddW (rd rs1 rs2 : Sys2Proof.Reg) :
    Sys2Proof.Laws.TableRow.Statement (.amoaddW rd rs1 rs2) :=
  Sys2Proof.amoType_fixed _ _ _ _

theorem Sys2Proof.Laws.TableRow.amoxorW (rd rs1 rs2 : Sys2Proof.Reg) :
    Sys2Proof.Laws.TableRow.Statement (.amoxorW rd rs1 rs2) :=
  Sys2Proof.amoType_fixed _ _ _ _

theorem Sys2Proof.Laws.TableRow.amoandW (rd rs1 rs2 : Sys2Proof.Reg) :
    Sys2Proof.Laws.TableRow.Statement (.amoandW rd rs1 rs2) :=
  Sys2Proof.amoType_fixed _ _ _ _

theorem Sys2Proof.Laws.TableRow.amoorW (rd rs1 rs2 : Sys2Proof.Reg) :
    Sys2Proof.Laws.TableRow.Statement (.amoorW rd rs1 rs2) :=
  Sys2Proof.amoType_fixed _ _ _ _

theorem Sys2Proof.Laws.TableRow.amominW (rd rs1 rs2 : Sys2Proof.Reg) :
    Sys2Proof.Laws.TableRow.Statement (.amominW rd rs1 rs2) :=
  Sys2Proof.amoType_fixed _ _ _ _

theorem Sys2Proof.Laws.TableRow.amomaxW (rd rs1 rs2 : Sys2Proof.Reg) :
    Sys2Proof.Laws.TableRow.Statement (.amomaxW rd rs1 rs2) :=
  Sys2Proof.amoType_fixed _ _ _ _

theorem Sys2Proof.Laws.TableRow.amominuW (rd rs1 rs2 : Sys2Proof.Reg) :
    Sys2Proof.Laws.TableRow.Statement (.amominuW rd rs1 rs2) :=
  Sys2Proof.amoType_fixed _ _ _ _

theorem Sys2Proof.Laws.TableRow.amomaxuW (rd rs1 rs2 : Sys2Proof.Reg) :
    Sys2Proof.Laws.TableRow.Statement (.amomaxuW rd rs1 rs2) :=
  Sys2Proof.amoType_fixed _ _ _ _
end

