-- ==== Sys2Proof/Laws/Platform.lean ====
section
/-! SUPPORT. The page map, the local-address wrap, and how each operation keeps the invariant. -/

namespace Sys2Proof.Machine

/-! ## The page map -/

/-- The pages a peripheral claims are its byte range (R220). -/
theorem claims_iff {p : Peripheral} {a : Nat} :
    p.claims (pageOf a) = true ↔ p.base ≤ a ∧ a < p.base + p.size := by
  unfold Peripheral.claims Peripheral.base Peripheral.size pageOf pageBytes
  rw [Bool.and_eq_true, decide_eq_true_eq, decide_eq_true_eq]
  omega

theorem ownerAt_claims {s : State} {a : Nat} {p : Peripheral} (h : s.ownerAt a = some p) :
    p ∈ s.peripherals ∧ p.claims (pageOf a) = true := by
  unfold State.ownerAt at h
  exact ⟨List.mem_of_find?_eq_some h, by simpa using List.find?_some h⟩

/-- In a map R220 accepts, the peripheral that claims a page owns it. -/
theorem ownerAt_of_mem {s : State} (h : s.mapOk) {p : Peripheral} (hp : p ∈ s.peripherals) {a : Nat}
    (ha : p.claims (pageOf a) = true) : s.ownerAt a = some p := by
  unfold State.mapOk at h
  unfold State.ownerAt
  obtain ⟨h, -⟩ := h
  revert h hp
  generalize s.peripherals = l
  induction l with
  | nil => intro h; cases h
  | cons q l ih =>
    intro hp h
    rw [List.pairwise_cons] at h
    rcases List.mem_cons.1 hp with rfl | hp
    · simp [ha]
    · have : q.claims (pageOf a) = false := by
        by_contra hq
        have := h.1 p hp
        simp [Peripheral.claims, Peripheral.apart] at *
        omega
      rw [List.find?_cons_of_neg (by simp [this])]
      exact ih hp h.2

/-- An unowned byte is not listed. -/
theorem read_unowned {s : State} (h : s.memoryOk) {a : Nat} (ho : s.ownerAt a = none) :
    s.mem.read a = 0#8 := by
  obtain ⟨-, h⟩ := h
  have : ∀ c ∈ s.mem, c.1 ≠ a := by
    intro c hc e
    have := h c hc
    rw [e] at this
    simp [State.isBufferByte, ho] at this
  revert this
  generalize s.mem = m
  induction m with
  | nil => intro _; rfl
  | cons c m ih =>
    intro h
    obtain ⟨k, x⟩ := c
    have h0 := h (k, x) (by simp)
    simp at h0
    simp [Memory.read, h0, ih (fun c hc => h c (by simp [hc]))]

/-! ## The local-address wrap (R225) -/

/-- P is a power of two that is at least the size. -/
theorem wrapSize_spec (p : Peripheral) : ∃ k, p.wrapSize = 2 ^ k ∧ p.size ≤ 2 ^ k := by
  unfold Peripheral.wrapSize
  split
  · exact ⟨0, rfl, by omega⟩
  · refine ⟨_, rfl, ?_⟩
    have := Nat.lt_log2_self (n := p.size - 1)
    omega

theorem mask_eq_mod (p : Peripheral) (l : Nat) : l &&& (p.wrapSize - 1) = l % p.wrapSize := by
  obtain ⟨k, h, -⟩ := wrapSize_spec p
  rw [h, Nat.and_two_pow_sub_one_eq_mod]

/-- P is the least power of two that is at least the size. -/
theorem wrapSize_least (p : Peripheral) {j : Nat} (h : p.size ≤ 2 ^ j) : p.wrapSize ≤ 2 ^ j := by
  unfold Peripheral.wrapSize
  split
  · exact Nat.one_le_two_pow
  · apply Nat.pow_le_pow_right (by decide)
    have : p.size - 1 ≠ 0 := by omega
    exact (Nat.log2_lt this).2 (by omega)

theorem wrapSize_pos (p : Peripheral) : 0 < p.wrapSize := by
  obtain ⟨k, h, -⟩ := wrapSize_spec p
  rw [h]
  exact Nat.two_pow_pos k

/-- The masked local address, or the fault where it lies outside the buffer. -/
theorem cellAt_eq (p : Peripheral) (l : Nat) :
    p.cellAt l =
      if l % p.wrapSize < p.size then .ok (p.base + l % p.wrapSize) else .error .outsideBuffer := by
  unfold Peripheral.cellAt
  simp only [mask_eq_mod]

theorem cellAt_ok {p : Peripheral} {l a : Nat} (h : p.cellAt l = .ok a) :
    p.base ≤ a ∧ a < p.base + p.size := by
  unfold Peripheral.cellAt at h
  simp only at h
  split at h
  · cases h; omega
  · cases h

theorem cellAt_inside {p : Peripheral} {l : Nat} (h : l < p.size) : p.cellAt l = .ok (p.base + l) := by
  obtain ⟨k, hk, hs⟩ := wrapSize_spec p
  rw [cellAt_eq, hk, Nat.mod_eq_of_lt (by omega), if_pos h]

/-! ## The invariant, operation by operation -/

/-- The invariant looks at slot 0, the reservations, the map and the bytes only. -/
theorem inv_of_same {s t : State} (h : s.Inv) (h0 : t.regs[0] = s.regs[0])
    (hr : t.reservations = s.reservations) (hp : t.peripherals = s.peripherals) (hm : t.mem = s.mem) :
    t.Inv := by
  obtain ⟨a, b, c, e, d⟩ := h
  refine ⟨?_, ?_, ?_, ?_, ?_⟩
  · unfold State.zeroSlot at *; rw [h0, a]
  · unfold State.reservationsOk at *; rw [hr]; exact b
  · unfold State.mapOk at *; rw [hp]; exact c
  · unfold State.basesAligned at *; rw [hp]; exact e
  · have : ∀ x, t.isBufferByte x = s.isBufferByte x := by
      intro x; unfold State.isBufferByte State.ownerAt; rw [hp]
    unfold State.memoryOk at *
    rw [hm]
    exact ⟨d.1, fun c hc => by rw [this]; exact d.2 c hc⟩

theorem inv_of_reservations {s t : State} (h : s.Inv) (h0 : t.regs[0] = s.regs[0])
    (hr : t.reservationsOk) (hp : t.peripherals = s.peripherals) (hm : t.mem = s.mem) : t.Inv := by
  have := inv_of_same (t := { t with reservations := s.reservations }) h h0 rfl hp hm
  exact ⟨this.1, hr, this.3, this.4, this.5⟩

theorem reservationsOk_nil {s : State} (h : s.reservations = []) : s.reservationsOk := by
  unfold State.reservationsOk
  rw [h]
  exact ⟨List.Pairwise.nil, fun k hk => absurd hk List.not_mem_nil⟩

theorem inv_write {s : State} (h : s.Inv) {a : Nat} (ha : s.isBufferByte a = true) (v : Byte) :
    ({ s with mem := s.mem.write a v } : State).Inv := by
  obtain ⟨z, r, m, e, d⟩ := h
  refine ⟨z, r, m, e, Memory.write_wf _ _ _ d.1, ?_⟩
  intro c hc
  rcases Memory.mem_write _ _ _ _ hc with ⟨rfl, -⟩ | h
  · exact ha
  · exact d.2 c h

theorem inv_clearReservation {s : State} (h : s.Inv) (k : Nat) : (s.clearReservation k).Inv :=
  inv_of_reservations h rfl ⟨removeKey_pairwise _ _ h.2.1,
    fun x hx => h.2.2 x ((mem_removeKey _ _ _).1 hx).1⟩ rfl rfl

theorem inv_scrambleByte {s : State} (h : s.Inv) (a : Nat) : (s.scrambleByte a).Inv := by
  unfold State.scrambleByte
  cases ho : s.ownerAt a with
  | none => exact h
  | some p =>
    cases hk : p.kind with
    | rom => simpa [hk] using h
    | device => simpa [hk] using h
    | ram =>
      simp only [hk]
      exact inv_of_same (inv_write h (by simp [State.isBufferByte, ho, hk]) _) rfl rfl rfl rfl

theorem inv_scrambleWords (ks : List Nat) : ∀ {s : State}, s.Inv →
    (ks.foldl State.scrambleWord s).Inv := by
  induction ks with
  | nil => exact fun h => h
  | cons k ks ih =>
    exact fun h => ih (inv_scrambleByte (inv_scrambleByte (inv_scrambleByte (inv_scrambleByte
      (inv_clearReservation h _) _) _) _) _)

theorem inv_busWrite {s : State} (h : s.Inv) {a v : Word} {n : Nat} (hn : n ∈ [1, 2, 4])
    (ha : a.toNat % n = 0) : (s.busWrite a n v).Inv := by
  unfold State.busWrite
  have h := inv_clearReservation h (wordKey a)
  generalize s.clearReservation (wordKey a) = s at *
  unfold State.deliverWrite
  cases ho : s.ownerAt a.toNat with
  | none => exact h
  | some p =>
    cases hk : p.kind with
    | rom => simpa [hk] using h
    | device => simp only [hk]; exact inv_of_same h rfl rfl rfl rfl
    | ram =>
      simp only [hk]
      obtain ⟨z, r, m, e, d⟩ := h
      refine ⟨z, r, m, e, Memory.writeBytes_wf _ _ _ d.1, ?_⟩
      intro c hc
      rcases Memory.mem_writeBytes _ _ _ _ hc with ⟨h1, h2⟩ | h
      · show s.isBufferByte c.1 = true
        rw [length_leBytes] at h2
        have : s.ownerAt c.1 = some p := by
          rw [show c.1 = a.toNat + (c.1 - a.toNat) by omega, ownerAt_add s hn ha (by omega), ho]
        simp [State.isBufferByte, this, hk]
      · exact d.2 c h

theorem inv_memWrite {s t : State} (h : s.Inv) {a v : Word} {n : Nat} (hn : n ∈ [1, 2, 4])
    (e : s.memWrite a n v = .ok t) : t.Inv := by
  rcases memWrite_cases s a n v with ⟨e', -⟩ | ⟨e', ha⟩ | ⟨e', -⟩ <;> rw [e] at e' <;> cases e'
  · exact inv_busWrite h hn ha
  · exact inv_scrambleWords _ h

theorem inv_setReg {s : State} (h : s.Inv) (r : Reg) (v : Word) : (s.setReg r v).Inv :=
  inv_of_same h (setReg_regs_zero _ _ _) (by simp) (by simp) (by simp)

theorem inv_raiseTrap {s : State} (h : s.Inv) (c : TrapCause) : (s.raiseTrap c).Inv :=
  inv_of_reservations h rfl (reservationsOk_nil rfl) rfl rfl

theorem inv_reserve {s : State} (h : s.Inv) (a : Word) : (s.reserve a).Inv := by
  refine inv_of_reservations h rfl ⟨insertKey_pairwise _ _ h.2.1, fun k hk => ?_⟩ rfl rfl
  rcases (mem_insertKey _ _ _).1 hk with rfl | hk
  · exact wordKey_lt _
  · exact h.2.2 k hk

theorem mapOk_withPeripheral {s : State} (h : s.mapOk) {r : AttachRequest}
    (ha : s.attachable r = true) : (s.withPeripheral r).mapOk := by
  simp only [State.attachable, Bool.and_eq_true, decide_eq_true_eq, List.all_eq_true] at ha
  obtain ⟨⟨⟨⟨h1, h2⟩, h3⟩, h4⟩, -⟩ := ha
  refine ⟨?_, ?_⟩
  · show (s.peripherals ++ [r.peripheral]).Pairwise _
    rw [List.pairwise_append]
    refine ⟨h.1, by simp, ?_⟩
    intro p hp q hq
    rw [List.mem_singleton] at hq
    subst hq
    exact h4 p hp
  · intro p hp
    rcases List.mem_append.1 hp with hp | hp
    · exact h.2 p hp
    · rw [List.mem_singleton] at hp
      subst hp
      simp only [AttachRequest.peripheral, pageOf, pageBytes] at *
      omega

theorem basesAligned_withPeripheral {s : State} (h : s.basesAligned) {r : AttachRequest}
    (ha : r.peripheral.baseAligned = true) : (s.withPeripheral r).basesAligned := by
  intro p hp
  rcases List.mem_append.1 hp with hp | hp
  · exact h p hp
  · rw [List.mem_singleton] at hp
    subst hp
    simpa [Peripheral.baseAligned] using ha

/-- The mask of a bus address is the local address, where the base is a multiple of P (D18). -/
theorem mask_busAddress {p : Peripheral} (h : p.base % p.wrapSize = 0) {a : Nat} (h1 : p.base ≤ a)
    (h2 : a < p.base + p.size) : a &&& (p.wrapSize - 1) = a - p.base := by
  obtain ⟨k, hk, hs⟩ := wrapSize_spec p
  rw [mask_eq_mod, show a = p.base + (a - p.base) by omega, Nat.add_mod, h, Nat.zero_add, Nat.mod_mod,
    Nat.mod_eq_of_lt (by omega)]
  omega

/-- A request's base is a page's first byte, so its peripheral's base is the requested one. -/
theorem peripheral_base {r : AttachRequest} (h : r.base.toNat % 1024 = 0) :
    r.peripheral.base = r.base.toNat := by
  simp only [Peripheral.base, AttachRequest.peripheral, pageOf, pageBytes]
  omega

end Sys2Proof.Machine
end

