-- ==== Sys2Proof/Tests/Slice0.lean ====
section
/-! SUPPORT. The model's own tests. Expected values are those of spec/95_test_vectors.md (the vector's
name stands in the comment) or of the cited rule, computed by hand; the words are the spec's. Each runs
one step, or decodes one word. The last part shows, for every obligation with hypotheses, operands and
states that meet them. -/

namespace Sys2Proof.Tests

open Sys2Proof Sys2Proof.Machine

/-! ## The ill-formed terms (R312, R313, R314) -/

theorem test_wellFormed_odd_branch : Instr.wellFormed (.beq 1#5 2#5 3#13) = false := by decide
theorem test_wellFormed_odd_jump : Instr.wellFormed (.jal 1#5 1#21) = false := by decide
theorem test_wellFormed_low_upper : Instr.wellFormed (.lui 1#5 0x00001800#32) = false := by decide
theorem test_wellFormed_low_auipc : Instr.wellFormed (.auipc 1#5 1#32) = false := by decide
theorem test_wellFormed_even : Instr.wellFormed (.bgeu 1#5 2#5 0x1FFE#13) = true := by decide

/-! ## Decoding: a word of every constructor, written out from the spec (R301, R324, 95) -/

/-- Each word decodes to its instruction, and to nothing less: the encoder gives the word back where it
has no ignored field. -/
def reads (l : List (Word × Instr)) : Bool :=
  l.all (fun p => decide ((decodeWord p.1).toOption = some p.2))

/-- V-U-1, V-U-4. -/
theorem test_decode_upper : reads
    [(0xFFFFF1B7#32, .lui 3#5 0xFFFFF000#32),
     (0xFFFFF197#32, .auipc 3#5 0xFFFFF000#32)] = true := by decide

/-- V-J-1, V-J-4, V-J-8. -/
theorem test_decode_jumps : reads
    [(0x008000EF#32, .jal 1#5 8#21),
     (0xFFDFF0EF#32, .jal 1#5 0x1FFFFC#21),
     (0x7FF280E7#32, .jalr 1#5 5#5 2047#12)] = true := by decide

/-- V-BR: offsets +16 and −16. -/
theorem test_decode_branches : reads
    [(0xFE2088E3#32, .beq 1#5 2#5 0x1FF0#13),
     (0x00209863#32, .bne 1#5 2#5 16#13),
     (0xFE20C8E3#32, .blt 1#5 2#5 0x1FF0#13),
     (0x0020D863#32, .bge 1#5 2#5 16#13),
     (0xFE20E8E3#32, .bltu 1#5 2#5 0x1FF0#13),
     (0x0020F863#32, .bgeu 1#5 2#5 16#13)] = true := by decide

/-- V-LD-3, V-LD-9, V-LD-12, V-LD-6, V-LD-10. -/
theorem test_decode_loads : reads
    [(0x00108183#32, .lb 3#5 1#5 1#12),
     (0x00209183#32, .lh 3#5 1#5 2#12),
     (0xFFC0A183#32, .lw 3#5 1#5 0xFFC#12),
     (0x0030C183#32, .lbu 3#5 1#5 3#12),
     (0x0020D183#32, .lhu 3#5 1#5 2#12)] = true := by decide

/-- V-ST-2, V-ST-4, V-ST-5. -/
theorem test_decode_stores : reads
    [(0x002081A3#32, .sb 1#5 2#5 3#12),
     (0x00209123#32, .sh 1#5 2#5 2#12),
     (0x0020A023#32, .sw 1#5 2#5 0#12)] = true := by decide

/-- V-OPI. -/
theorem test_decode_opImm : reads
    [(0x80008193#32, .addi 3#5 1#5 0x800#12),
     (0x8000A193#32, .slti 3#5 1#5 0x800#12),
     (0xFFF0B193#32, .sltiu 3#5 1#5 0xFFF#12),
     (0x0FF0C193#32, .xori 3#5 1#5 255#12),
     (0x8000E193#32, .ori 3#5 1#5 0x800#12),
     (0x7FF0F193#32, .andi 3#5 1#5 2047#12),
     (0x01F09193#32, .slli 3#5 1#5 31#5),
     (0x0010D193#32, .srli 3#5 1#5 1#5),
     (0x4010D193#32, .srai 3#5 1#5 1#5)] = true := by decide

/-- V-OP. -/
theorem test_decode_op : reads
    [(0x002081B3#32, .add 3#5 1#5 2#5),
     (0x402081B3#32, .sub 3#5 1#5 2#5),
     (0x002091B3#32, .sll 3#5 1#5 2#5),
     (0x0020A1B3#32, .slt 3#5 1#5 2#5),
     (0x0020B1B3#32, .sltu 3#5 1#5 2#5),
     (0x0020C1B3#32, .xor 3#5 1#5 2#5),
     (0x0020D1B3#32, .srl 3#5 1#5 2#5),
     (0x4020D1B3#32, .sra 3#5 1#5 2#5),
     (0x0020E1B3#32, .or 3#5 1#5 2#5),
     (0x0020F1B3#32, .and 3#5 1#5 2#5)] = true := by decide

/-- V-F-1, V-F-2. -/
theorem test_decode_fences : reads
    [(0x0FF0000F#32, .fence),
     (0x0000100F#32, .fenceI)] = true := by decide

/-- V-SYS. -/
theorem test_decode_system : reads
    [(0x00000073#32, .scall),
     (0x000182F3#32, .scall),
     (0x00100073#32, .sbreak),
     (0x10000073#32, .eret)] = true := by decide

/-- V-CSR. -/
theorem test_decode_csr : reads
    [(0x340091F3#32, .csrrw 3#5 1#5 0x340#12),
     (0xC02021F3#32, .csrrs 3#5 0#5 0xC02#12),
     (0x3400B1F3#32, .csrrc 3#5 1#5 0x340#12),
     (0x340FD1F3#32, .csrrwi 3#5 31#5 0x340#12),
     (0x3000E1F3#32, .csrrsi 3#5 1#5 0x300#12),
     (0x300471F3#32, .csrrci 3#5 8#5 0x300#12)] = true := by decide

/-- V-MD. -/
theorem test_decode_mulDiv : reads
    [(0x022081B3#32, .mul 3#5 1#5 2#5),
     (0x022091B3#32, .mulh 3#5 1#5 2#5),
     (0x0220A1B3#32, .mulhsu 3#5 1#5 2#5),
     (0x0220B1B3#32, .mulhu 3#5 1#5 2#5),
     (0x0220C1B3#32, .div 3#5 1#5 2#5),
     (0x0220D1B3#32, .divu 3#5 1#5 2#5),
     (0x0220E1B3#32, .rem 3#5 1#5 2#5),
     (0x0220F1B3#32, .remu 3#5 1#5 2#5)] = true := by decide

/-- V-A. -/
theorem test_decode_atomics : reads
    [(0x1000A12F#32, .lrW 2#5 1#5),
     (0x1840A1AF#32, .scW 3#5 1#5 4#5),
     (0x0820A1AF#32, .amoswapW 3#5 1#5 2#5),
     (0x0020A1AF#32, .amoaddW 3#5 1#5 2#5),
     (0x2020A1AF#32, .amoxorW 3#5 1#5 2#5),
     (0x6020A1AF#32, .amoandW 3#5 1#5 2#5),
     (0x4020A1AF#32, .amoorW 3#5 1#5 2#5),
     (0x8020A1AF#32, .amominW 3#5 1#5 2#5),
     (0xA020A1AF#32, .amomaxW 3#5 1#5 2#5),
     (0xC020A1AF#32, .amominuW 3#5 1#5 2#5),
     (0xE020A1AF#32, .amomaxuW 3#5 1#5 2#5)] = true := by decide

/-- V-ILL-1 to V-ILL-16, with the name each is rejected by. -/
theorem test_decode_illegal :
    [0x00000000#32, 0x00000001#32, 0xFFFFFFFF#32, 0x00000007#32, 0x0000001B#32, 0x0000300F#32,
      0x00001067#32, 0x4000E033#32, 0x0600D033#32, 0x40001013#32, 0x0000B003#32, 0x00003023#32,
      0x1000302F#32, 0x2800202F#32, 0x00004073#32, 0x10500073#32].map
        (fun w => match decodeWord w with | .ok _ => none | .error e => some e) =
    [some .notThirtyTwoBit, some .notThirtyTwoBit, some .unknownTag, some .unknownTag, some .unknownTag,
      some .miscMemFunct3, some .jalrFunct3, some .opFunct3, some .opFunct7, some .opImmFunct7,
      some .loadFunct3, some .storeFunct3, some .amoFunct3, some .amoFunct5, some .systemFunct3,
      some .systemFunct12] := by decide

/-- V-BR-15: BRANCH funct3 = 010. -/
theorem test_decode_illegal_branch :
    decodeWord 0x0020A863#32 = .error .branchFunct3 := by decide

/-- Fewer than four bytes. -/
theorem test_decode_truncated :
    (match decode [0x13#8, 0#8, 0#8] with | .ok _ => none | .error e => some e) = some .truncated := by
  decide

/-- The first byte is the least significant (D1). -/
theorem test_decode_bytes :
    (decode [0x93#8, 0x81#8, 0x20#8, 0x00#8, 0xAA#8]).toOption
      = some (.addi 3#5 1#5 2#12, [0xAA#8]) := by decide

theorem test_decodeTableWord : decodeTableWord 32 0x00008067 = some (.jalr 0#5 1#5 0#12) := by decide

/-! ## One step (95, with its configuration: RAM at 0, a ROM page at 0x10000 holding 0xCAFEBABE) -/

/-- 8 pages of RAM at 0, one of ROM at 0x10000, one of a device at 0x20000, 3 of RAM at 0x40000; pc at
0x100. -/
def platform : State :=
  { State.reset with
    pc := 0x100#32
    peripherals := [⟨.ram, 0, 8⟩, ⟨.rom, 64, 1⟩, ⟨.device, 128, 1⟩, ⟨.ram, 256, 3⟩]
    mem := Memory.writeBytes [] 0x10000 (leBytes 4 0xCAFEBABE)
    cfg := { defaultParams with devicesAdmitted := true } }

/-- x1 and x2 set, x3 at 0xDEAD. -/
def withRegs (a b : Word) : State :=
  ((platform.setReg 1#5 a).setReg 2#5 b).setReg 3#5 0x0000DEAD#32

/-- A word of memory set. -/
def State.poke (s : State) (a v : Nat) : State := { s with mem := s.mem.writeBytes a (leBytes 4 v) }

/-- One step of the word at pc. -/
def after (w : Nat) (s : State) : Option State :=
  match step (s.withFetchWord 32 w) with
  | .next t => some t
  | _ => none

/-- The fault of one step of the word at pc. -/
def stops (w : Nat) (s : State) : Option Fault :=
  match step (s.withFetchWord 32 w) with
  | .fault f => some f
  | _ => none

/-- x3 after one step. -/
def x3 (w : Nat) (s : State) : Option Word := (after w s).map (fun t => t.reg 3#5)

/-- pc and x1 after one step. -/
def pcX1 (w : Nat) (s : State) : Option (Word × Word) := (after w s).map (fun t => (t.pc, t.reg 1#5))

/-- A word of memory after one step. -/
def word (w a : Nat) (s : State) : Option Nat := (after w s).map (fun t => t.valueAt a 4)

/-- The trap's registers after one step: pc, mepc, mcause and x3; ie, ie1, the reservations, instret. -/
def trapState (w : Nat) (s : State) : Option ((Word × Word × Word × Word) × Bool × Bool × List Nat × Nat) :=
  (after w s).map (fun t =>
    ((t.pc, t.mepc, t.mcause, t.reg 3#5), t.ie, t.ie1, t.reservations, t.instret.toNat))

/-- The start of 2.7, 2.10 and 2.11: interrupts on, word 5 reserved. -/
def armed : State := { withRegs 0#32 0#32 with ie := true, reservations := [5] }

/-! ### Register results -/

/-- V-OPI-1. -/
theorem test_addi : x3 0x00108193 (withRegs 0x7FFFFFFF#32 0x00000000#32) = some 0x80000000#32 := by decide
/-- V-OPI-3. -/
theorem test_addi_negative : x3 0x80008193 (withRegs 0xFFFFFFFF#32 0x00000000#32) = some 0xFFFFF7FF#32 := by decide
/-- V-OPI-7. -/
theorem test_slti : x3 0x8000A193 (withRegs 0x80000000#32 0x00000000#32) = some 0x00000001#32 := by decide
/-- V-OPI-6. -/
theorem test_slti_false : x3 0xFFF0A193 (withRegs 0x00000000#32 0x00000000#32) = some 0x00000000#32 := by decide
/-- V-OPI-8. -/
theorem test_sltiu : x3 0xFFF0B193 (withRegs 0x00000000#32 0x00000000#32) = some 0x00000001#32 := by decide
/-- V-OPI-9. -/
theorem test_sltiu_equal : x3 0xFFF0B193 (withRegs 0xFFFFFFFF#32 0x00000000#32) = some 0x00000000#32 := by decide
/-- V-OPI-11. -/
theorem test_xori : x3 0xFFF0C193 (withRegs 0x12345678#32 0x00000000#32) = some 0xEDCBA987#32 := by decide
/-- V-OPI-13. -/
theorem test_ori : x3 0x8000E193 (withRegs 0x80000000#32 0x00000000#32) = some 0xFFFFF800#32 := by decide
/-- V-OPI-14. -/
theorem test_andi : x3 0x8000F193 (withRegs 0xFFFFFFFF#32 0x00000000#32) = some 0xFFFFF800#32 := by decide
/-- V-OPI-16. -/
theorem test_slli : x3 0x01F09193 (withRegs 0x00000001#32 0x00000000#32) = some 0x80000000#32 := by decide
/-- V-OPI-18. -/
theorem test_srli : x3 0x01F0D193 (withRegs 0x80000000#32 0x00000000#32) = some 0x00000001#32 := by decide
/-- V-OPI-20. -/
theorem test_srai : x3 0x41F0D193 (withRegs 0x80000000#32 0x00000000#32) = some 0xFFFFFFFF#32 := by decide
/-- V-OPI-21. -/
theorem test_srai_one : x3 0x4010D193 (withRegs 0x80000000#32 0x00000000#32) = some 0xC0000000#32 := by decide
/-- V-OP-1. -/
theorem test_add : x3 0x002081B3 (withRegs 0x7FFFFFFF#32 0x00000001#32) = some 0x80000000#32 := by decide
/-- V-OP-3. -/
theorem test_sub : x3 0x402081B3 (withRegs 0x00000000#32 0x00000001#32) = some 0xFFFFFFFF#32 := by decide
/-- V-OP-5. -/
theorem test_sll : x3 0x002091B3 (withRegs 0x00000001#32 0x00000021#32) = some 0x00000002#32 := by decide
/-- V-OP-7. -/
theorem test_slt : x3 0x0020A1B3 (withRegs 0x80000000#32 0x7FFFFFFF#32) = some 0x00000001#32 := by decide
/-- V-OP-8. -/
theorem test_slt_false : x3 0x0020A1B3 (withRegs 0x7FFFFFFF#32 0x80000000#32) = some 0x00000000#32 := by decide
/-- V-OP-9. -/
theorem test_sltu : x3 0x0020B1B3 (withRegs 0x80000000#32 0x7FFFFFFF#32) = some 0x00000000#32 := by decide
/-- V-OP-10. -/
theorem test_sltu_true : x3 0x0020B1B3 (withRegs 0x00000000#32 0x00000001#32) = some 0x00000001#32 := by decide
/-- V-OP-11. -/
theorem test_xor : x3 0x0020C1B3 (withRegs 0xFFFF0000#32 0x0FF00FF0#32) = some 0xF00F0FF0#32 := by decide
/-- V-OP-12. -/
theorem test_srl : x3 0x0020D1B3 (withRegs 0x80000000#32 0x0000003F#32) = some 0x00000001#32 := by decide
/-- V-OP-13. -/
theorem test_sra : x3 0x4020D1B3 (withRegs 0x80000000#32 0x0000003F#32) = some 0xFFFFFFFF#32 := by decide
/-- V-OP-15. -/
theorem test_or : x3 0x0020E1B3 (withRegs 0xF0000000#32 0x0000000F#32) = some 0xF000000F#32 := by decide
/-- V-OP-16. -/
theorem test_and : x3 0x0020F1B3 (withRegs 0xF0F0F0F0#32 0xFF00FF00#32) = some 0xF000F000#32 := by decide
/-- V-MD-4. -/
theorem test_mul : x3 0x022081B3 (withRegs 0x80000000#32 0xFFFFFFFF#32) = some 0x80000000#32 := by decide
/-- V-MD-3. -/
theorem test_mul_wraps : x3 0x022081B3 (withRegs 0x00010000#32 0x00010000#32) = some 0x00000000#32 := by decide
/-- V-MD-5. -/
theorem test_mulh : x3 0x022091B3 (withRegs 0x80000000#32 0x80000000#32) = some 0x40000000#32 := by decide
/-- V-MD-7. -/
theorem test_mulh_negative : x3 0x022091B3 (withRegs 0xFFFFFFFF#32 0x00000001#32) = some 0xFFFFFFFF#32 := by decide
/-- V-MD-15. -/
theorem test_div : x3 0x0220C1B3 (withRegs 0xFFFFFFF9#32 0x00000002#32) = some 0xFFFFFFFD#32 := by decide
/-- V-MD-19. -/
theorem test_div_overflow : x3 0x0220C1B3 (withRegs 0x80000000#32 0xFFFFFFFF#32) = some 0x80000000#32 := by decide
/-- V-MD-23. -/
theorem test_divu : x3 0x0220D1B3 (withRegs 0x80000000#32 0xFFFFFFFF#32) = some 0x00000000#32 := by decide
/-- V-MD-22. -/
theorem test_divu_zero : x3 0x0220D1B3 (withRegs 0x00000005#32 0x00000000#32) = some 0xFFFFFFFF#32 := by decide
/-- V-MD-26. -/
theorem test_rem : x3 0x0220E1B3 (withRegs 0xFFFFFFF9#32 0x00000002#32) = some 0xFFFFFFFF#32 := by decide
/-- V-MD-29. -/
theorem test_rem_zero : x3 0x0220E1B3 (withRegs 0x00000005#32 0x00000000#32) = some 0x00000005#32 := by decide
/-- V-MD-33. -/
theorem test_remu : x3 0x0220F1B3 (withRegs 0xFFFFFFFF#32 0x00000010#32) = some 0x0000000F#32 := by decide
/-- V-MD-32. -/
theorem test_remu_zero : x3 0x0220F1B3 (withRegs 0x00000005#32 0x00000000#32) = some 0x00000005#32 := by decide
/-- V-U-2. -/
theorem test_lui : x3 0x123451B7 (withRegs 0x00000000#32 0x00000000#32) = some 0x12345000#32 := by decide
/-- V-U-4. -/
theorem test_auipc : x3 0xFFFFF197 (withRegs 0x00000000#32 0x00000000#32) = some 0xFFFFF100#32 := by decide

/-- V-U-5: x0 stays 0. -/
theorem test_lui_x0 : (after 0x00001037 (withRegs 0#32 0#32)).map (fun t => t.reg 0#5) = some 0#32 := by
  decide

/-- V-OP-17: `add x5, x5, x5` reads both before it writes. -/
theorem test_add_same : (after 0x005282B3 (platform.setReg 5#5 0x15#32)).map (fun t => t.reg 5#5)
    = some 0x2A#32 := by decide

/-- MULHSU and MULHU complete, whatever their functions give (R583, R584): pc and the operands. -/
theorem test_mulhsu : pcX1 0x0220A1B3 (withRegs 5#32 6#32) = some (0x104#32, 5#32) := by decide
theorem test_mulhu : pcX1 0x0220B1B3 (withRegs 5#32 6#32) = some (0x104#32, 5#32) := by decide

/-! ### Control transfer: pc (and x1) after the step -/

/-- V-BR-1. -/
theorem test_beq : pcX1 0xFE2088E3 (withRegs 0x00000005#32 0x00000005#32) = some (0x000000F0#32, 0x00000005#32) := by decide
/-- V-BR-2. -/
theorem test_beq_not : pcX1 0x00208863 (withRegs 0x00000005#32 0x00000006#32) = some (0x00000104#32, 0x00000005#32) := by decide
/-- V-BR-3. -/
theorem test_bne : pcX1 0x00209863 (withRegs 0x00000005#32 0x00000006#32) = some (0x00000110#32, 0x00000005#32) := by decide
/-- V-BR-4. -/
theorem test_bne_not : pcX1 0x00209863 (withRegs 0x00000005#32 0x00000005#32) = some (0x00000104#32, 0x00000005#32) := by decide
/-- V-BR-5. -/
theorem test_blt : pcX1 0xFE20C8E3 (withRegs 0xFFFFFFFF#32 0x00000001#32) = some (0x000000F0#32, 0xFFFFFFFF#32) := by decide
/-- V-BR-6. -/
theorem test_blt_not : pcX1 0x0020C863 (withRegs 0x00000001#32 0xFFFFFFFF#32) = some (0x00000104#32, 0x00000001#32) := by decide
/-- V-BR-8. -/
theorem test_bge : pcX1 0x0020D863 (withRegs 0x00000005#32 0x00000005#32) = some (0x00000110#32, 0x00000005#32) := by decide
/-- V-BR-9. -/
theorem test_bge_not : pcX1 0x0020D863 (withRegs 0xFFFFFFFF#32 0x00000001#32) = some (0x00000104#32, 0xFFFFFFFF#32) := by decide
/-- V-BR-10. -/
theorem test_bltu : pcX1 0x0020E863 (withRegs 0x00000001#32 0xFFFFFFFF#32) = some (0x00000110#32, 0x00000001#32) := by decide
/-- V-BR-11. -/
theorem test_bltu_not : pcX1 0x0020E863 (withRegs 0xFFFFFFFF#32 0x00000001#32) = some (0x00000104#32, 0xFFFFFFFF#32) := by decide
/-- V-BR-14. -/
theorem test_bgeu : pcX1 0xFE20F8E3 (withRegs 0x00000000#32 0x00000000#32) = some (0x000000F0#32, 0x00000000#32) := by decide
/-- V-BR-13. -/
theorem test_bgeu_not : pcX1 0x0020F863 (withRegs 0x00000001#32 0xFFFFFFFF#32) = some (0x00000104#32, 0x00000001#32) := by decide

/-- V-J-1, V-J-4: the link, and a target that wraps. -/
theorem test_jal : [pcX1 0x008000EF platform, pcX1 0xFFDFF0EF (platform.setPc 0#32)]
    = [some (0x108#32, 0x104#32), some (0xFFFFFFFC#32, 4#32)] := by decide
/-- V-J-8: the sum wraps and bit 0 is cleared. -/
theorem test_jalr : pcX1 0x7FF280E7 (platform.setReg 5#5 0xFFFFFFFF#32) = some (0x7FE#32, 0x104#32) := by
  decide
/-- V-J-7: rd = rs1, the old x5 is used. -/
theorem test_jalr_same : (after 0x004282E7 (platform.setReg 5#5 0x200#32)).map
    (fun t => (t.pc, t.reg 5#5)) = some (0x204#32, 0x104#32) := by decide
/-- V-J-10: a misaligned target is not checked, and the next fetch is a ModelFault. -/
theorem test_jal_misaligned : ((after 0x0020006F platform).map (fun t => match step t with
    | .fault f => some f
    | _ => none)) = some (some .misalignedFetch) := by decide

/-! ### Loads and stores -/

/-- Word 0xF00D8081 at 0x200 (2.6). -/
def loads (a : Word) : State := State.poke (withRegs a 0#32) 0x200 0xF00D8081

/-- V-LD-1. -/
theorem test_lb : x3 0x00008183 (loads 0x200#32) = some 0xFFFFFF81#32 := by decide
/-- V-LD-6. -/
theorem test_lbu : x3 0x0030C183 (loads 0x200#32) = some 0xF0#32 := by decide
/-- V-LD-9. -/
theorem test_lh : x3 0x00209183 (loads 0x200#32) = some 0xFFFFF00D#32 := by decide
/-- V-LD-10. -/
theorem test_lhu : x3 0x0020D183 (loads 0x200#32) = some 0xF00D#32 := by decide
/-- V-LD-12, V-LD-13, V-LD-14: RAM with a negative offset, ROM, unmapped space. -/
theorem test_lw : [x3 0xFFC0A183 (loads 0x204#32), x3 0x0000A183 (loads 0x10000#32),
    x3 0x0000A183 (loads 0x80000000#32)] = [some 0xF00D8081#32, some 0xCAFEBABE#32, some 0#32] := by decide
/-- V-LD-15. -/
theorem test_lw_misaligned : stops 0x0000A183 (loads 0x202#32) = some .misalignedData := by decide

/-- Word 0x11223344 at 0x300, x2 = 0xAABBCCDD (2.6). -/
def stores (a : Word) : State := State.poke (withRegs a 0xAABBCCDD#32) 0x300 0x11223344

/-- V-ST-2. -/
theorem test_sb : word 0x002081A3 0x300 (stores 0x300#32) = some 0xDD223344 := by decide
/-- V-ST-4. -/
theorem test_sh : word 0x00209123 0x300 (stores 0x300#32) = some 0xCCDD3344 := by decide
/-- V-ST-5, V-ST-6, V-ST-7: RAM, ROM, unmapped space. -/
theorem test_sw : [word 0x0020A023 0x300 (stores 0x300#32), word 0x0020A023 0x10000 (stores 0x10000#32),
    word 0x0020A023 0x80000000 (stores 0x80000000#32)]
      = [some 0xAABBCCDD, some 0xCAFEBABE, some 0] := by decide
/-- V-ST-8. -/
theorem test_sw_misaligned : stops 0x0020A023 (stores 0x302#32) = some .misalignedData := by decide
/-- D36: a store to a device is recorded. -/
theorem test_sh_device : (after 0x00209023 (stores 0x20000#32)).map (fun t => t.deviceWrites)
    = some [⟨0x20000#32, 2, 0xCCDD#32⟩] := by decide

/-- V-F-1, V-F-2: nothing but pc and the counter. -/
theorem test_fence : trapState 0x0FF0000F armed
    = some ((0x104#32, 0#32, 0#32, 0xDEAD#32), true, false, [5], 1) := by decide
theorem test_fenceI : trapState 0x0000100F armed
    = some ((0x104#32, 0#32, 0#32, 0xDEAD#32), true, false, [5], 1) := by decide

/-! ### Atomics (2.8): x3, the word at 0x100 and the reservations -/

/-- mem[0x100] = init, x1 = 0x100, x2 = src, the key 0x40 reserved; code at 0x200. -/
def amo (init : Nat) (src : Word) : State :=
  { State.poke (withRegs 0x100#32 src) 0x100 init with pc := 0x200#32, reservations := [0x40] }

def amoState (w init : Nat) (src : Word) : Option (Word × Nat × List Nat) :=
  (after w (amo init src)).map (fun t => (t.reg 3#5, t.valueAt 0x100 4, t.reservations))

/-- V-A-1. -/
theorem test_amoswapW : amoState 0x0820A1AF 0x7 0x9#32 = some (0x00000007#32, 0x9, []) := by decide
/-- V-A-3. -/
theorem test_amoaddW : amoState 0x0020A1AF 0xFFFFFFFF 0x1#32 = some (0xFFFFFFFF#32, 0x0, []) := by decide
/-- V-A-4. -/
theorem test_amoxorW : amoState 0x2020A1AF 0xF 0xFF#32 = some (0x0000000F#32, 0xF0, []) := by decide
/-- V-A-5. -/
theorem test_amoandW : amoState 0x6020A1AF 0xF 0xFC#32 = some (0x0000000F#32, 0xC, []) := by decide
/-- V-A-6. -/
theorem test_amoorW : amoState 0x4020A1AF 0xF 0xF0#32 = some (0x0000000F#32, 0xFF, []) := by decide
/-- V-A-7. -/
theorem test_amominW : amoState 0x8020A1AF 0xFFFFFFFF 0x1#32 = some (0xFFFFFFFF#32, 0xFFFFFFFF, []) := by decide
/-- V-A-10. -/
theorem test_amomaxW : amoState 0xA020A1AF 0x80000000 0x7FFFFFFF#32 = some (0x80000000#32, 0x7FFFFFFF, []) := by decide
/-- V-A-11. -/
theorem test_amominuW : amoState 0xC020A1AF 0xFFFFFFFF 0x1#32 = some (0xFFFFFFFF#32, 0x1, []) := by decide
/-- V-A-13. -/
theorem test_amomaxuW : amoState 0xE020A1AF 0xFFFFFFFF 0x1#32 = some (0xFFFFFFFF#32, 0xFFFFFFFF, []) := by decide

/-- The start of the LR/SC vectors: word 0x2A at 0x100, x1 = 0x100, x4 = 5, a given reservation set. -/
def lrSc (l : List Nat) : State :=
  { (State.poke (withRegs 0x100#32 0#32) 0x100 0x2A).setReg 4#5 5#32 with
    pc := 0x200#32, reservations := l }

/-- V-A-16. -/
theorem test_lrW : (after 0x1000A12F (lrSc [])).map (fun t => (t.reg 2#5, t.valueAt 0x100 4, t.reservations))
    = some (0x2A#32, 0x2A, [0x40]) := by decide
/-- V-A-24: unmapped. -/
theorem test_lrW_unmapped : (after 0x1000A12F ((lrSc []).setReg 1#5 0x80000000#32)).map
    (fun t => (t.reg 2#5, t.reservations)) = some (0#32, [0x20000000]) := by decide
/-- V-A-17, V-A-22: rd is not written, other keys stay. -/
theorem test_scW : (after 0x1840A1AF (lrSc [0x40, 0x60])).map
    (fun t => (t.reg 3#5, t.valueAt 0x100 4, t.reservations)) = some (0xDEAD#32, 5, [0x60]) := by decide
/-- V-A-19. -/
theorem test_scW_fails : (after 0x1840A1AF (lrSc [])).map
    (fun t => (t.reg 3#5, t.valueAt 0x100 4, t.reservations)) = some (1#32, 0x2A, []) := by decide

/-! ### CSR instructions (2.9) and SYSTEM (2.10) -/

/-- x3 and mscratch after one step. -/
def x3Scratch (w : Nat) (a scratch : Word) : Option (Word × Word) :=
  (after w { withRegs a 0#32 with mscratch := scratch }).map (fun t => (t.reg 3#5, t.mscratch))

/-- V-CSR-1. -/
theorem test_csrrw : x3Scratch 0x340091F3 0x12345678#32 0xAA#32 = some (0xAA#32, 0x12345678#32) := by decide
/-- V-CSR-2. -/
theorem test_csrrs : x3Scratch 0x3400A1F3 0x0F#32 0xF0#32 = some (0xF0#32, 0xFF#32) := by decide
/-- V-CSR-3. -/
theorem test_csrrc : x3Scratch 0x3400B1F3 0x0F#32 0xFF#32 = some (0xFF#32, 0xF0#32) := by decide
/-- V-CSR-4. -/
theorem test_csrrwi : x3Scratch 0x340FD1F3 0#32 0xAA#32 = some (0xAA#32, 0x1F#32) := by decide
/-- R644, R645 on mscratch. -/
theorem test_csrrsi : x3Scratch 0x3400E1F3 0#32 0xF0#32 = some (0xF0#32, 0xF1#32) := by decide
theorem test_csrrci : x3Scratch 0x340471F3 0#32 0xFF#32 = some (0xFF#32, 0xF7#32) := by decide
/-- V-CSR-7: only ie and ie1 of mstatus are written. -/
theorem test_csrrw_mstatus : (after 0x300091F3 (withRegs 0xFFFFFFFF#32 0#32)).map (fun t => (t.ie, t.ie1))
    = some (true, true) := by decide
/-- V-CSR-6, as far as ie1 (the rest is MSTATUS_FIXED, which is open). -/
theorem test_mstatus_ie1 : ({ platform with ie1 := true }.csrRead .mstatus) = mstatusFixed ||| 8#32 := by
  simp [State.csrRead, State.mstatus, platform, ieBit, ie1Bit, show State.reset.ie = false from rfl]
/-- V-CSR-8 to V-CSR-13: the counter's halves before this step's increment, the constants. -/
theorem test_csrrs_reads :
    [x3 0xC02021F3 { platform with instret := 41#64 },
      x3 0xC82021F3 { platform with instret := 0x100000005#64 },
      x3 0xF00021F3 platform, x3 0xF01021F3 platform, x3 0xF10021F3 platform, x3 0xC00021F3 platform]
      = [some 41#32, some 1#32, some 0x1101#32, some 0x108000#32, some 0#32, some 0#32] := by decide
/-- As V-CSR-16, with CSRRC: the read of an unsupported CSR traps, x3 stays. -/
theorem test_csrrc_unsupported : trapState 0x7C0031F3 armed
    = some ((0x1C0#32, 0x100#32, 2#32, 0xDEAD#32), false, true, [], 1) := by decide
/-- As V-CSR-14, with CSRRSI x3, mcpuid, 1: x3 is open (D15), pc, cause and ie1 are not. -/
theorem test_csrrsi_readonly : (after 0xF000E1F3 armed).map (fun t => (t.pc, t.mcause, t.ie1))
    = some (0x1C0#32, 2#32, true) := by decide

/-- V-SYS-1, V-SYS-3. -/
theorem test_scall : trapState 0x00000073 armed
    = some ((0x1C0#32, 0x100#32, 11#32, 0xDEAD#32), false, true, [], 1) := by decide
theorem test_scall_fields : trapState 0x000182F3 armed
    = some ((0x1C0#32, 0x100#32, 11#32, 0xDEAD#32), false, true, [], 1) := by decide
/-- V-SYS-2. -/
theorem test_sbreak : trapState 0x00100073 armed
    = some ((0x1C0#32, 0x100#32, 3#32, 0xDEAD#32), false, true, [], 1) := by decide
/-- V-SYS-5, V-SYS-6. -/
theorem test_eret : trapState 0x10000073 { armed with mepc := 0x206#32 }
    = some ((0x206#32, 0x206#32, 0#32, 0xDEAD#32), false, true, [], 1) := by decide
/-- V-SYS-4. -/
theorem test_eret_restores : trapState 0x10000073 { armed with mepc := 0x204#32, ie := false, ie1 := true }
    = some ((0x204#32, 0x204#32, 0#32, 0xDEAD#32), true, true, [], 1) := by decide
/-- V-ILL-1. -/
theorem test_illegal_word : trapState 0x00000000 armed
    = some ((0x1C0#32, 0x100#32, 2#32, 0xDEAD#32), false, true, [], 1) := by decide

/-! ### Reset and the host (R712, R800, R820) -/

theorem test_reset_pc : State.reset.pc = 0#32 := by decide
/-- R712, R713: cause 15, pc at the vector, nothing counted. -/
theorem test_external_interrupt : (fun t : State => ((t.pc, t.mepc, t.mcause), t.ie, t.ie1, t.reservations,
    t.instret)) armed.externalInterrupt = ((0x1C0#32, 0x100#32, 15#32), false, true, [], 0#64) := by decide
/-- R224: the host writes RAM, not ROM; R225: the local address wraps. -/
theorem test_buffer_write : (match platform.bufferWrite 0 0x2004 0xAB#8, platform.bufferWrite 1 0 0#8 with
    | .next t, .refused r => some (t.byteAt 4, r)
    | _, _ => none) = some (0xAB#8, .romBufferWrite) := by decide
/-- R220: an overlapping attachment is rejected, a free one accepted. -/
theorem test_attach : [⟨.ram, 0x1C00#32, 2, []⟩, ⟨.ram, 0x2000#32, 2, []⟩, ⟨.ram, 0x2200#32, 1, []⟩].map
    (fun r => platform.attachable r) = [false, true, false] := by decide
/-- R225, D34: a buffer of 3 pages wraps at 4096, and its fourth page is outside it. -/
theorem test_buffer_outside : (match platform.bufferWrite 3 0x1005 0xAB#8, platform.bufferWrite 3 0xC00 0#8 with
    | .next t, .fault f => some (t.byteAt 0x40005, f)
    | _, _ => none) = some (0xAB#8, .outsideBuffer) := by decide
/-- R226: a map that breaks BASES_ALIGNED is refused, one that keeps it launches. -/
theorem test_launch : [[⟨.ram, 0x400#32, 2, []⟩], [⟨.rom, 0x800#32, 2, []⟩, ⟨.ram, 0x800#32, 1, []⟩]].map
    (fun map => match launch defaultParams map with
      | .next t => some t.peripherals
      | _ => none) = [none, some [⟨.rom, 2, 2⟩]] := by decide
/-- R840, R712: the run's two steps with an interrupt between them, counted as two. -/
theorem test_calls : (match afterCalls [.step, .externalInterrupt, .step] platform with
    | .next t => some (t.instret, t.mepc, t.mcause)
    | _ => none) = some (2#64, 0x1C0#32, 2#32) := by decide
/-- R340. -/
theorem test_asm : asmOf (.sw 1#5 2#5 0xFFC#12) = "sw x2, -4(x1)" := by decide

/-! ## Witnesses: operands and states that meet the hypotheses of each obligation, clause by clause -/

/-- The demo platform with MISALIGNED_DATA and MISALIGNED_FETCH at Draw. -/
def drawing : State :=
  { platform with cfg := { platform.cfg with misalignedData := .draw, misalignedFetch := .draw } }

theorem platform_inv : platform.Inv := by
  refine ⟨by show platform.regs[0] = 0#32; decide, ?_, ?_, ?_, ?_⟩
  · show platform.reservations.Pairwise (fun x y => x < y) ∧ ∀ k ∈ platform.reservations, k < 2 ^ 30
    decide
  · show platform.peripherals.Pairwise (fun p q => p.apart q = true)
      ∧ ∀ p ∈ platform.peripherals, 1 ≤ p.pages ∧ p.firstPage + p.pages ≤ 2 ^ 22
    decide
  · show ∀ p ∈ platform.peripherals, p.base % p.wrapSize = 0
    decide
  · show platform.mem.wf ∧ ∀ c ∈ platform.mem, platform.isBufferByte c.1 = true
    decide

theorem platform_wf : platform.mem.wf ∧ drawing.mem.wf := by decide

/-- The least and greatest offsets that the encodings hold, and a U immediate. -/
theorem test_witness_DecodeOfEncode :
    Instr.wellFormed (.jal 1#5 0x100000#21) = true ∧ Instr.wellFormed (.jal 1#5 0x0FFFFE#21) = true
      ∧ Instr.wellFormed (.beq 1#5 2#5 0x1000#13) = true ∧ Instr.wellFormed (.blt 1#5 2#5 0xFFE#13) = true
      ∧ Instr.wellFormed (.auipc 31#5 0xFFFFF000#32) = true
      ∧ Instr.wellFormed (.csrrci 31#5 31#5 0xFFF#12) = true := by decide

/-- V-SYS-3: SCALL with rd = 5 and rs1 = 3, and the word without them. -/
theorem test_witness_DecodeReadsEveryBit :
    decodeWord 0x000182F3#32 = .ok .scall
      ∧ (0x00000073#32 : Word) &&& ~~~(ignoredBits .scall) = 0x000182F3#32 &&& ~~~(ignoredBits .scall) := by
  decide

theorem test_witness_UnsupportedOpcodesTrap :
    (0x00000000#32 : Word).extractLsb' 0 2 ≠ 0b11#2 ∧ (0x00000012#32 : Word).extractLsb' 0 2 ≠ 0b11#2
      ∧ tagOf 0x00000007#32 = 0b00001#5 ∧ tagOf 0xFFFFFFFF#32 = 0b11111#5 := by decide

/-- V-ILL-1 to V-ILL-16, V-BR-15 and an SRLI with funct7 = 1000000: they reach every clause of R330 (a)
to (c). -/
def illegalWords : List Word :=
  [0x00000000#32, 0x00000001#32, 0xFFFFFFFF#32, 0x00000007#32, 0x0000001B#32, 0x0000300F#32,
    0x00001067#32, 0x4000E033#32, 0x0600D033#32, 0x40001013#32, 0x0000B003#32, 0x00003023#32,
    0x1000302F#32, 0x2800202F#32, 0x00004073#32, 0x10500073#32, 0x0020A863#32, 0x80005013#32]

theorem illegalWords_all : illegalWords.all (fun w => decide (IllegalEncoding w)) = true := by decide

/-- Every one of them, and a legal word. -/
theorem test_witness_IllegalEncodingsTrap :
    (∀ w ∈ illegalWords, IllegalEncoding w) ∧ ¬ IllegalEncoding 0x00000013#32 :=
  ⟨fun w hw => of_decide_eq_true (List.all_eq_true.1 illegalWords_all w hw), by decide⟩

/-- One word per clause, with its sign bit set where it has one: ADDI −2048, SW −32, BEQ −16, JAL −4,
LUI 0xFFFFF000. -/
theorem test_witness_ImmediatesOfWords :
    decodeWord 0x80008193#32 = .ok (.addi 3#5 1#5 0x800#12) ∧ tagOf 0x80008193#32 = 0b00100#5
      ∧ funct3Of 0x80008193#32 = 0b000#3
      ∧ decodeWord 0xFE20A023#32 = .ok (.sw 1#5 2#5 0xFE0#12) ∧ tagOf 0xFE20A023#32 = 0b01000#5
      ∧ decodeWord 0xFE2088E3#32 = .ok (.beq 1#5 2#5 0x1FF0#13) ∧ tagOf 0xFE2088E3#32 = 0b11000#5
      ∧ decodeWord 0xFFDFF0EF#32 = .ok (.jal 1#5 0x1FFFFC#21) ∧ tagOf 0xFFDFF0EF#32 = 0b11011#5
      ∧ decodeWord 0xFFFFF1B7#32 = .ok (.lui 3#5 0xFFFFF000#32) ∧ tagOf 0xFFFFF1B7#32 = 0b01101#5 := by
  decide

/-- The NOP of V-OPI-23 at pc. -/
def nopReady : State := platform.withFetchWord 32 0x00000013

/-- A NOP in RAM; a pc in the device's page. -/
theorem test_witness_StepRunsDecodedInstruction :
    ((platform.setPc 0x203FC#32).pc.toNat % 4 = 0
      ∧ (platform.setPc 0x203FC#32).isDevicePage (platform.setPc 0x203FC#32).pc.toNat = true)
      ∧ nopReady.pc.toNat % 4 = 0 ∧ nopReady.isDevicePage nopReady.pc.toNat = false
      ∧ decode [nopReady.byteAt nopReady.pc.toNat, nopReady.byteAt (nopReady.pc.toNat + 1),
        nopReady.byteAt (nopReady.pc.toNat + 2), nopReady.byteAt (nopReady.pc.toNat + 3)]
          = .ok (.addi 0#5 0#5 0#12, []) := by decide

/-- Nothing is stored at pc: the word 0. -/
theorem test_witness_StepOfIllegalWord :
    platform.pc.toNat % 4 = 0 ∧ platform.isDevicePage platform.pc.toNat = false
      ∧ ∀ i, decode [platform.byteAt platform.pc.toNat, platform.byteAt (platform.pc.toNat + 1),
        platform.byteAt (platform.pc.toNat + 2), platform.byteAt (platform.pc.toNat + 3)]
          ≠ .ok (i, []) := by
  refine ⟨by decide, by decide, fun i => ?_⟩
  have : decode [platform.byteAt platform.pc.toNat, platform.byteAt (platform.pc.toNat + 1),
      platform.byteAt (platform.pc.toNat + 2), platform.byteAt (platform.pc.toNat + 3)]
        = .error .notThirtyTwoBit := by decide
  rw [this]
  exact fun h => nomatch h

/-- A step, and a run of two steps with an external interrupt between them. -/
theorem test_witness_StepCountsAndCommits :
    (∃ t, step nopReady = .next t)
      ∧ ∃ t, afterCalls [.step, .externalInterrupt, .step] nopReady = .next t :=
  ⟨⟨_, rfl⟩, ⟨_, rfl⟩⟩

/-- A pc of each alignment under each setting, and a misaligned load. -/
theorem test_witness_StepStopsOnlyInModelFaults :
    step (platform.setPc 0x102#32) = .fault .misalignedFetch
      ∧ ((drawing.setPc 0x103#32).pc.toNat % 4 ≠ 0 ∧ (drawing.setPc 0x103#32).cfg.misalignedFetch = .draw)
      ∧ step ((withRegs 0x202#32 0#32).withFetchWord 32 0x0000A183) = .fault .misalignedData
      ∧ dataAccess (.lw 3#5 1#5 0#12) (withRegs 0x202#32 0#32) = some (0x202#32, 4) ∧ 0x202 % 4 ≠ 0 :=
  ⟨rfl, by decide, rfl, by decide, by decide⟩

theorem test_witness_StepKeepsInvariant : ∃ t, platform.Inv ∧ step platform = .next t :=
  ⟨_, platform_inv, rfl⟩

/-- The step that would store over the ROM (V-ST-6). -/
theorem test_witness_StepNeverWritesRom :
    (∃ t, step ((stores 0x10000#32).withFetchWord 32 0x0020A023) = .next t)
      ∧ (stores 0x10000#32).isRamByte 0x10000 = false ∧ (stores 0x10000#32).isRamByte 0x2000 = false :=
  ⟨⟨_, rfl⟩, by decide, by decide⟩

theorem test_witness_HostKeepsInvariant :
    platform.Inv ∧ (∃ t, platform.setRegister 31 5#32 = .next t)
      ∧ (∃ t, platform.bufferWrite 0 0x1FFF 5#8 = .next t)
      ∧ ∃ b t, platform.attach ⟨.ram, 0xFFFFFC00#32, 1, []⟩ = .next (b, t) :=
  ⟨platform_inv, ⟨_, rfl⟩, ⟨_, rfl⟩, ⟨_, _, rfl⟩⟩

/-- SB at the last byte of RAM. -/
theorem test_witness_ExecMemoryFootprint :
    ∃ t, exec (.sb 1#5 2#5 0#12) (withRegs 0x1FFF#32 5#32) = .next t
      ∧ t.byteAt 0x1FFF ≠ (withRegs 0x1FFF#32 5#32).byteAt 0x1FFF := ⟨_, rfl, by decide⟩

/-- LR.W adds a key; SW removes its own; ERET removes them all. -/
theorem test_witness_ReservationsChangeOnlyBy :
    (∃ t, exec (.lrW 2#5 1#5) (lrSc []) = .next t ∧ 0x40 ∈ t.reservations ∧ 0x40 ∉ (lrSc []).reservations)
      ∧ (∃ t, exec (.sw 1#5 2#5 0#12) (lrSc [0x40]) = .next t ∧ 0x40 ∈ (lrSc [0x40]).reservations
          ∧ 0x40 ∉ t.reservations)
      ∧ ∃ t, exec .eret (lrSc [0x40]) = .next t ∧ 0x40 ∉ t.reservations :=
  ⟨⟨_, rfl, by decide, by decide⟩, ⟨_, rfl, by decide, by decide⟩, ⟨_, rfl, by decide⟩⟩

/-- A store names no destination, sets no next_pc, is no CSR instruction; ADDI writes no memory. -/
theorem test_witness_WhoWritesWhat :
    (∃ t, exec (.sw 1#5 2#5 0#12) (stores 0x300#32) = .next t)
      ∧ destination (.sw 1#5 2#5 0#12) ≠ some 1#5 ∧ setsNextPc (.sw 1#5 2#5 0#12) = false
      ∧ isCsrInstr (.sw 1#5 2#5 0#12) = false
      ∧ (∃ t, exec (.addi 3#5 1#5 1#12) platform = .next t) ∧ writesMemory (.addi 3#5 1#5 1#12) = false :=
  ⟨⟨_, rfl⟩, by decide, by decide, by decide, ⟨_, rfl⟩, by decide⟩

theorem test_witness_RegisterZeroLaw : (31#5 : Reg) ≠ 0#5 ∧ (0#5 : Reg) ≠ 31#5 := by decide

theorem test_witness_SupportedCsrAddresses :
    csrOfAddr 0x300#12 = some .mstatus ∧ csrOfAddr 0xF10#12 = some .mhartid ∧ csrOfAddr 0x344#12 = none := by
  decide

theorem test_witness_IdentificationCsrs :
    (0xF10#12, 0#32) ∈ [(0xF00#12, 0x00001101#32), (0xF01#12, 0x00108000#32), (0xF10#12, 0#32)]
      ∧ (31#5 : Reg) ≠ 0#5 ∧ (1#5 : BitVec 5) ≠ 0#5 := by
  decide

theorem test_witness_MstatusComposition : 0 < 32 ∧ 3 < 32 ∧ 31 < 32 := by decide

theorem test_witness_CsrWritesComplete :
    (0x300#12, Csr.mstatus) ∈ [(0x300#12, Csr.mstatus), (0x340#12, Csr.mscratch), (0x341#12, Csr.mepc),
      (0x342#12, Csr.mcause), (0x343#12, Csr.mbadaddr)] ∧ (1#5 : Reg) ≠ 0#5 ∧ (31#5 : BitVec 5) ≠ 0#5 := by
  decide

theorem test_witness_CsrViolationsTrap :
    csrOfAddr 0x7C0#12 = none ∧ csrOfAddr 0xC82#12 = some .instreth ∧ csrReadOnly .instreth = true
      ∧ csrOfAddr 0xC00#12 = some .cycle ∧ csrReadOnly .cycle = true := by decide

theorem test_witness_TrapEntry :
    (TrapCause.environmentCall, 11#32) ∈ [(TrapCause.illegalInstruction, 2#32), (TrapCause.breakpoint, 3#32),
      (TrapCause.environmentCall, 11#32)] := by decide

/-- Gated and off; gated and on; not gated. -/
theorem test_witness_ExternalInterruptEntry :
    let gated : State := { platform with cfg := { platform.cfg with extIntGated := true } }
    (gated.cfg.extIntGated = true ∧ gated.ie = false)
      ∧ ¬ ({ gated with ie := true }.cfg.extIntGated = true ∧ { gated with ie := true }.ie = false)
      ∧ ¬ (platform.cfg.extIntGated = true ∧ platform.ie = false) := by decide

theorem test_witness_TrapLoopAtVector :
    (State.reset.setPc 0x1C0#32).pc = 0x1C0#32 ∧ (State.reset.setPc 0x1C0#32).ownerAt 0x1C0 = none := by
  decide

theorem test_witness_ShiftImmResults :
    (0b0100000#7 : BitVec 7) ≠ 0b0000000#7 ∧ (0b0000001#7 : BitVec 7) ≠ 0b0000000#7
      ∧ (0b0000001#7 : BitVec 7) ≠ 0b0100000#7 := by decide

theorem test_witness_UpperImmediateResults :
    upperImmediateOk 0xFFFFF000#32 = true ∧ upperImmediateOk 0#32 = true := by decide

theorem test_witness_JumpResults :
    jumpOffsetOk 0x100000#21 = true ∧ jumpOffsetOk 0x0FFFFE#21 = true := by decide

theorem test_witness_BranchResults :
    branchOffsetOk 0x1000#13 = true ∧ branchOffsetOk 0xFFE#13 = true := by decide

/-- The last word of RAM, the ROM, the top of the address space; an odd byte. -/
theorem test_witness_LoadResults :
    (platform.isDevicePage 0x1FFC = false ∧ 0x1FFC % 4 = 0)
      ∧ (platform.isDevicePage 0x10000 = false ∧ 0x10000 % 4 = 0)
      ∧ (platform.isDevicePage 0xFFFFFFFC = false ∧ 0xFFFFFFFC % 4 = 0)
      ∧ (platform.isDevicePage 0x1FFE = false ∧ 0x1FFE % 2 = 0)
      ∧ platform.isDevicePage 0x1FFF = false := by decide

/-- The device's first and last word; misaligned addresses under each setting. -/
theorem test_witness_LoadsWithoutStatedValue :
    (∀ a ∈ [0x20000, 0x203FC], a % 4 = 0 ∧ a % 2 = 0 ∧ platform.isDevicePage a = true)
      ∧ platform.isDevicePage 0x203FF = true
      ∧ (0x1FF % 2 ≠ 0 ∧ 0x1FE % 4 ≠ 0 ∧ drawing.cfg.misalignedData = .draw
        ∧ platform.cfg.misalignedData = .fault) := by decide

theorem test_witness_StoreResults :
    platform.mem.wf ∧ 0x1FFE % 2 = 0 ∧ 0x1FFC % 4 = 0 := ⟨platform_wf.1, by decide⟩

theorem test_witness_MisalignedStores :
    platform.cfg.misalignedData = .fault ∧ drawing.cfg.misalignedData = .draw
      ∧ 0x1FF % 2 ≠ 0 ∧ 0x1FE % 4 ≠ 0 := by decide

theorem test_witness_StoreSeenByFetch :
    platform.mem.wf ∧ 0x1FFC % 4 = 0 ∧ platform.isRamByte 0x1FFC = true :=
  ⟨platform_wf.1, by decide⟩

theorem test_witness_LoadReserved :
    (0x1FFC % 4 = 0 ∧ platform.isDevicePage 0x1FFC = false)
      ∧ (0x203FC % 4 = 0 ∧ platform.isDevicePage 0x203FC = true)
      ∧ (0x1FFE % 4 ≠ 0 ∧ drawing.cfg.misalignedData = .draw ∧ platform.cfg.misalignedData = .fault) := by
  decide

/-- x1 = 0x100, or 0x102 in the same word, with the key reserved. -/
theorem test_witness_StoreConditionalSucceeds :
    (lrSc [0x40]).mem.wf ∧ ((lrSc [0x40]).reg 1#5).toNat / 4 ∈ (lrSc [0x40]).reservations
      ∧ ((lrSc [0x40]).reg 1#5).toNat % 4 = 0
      ∧ ((((lrSc [0x40]).setReg 1#5 0x102#32).reg 1#5).toNat / 4 ∈ (lrSc [0x40]).reservations
        ∧ (((lrSc [0x40]).setReg 1#5 0x102#32).reg 1#5).toNat % 4 ≠ 0
        ∧ drawing.cfg.misalignedData = .draw ∧ (lrSc [0x40]).cfg.misalignedData = .fault) := by decide

theorem test_witness_StoreConditionalFails :
    ((lrSc [0x41]).reg 1#5).toNat / 4 ∉ (lrSc [0x41]).reservations := by decide

theorem test_witness_AmoResults :
    (amo 1 2#32).mem.wf ∧ ((amo 1 2#32).reg 1#5).toNat % 4 = 0
      ∧ (amo 1 2#32).isDevicePage ((amo 1 2#32).reg 1#5).toNat = false := by decide

theorem test_witness_AmoElsewhere :
    platform.mem.wf ∧ (0x203FC % 4 = 0 ∧ platform.isDevicePage 0x203FC = true)
      ∧ 0x1FFE % 4 ≠ 0 ∧ platform.cfg.misalignedData = .fault ∧ drawing.cfg.misalignedData = .draw :=
  ⟨platform_wf.1, by decide⟩

theorem test_witness_LoadReservedThenConditional :
    (lrSc []).mem.wf ∧ (2#5 : Reg) ≠ 1#5 ∧ (2#5 : Reg) ≠ 4#5 ∧ ((lrSc []).reg 1#5).toNat % 4 = 0
      ∧ (lrSc []).isRamByte ((lrSc []).reg 1#5).toNat = true := by decide

/-- Divisor 0; INT_MIN / −1; INT_MIN / 1 and 7 / −2. -/
theorem test_witness_SignedDivideResults :
    (0#32 : Word) = 0#32 ∧ ((0x80000000#32 : Word) = 0x80000000#32 ∧ (0xFFFFFFFF#32 : Word) = 0xFFFFFFFF#32)
      ∧ ((1#32 : Word) ≠ 0#32 ∧ ¬ ((0x80000000#32 : Word) = 0x80000000#32 ∧ (1#32 : Word) = 0xFFFFFFFF#32))
      ∧ ((0xFFFFFFFE#32 : Word) ≠ 0#32 ∧ ¬ ((7#32 : Word) = 0x80000000#32 ∧ (0xFFFFFFFE#32 : Word) = 0xFFFFFFFF#32)) := by
  decide

theorem test_witness_HostRegisterAccess : 0 < 32 ∧ 31 < 32 ∧ ¬ 32 < 32 := by decide

theorem test_witness_HostBufferAccess :
    platform.Inv ∧ (platform.peripherals[0]? = some ⟨.ram, 0, 8⟩ ∧ 0x1FFF < (⟨.ram, 0, 8⟩ : Peripheral).size)
      ∧ platform.peripherals[1]? = some ⟨.rom, 64, 1⟩
      ∧ (platform.peripherals[3]? = some ⟨.ram, 256, 3⟩
        ∧ 0xBFF % (⟨.ram, 256, 3⟩ : Peripheral).wrapSize < (⟨.ram, 256, 3⟩ : Peripheral).size
        ∧ ¬ 0x1C00 % (⟨.ram, 256, 3⟩ : Peripheral).wrapSize < (⟨.ram, 256, 3⟩ : Peripheral).size) :=
  ⟨platform_inv, by decide, by decide, by decide⟩

/-- A free page that ends at 2^32; a claimed one; a counter that has moved; two free pages whose base is no
multiple of P. -/
theorem test_witness_AttachRules :
    platform.Inv ∧ platform.instret = 0#64 ∧ { platform with instret := 1#64 }.instret ≠ 0#64
      ∧ ((0xFFFFFC00#32 : Word).toNat % 1024 = 0 ∧ (1 : Nat) ≠ 0
        ∧ (0xFFFFFC00#32 : Word).toNat + 1024 * 1 ≤ 2 ^ 32
        ∧ ∀ a, (0xFFFFFC00#32 : Word).toNat ≤ a → a < (0xFFFFFC00#32 : Word).toNat + 1024 * 1 →
            platform.ownerAt a = none)
      ∧ 0xFFFFFC00 % (⟨.ram, 0x3FFFFF, 1⟩ : Peripheral).wrapSize = 0
      ∧ (platform.attachable ⟨.ram, 0x2400#32, 2, []⟩ = true
        ∧ ¬ 0x2400 % (⟨.ram, 9, 2⟩ : Peripheral).wrapSize = 0)
      ∧ platform.ownerAt 0x1C00 ≠ none := by
  refine ⟨platform_inv, by decide, by decide, ⟨by decide, by decide, by decide, fun a h1 h2 => ?_⟩,
    by decide, by decide, by decide⟩
  have h : pageOf a = pageOf 0xFFFFFC00 := by
    show a / 1024 = 0xFFFFFC00 / 1024
    have e : (0xFFFFFC00#32 : Word).toNat = 0xFFFFFC00 := rfl
    omega
  show platform.peripherals.find? (fun p => p.claims (pageOf a)) = none
  rw [h]
  decide

theorem test_witness_BusNeverWraps :
    platform.Inv ∧ 4 ∈ [1, 2, 4] ∧ 0x1FFC % 4 = 0 ∧ platform.ownerAt 0x1FFC = some ⟨.ram, 0, 8⟩ :=
  ⟨platform_inv, by decide, by decide, by decide⟩

/-- An even offset that reaches the other half of the address space. -/
theorem test_witness_PseudoInstructions :
    (31#5 : Reg) ≠ 0#5 ∧ (0x7FFFFFFE#32 : Word).toNat % 2 = 0 ∧ platform.pc.toNat % 2 = 0 := by decide

end Sys2Proof.Tests
end

