-- ==== Sys2Proof/Proofs/StateInvariant.lean ====
section
/-! PROOF. The invariant under a step: each shape of an instruction's next state keeps it (the lemmas of
Laws/Platform, one per operation), and so do the fetch, the trap of an illegal word and the commit. -/

namespace Sys2Proof.Machine

theorem inv_setNextPc {s : State} (h : s.Inv) (a : Word) : (s.setNextPc a).Inv :=
  inv_of_same h rfl rfl rfl rfl

theorem inv_commit {s : State} (h : s.Inv) : s.commit.Inv := inv_of_same h rfl rfl rfl rfl

theorem inv_returnFromTrap {s : State} (h : s.Inv) : s.returnFromTrap.Inv :=
  inv_of_reservations h rfl (reservationsOk_nil rfl) rfl rfl

theorem inv_csrWrite {s : State} (h : s.Inv) (c : Csr) (v : Word) : (s.csrWrite c v).Inv :=
  inv_of_same h (by simp) (by simp) (by simp) (by simp)

/-- What a bus read leaves: the state itself, or the state after one draw. -/
theorem inv_drawn {s u : State} (h : s.Inv) (hu : u = s ∨ u = s.useDraw) : u.Inv := by
  obtain rfl | rfl := hu
  · exact h
  · exact inv_of_same h rfl rfl rfl rfl

theorem inv_csrWriteTrap {s : State} (h : s.Inv) (rd : Reg) (old : Word) :
    (s.csrWriteTrap rd old).Inv :=
  inv_raiseTrap (inv_drawn (inv_setReg h rd _) (.inr rfl)) _

theorem inv_scSucceeded {s : State} (h : s.Inv) (rd : Reg) : (s.scSucceeded rd).Inv := by
  unfold State.scSucceeded
  split
  · exact h
  · exact inv_setReg h rd _

/-- Every instruction keeps the invariant. -/
theorem inv_effect {i : Instr} {s t : State} (h : s.Inv) (e : Effect i s t) : t.Inv := by
  cases e with
  | nothing => exact h
  | writes rd v u _ hu => exact inv_setReg (inv_drawn h hu) rd v
  | jumps rd v a => exact inv_setReg (inv_setNextPc h a) rd v
  | branches a => exact inv_setNextPc h a
  | traps c => exact inv_raiseTrap h c
  | csrTraps rd old => exact inv_csrWriteTrap h rd old
  | returns => exact inv_returnFromTrap h
  | csrWrites rd v c new => exact inv_csrWrite (inv_setReg h rd v) c new
  | reserves rd rs1 v u _ hu => exact inv_setReg (inv_reserve (inv_drawn h hu) _) rd v
  | stores a n v _ hn _ _ hm => exact inv_memWrite h hn hm
  | conditional rd a v t _ _ _ hm => exact inv_scSucceeded (inv_memWrite h (by decide) hm) rd
  | updates rd old a v u _ _ hu _ _ hm =>
    exact inv_memWrite (inv_setReg (inv_drawn h hu) rd old) (by decide) hm

/-- Settles O12: the fetch, the instruction or the illegal-instruction trap, and the commit each keep the
invariant. -/
theorem stepKeepsInvariant : Obligations.StepKeepsInvariant := by
  unfold Obligations.StepKeepsInvariant
  intro s t h hstep
  obtain ⟨w, u, r, -, hu, rfl, hr⟩ := step_next hstep
  have hs : u.startStep.Inv := inv_setNextPc (inv_drawn h hu) _
  obtain ⟨i, -, hexec⟩ | rfl := hr
  · exact inv_commit (inv_effect hs (exec_effect hexec))
  · exact inv_commit (inv_raiseTrap hs _)

end Sys2Proof.Machine
end

