-- ==== Sys2Proof/Proofs/StateFrame.lean ====
section
/-! PROOF. Who writes what: one lemma per part of the state, each by cases on the shapes of an
instruction's next state. -/

namespace Sys2Proof.Machine

/-- MemWrite changes no register, CSR, pc or next_pc, and not the platform. -/
theorem onlyStored_memWrite {s t : State} {a v : Word} {n : Nat} (h : s.memWrite a n v = .ok t) :
    OnlyStored s t := by
  rcases memWrite_cases s a n v with ⟨e, -⟩ | ⟨e, -⟩ | ⟨e, -⟩ <;> rw [h] at e <;> cases e
  · exact busWrite_onlyStored s a n v
  · obtain ⟨-, -, -, -, h⟩ := scrambleWords_spec (wordsTouched a n) s
    exact h

/-- The store of a read-modify-write changes the same, seen from before the draw and the write of rd. -/
theorem frame_of_update {s u t : State} {rd : Reg} {old a v : Word} {n : Nat}
    (hu : u = s ∨ u = s.useDraw) (hm : (u.setReg rd old).memWrite a n v = .ok t) :
    t.pc = s.pc ∧ t.nextPc = s.nextPc ∧ SameCsrs s t ∧ SamePlatform s t := by
  obtain ⟨-, hpc, hnext, hcsrs, hplat⟩ := onlyStored_memWrite hm
  obtain rfl | rfl := hu <;> simp_all [SameCsrs, SamePlatform]

/-- What SC.W leaves in a register that is not its rd. -/
theorem reg_scSucceeded_ne {s : State} {rd r : Reg} (h : r ≠ rd) :
    (s.scSucceeded rd).reg r = s.reg r := by
  unfold State.scSucceeded
  split
  · rfl
  · exact reg_setReg_ne s rd r _ h

theorem reg_csrWriteTrap_ne {s : State} {rd r : Reg} {old : Word} (h : r ≠ rd) :
    (s.csrWriteTrap rd old).reg r = s.reg r := by
  simp [State.csrWriteTrap, reg_setReg_ne, h]

section Clauses

variable {i : Instr} {s t : State}

/-- A register other than rd keeps its value (R103). -/
theorem Effect.reg_eq (e : Effect i s t) {r : Reg} (hr : destination i ≠ some r) :
    t.reg r = s.reg r := by
  have ne : ∀ {rd}, destination i = some rd → r ≠ rd := fun hd he => hr (he ▸ hd)
  cases e with
  | nothing => rfl
  | writes rd v u hd hu => exact (onlyReg_setReg rd v hu).regs r (ne hd)
  | jumps rd v a hd => simp [reg_setReg_ne _ _ _ _ (ne hd)]
  | branches | traps | returns => simp
  | csrTraps rd old hd => exact reg_csrWriteTrap_ne (ne hd)
  | csrWrites rd v c new hd => simp [reg_setReg_ne _ _ _ _ (ne hd)]
  | reserves rd rs1 v u hi hu =>
    rw [reg_setReg_ne _ _ _ _ (ne (hi ▸ rfl)), reserve_reg]
    obtain rfl | rfl := hu <;> rfl
  | stores a n v t _ _ _ hm => exact (onlyStored_memWrite hm).regs r
  | conditional rd a v u hd _ _ hm => rw [reg_scSucceeded_ne (ne hd), (onlyStored_memWrite hm).regs]
  | updates rd old a v u t hd hu _ _ hm =>
    rw [(onlyStored_memWrite hm).regs, (onlyReg_setReg rd old hu).regs r (ne hd)]

/-- pc, the counter, the page map and the parameters are written by no instruction (R127, R405). -/
theorem Effect.fixed_eq (e : Effect i s t) :
    t.pc = s.pc ∧ t.instret = s.instret ∧ SamePlatform s t := by
  cases e with
  | nothing | jumps | branches | traps | csrTraps | returns | csrWrites => simp [SamePlatform]
  | writes rd v u _ hu | reserves rd rs1 v u _ hu => obtain rfl | rfl := hu <;> simp [SamePlatform]
  | stores a n v t _ _ _ hm | conditional rd a v u _ _ _ hm =>
    obtain ⟨-, hpc, -, ⟨-, -, -, -, -, -, hinstret⟩, hplat⟩ := onlyStored_memWrite hm
    simpa [SamePlatform] using ⟨hpc, hinstret, hplat⟩
  | updates rd old a v u t _ hu _ _ hm =>
    obtain ⟨hpc, -, ⟨-, -, -, -, -, -, hinstret⟩, hplat⟩ := frame_of_update hu hm
    exact ⟨hpc, hinstret, hplat⟩

theorem setsNextPc_of_isCsrInstr (h : isCsrInstr i = true) : setsNextPc i = true := by
  cases i with
  | csrrw | csrrs | csrrc | csrrwi | csrrsi | csrrci => rfl
  | _ => cases h

/-- next_pc changes only by control transfers, ERET and traps (R401). -/
theorem Effect.nextPc_eq (e : Effect i s t) (hn : setsNextPc i = false) : t.nextPc = s.nextPc := by
  have absurd_of : ∀ {P : Prop}, setsNextPc i = true → P := fun h => by simp [h] at hn
  cases e with
  | nothing | csrWrites => simp
  | writes rd v u _ hu | reserves rd rs1 v u _ hu => obtain rfl | rfl := hu <;> simp
  | jumps _ _ _ _ h | branches _ h | traps _ h => exact absurd_of h
  | csrTraps _ _ _ hc => exact absurd_of (setsNextPc_of_isCsrInstr hc)
  | returns h => exact absurd_of (h ▸ rfl)
  | stores a n v t _ _ _ hm | conditional rd a v u _ _ _ hm =>
    simpa using (onlyStored_memWrite hm).nextPc
  | updates rd old a v u t _ hu _ _ hm =>
    obtain ⟨-, hnext, -, -⟩ := frame_of_update hu hm
    exact hnext

/-- mscratch and mbadaddr change only by CSR instructions (R123, R126). -/
theorem Effect.scratch_eq (e : Effect i s t) (hc : isCsrInstr i = false) :
    t.mscratch = s.mscratch ∧ t.mbadaddr = s.mbadaddr := by
  cases e with
  | nothing | jumps | branches | traps | returns => simp
  | csrTraps _ _ _ h | csrWrites _ _ _ _ _ h => simp [h] at hc
  | writes rd v u _ hu | reserves rd rs1 v u _ hu => obtain rfl | rfl := hu <;> simp
  | stores a n v t _ _ _ hm | conditional rd a v u _ _ _ hm =>
    obtain ⟨-, -, hscratch, -, -, hbad, -⟩ := (onlyStored_memWrite hm).csrs
    simpa using ⟨hscratch, hbad⟩
  | updates rd old a v u t _ hu _ _ hm =>
    obtain ⟨-, -, ⟨-, -, hscratch, -, -, hbad, -⟩, -⟩ := frame_of_update hu hm
    exact ⟨hscratch, hbad⟩

/-- The interrupt-enable stack, mepc and mcause change only by CSR instructions, SCALL, SBREAK and ERET
(R122, R124, R125). -/
theorem Effect.trapState_eq (e : Effect i s t) (hc : isCsrInstr i = false) (hscall : i ≠ .scall)
    (hsbreak : i ≠ .sbreak) (heret : i ≠ .eret) :
    t.ie = s.ie ∧ t.ie1 = s.ie1 ∧ t.mepc = s.mepc ∧ t.mcause = s.mcause := by
  cases e with
  | nothing | jumps | branches => simp
  | traps _ _ h => simp [hscall, hsbreak, hc] at h
  | returns h => exact absurd h heret
  | csrTraps _ _ _ h | csrWrites _ _ _ _ _ h => simp [h] at hc
  | writes rd v u _ hu | reserves rd rs1 v u _ hu => obtain rfl | rfl := hu <;> simp
  | stores a n v t _ _ _ hm | conditional rd a v u _ _ _ hm =>
    obtain ⟨hie, hie1, -, hmepc, hmcause, -⟩ := (onlyStored_memWrite hm).csrs
    simpa using ⟨hie, hie1, hmepc, hmcause⟩
  | updates rd old a v u t _ hu _ _ hm =>
    obtain ⟨-, -, ⟨hie, hie1, -, hmepc, hmcause, -⟩, -⟩ := frame_of_update hu hm
    exact ⟨hie, hie1, hmepc, hmcause⟩

/-- A device is written only by a store, SC.W or an AMO (D36). -/
theorem Effect.deviceWrites_eq (e : Effect i s t) (hw : writesMemory i = false) :
    t.deviceWrites = s.deviceWrites := by
  cases e with
  | nothing | jumps | branches | traps | returns | csrTraps | csrWrites => simp
  | writes rd v u _ hu | reserves rd rs1 v u _ hu => obtain rfl | rfl := hu <;> simp
  | stores _ _ _ _ _ h | conditional _ _ _ _ _ h | updates _ _ _ _ _ _ _ _ h => simp [h] at hw

end Clauses

/-- Settles O18: each clause is the lemma above about its part of the state. -/
theorem whoWritesWhat : Obligations.WhoWritesWhat := by
  unfold Obligations.WhoWritesWhat
  intro i s t h
  have e := exec_effect h
  obtain ⟨hpc, hinstret, hplat⟩ := e.fixed_eq
  exact ⟨fun r hr => e.reg_eq hr, reg_zero t, e.nextPc_eq, hpc, hinstret, hplat, e.scratch_eq,
    e.trapState_eq, e.deviceWrites_eq⟩

end Sys2Proof.Machine
end

