-- ==== Sys2Proof/Proofs/StateFaults.lean ====
section
/-! PROOF. Where a step stops: an instruction only on its misaligned data access, the step besides that
only on a misaligned fetch. -/

namespace Sys2Proof.Machine

/-- The instruction faults on a misaligned data access under MISALIGNED_DATA = Fault, and answers a next
state in every other case. -/
def Answers (i : Instr) (s : State) : Prop :=
  (exec i s = .fault .misalignedData ∧ s.cfg.misalignedData = .fault ∧ misalignedAccess i s)
    ∨ ((∃ t, exec i s = .next t) ∧ ¬ (s.cfg.misalignedData = .fault ∧ misalignedAccess i s))

theorem misalignedAccess_iff {i : Instr} {s : State} {a : Word} {n : Nat}
    (h : dataAccess i s = some (a, n)) : misalignedAccess i s ↔ a.toNat % n ≠ 0 := by
  simp [misalignedAccess, h]

theorem answers_of_no_access {i : Instr} {s t : State} (hd : dataAccess i s = none)
    (h : exec i s = .next t) : Answers i s :=
  .inr ⟨⟨t, h⟩, by simp [misalignedAccess, hd]⟩

theorem answers_of_load {i : Instr} {s : State} {rd : Reg} {a : Word} {n : Nat} {f : Word → Word}
    (hd : dataAccess i s = some (a, n)) (h : exec i s = s.loadTo rd a n f) : Answers i s := by
  rw [Answers, misalignedAccess_iff hd, h]
  exact loadTo_answers s rd a n f

theorem answers_of_store {i : Instr} {s : State} {a v : Word} {n : Nat}
    (hd : dataAccess i s = some (a, n)) (h : exec i s = s.storeFrom a n v) : Answers i s := by
  rw [Answers, misalignedAccess_iff hd, h]
  exact storeFrom_answers s a n v

theorem answers_of_update {i : Instr} {s : State} {rd rs1 rs2 : Reg} {f : Word → Word → Word}
    (hd : dataAccess i s = some (s.reg rs1, 4)) (h : exec i s = s.readModifyWrite rd rs1 rs2 f) :
    Answers i s := by
  rw [Answers, misalignedAccess_iff hd, h]
  exact readModifyWrite_answers s rd rs1 rs2 f

theorem answers_lrW (rd rs1 : Reg) (s : State) : Answers (.lrW rd rs1) s := by
  have hd : dataAccess (.lrW rd rs1) s = some (s.reg rs1, 4) := rfl
  have hx : exec (.lrW rd rs1) s = execLrW rd rs1 s := rfl
  rw [Answers, misalignedAccess_iff hd, hx, execLrW]
  rcases memRead_cases s (s.reg rs1) 4 with ⟨e, hmis, hc⟩ | ⟨v, u, e, -, hno⟩ <;> rw [e]
  · exact .inl ⟨rfl, hc, hmis⟩
  · exact .inr ⟨⟨_, rfl⟩, fun h => hno h.symm⟩

/-- SC.W makes its access only while its word is reserved (R541). -/
theorem answers_scW (rd rs1 rs2 : Reg) (s : State) : Answers (.scW rd rs1 rs2) s := by
  have hx : exec (.scW rd rs1 rs2) s = execScW rd rs1 rs2 s := rfl
  by_cases hr : s.isReserved (s.reg rs1) = true
  · have hd : dataAccess (.scW rd rs1 rs2) s = some (s.reg rs1, 4) := by simp [dataAccess, hr]
    rw [Answers, misalignedAccess_iff hd, hx, execScW, if_pos hr]
    rcases memWrite_cases s (s.reg rs1) 4 (s.reg rs2) with ⟨e, hmis, hc⟩ | ⟨e, hal⟩ | ⟨e, -, hc⟩ <;>
      rw [e]
    · exact .inl ⟨rfl, hc, hmis⟩
    · exact .inr ⟨⟨_, rfl⟩, fun h => h.2 hal⟩
    · exact .inr ⟨⟨_, rfl⟩, fun h => by simp [hc] at h⟩
  · exact answers_of_no_access (by simp [dataAccess, hr]) (by rw [hx, execScW, if_neg hr])

/-- Every instruction stops only on its misaligned data access. -/
theorem exec_answers (i : Instr) (s : State) : Answers i s := by
  cases i with
  | lb | lh | lw | lbu | lhu => exact answers_of_load rfl rfl
  | sb | sh | sw => exact answers_of_store rfl rfl
  | lrW rd rs1 => exact answers_lrW rd rs1 s
  | scW rd rs1 rs2 => exact answers_scW rd rs1 rs2 s
  | amoswapW => exact answers_of_update (f := fun _ src => src) rfl rfl
  | amoaddW => exact answers_of_update (f := fun old src => old + src) rfl rfl
  | amoxorW => exact answers_of_update (f := fun old src => old ^^^ src) rfl rfl
  | amoandW => exact answers_of_update (f := fun old src => old &&& src) rfl rfl
  | amoorW => exact answers_of_update (f := fun old src => old ||| src) rfl rfl
  | amominW => exact answers_of_update (f := signedMin) rfl rfl
  | amomaxW => exact answers_of_update (f := signedMax) rfl rfl
  | amominuW => exact answers_of_update (f := unsignedMin) rfl rfl
  | amomaxuW => exact answers_of_update (f := unsignedMax) rfl rfl
  | _ => exact answers_of_no_access rfl rfl

/-- The word fetched decodes to an instruction whose data access, from the state the step executes it in,
is misaligned. -/
def FetchedMisaligned (s : State) : Prop :=
  ∃ (w : Word) (u : State) (i : Instr), s.fetch = .ok (w, u) ∧ decodeWord w = .ok i
    ∧ misalignedAccess i { u with nextPc := u.pc + 4#32 }

/-- A word, legal or not, stops only on its instruction's misaligned data access. -/
theorem executeWord_answers (w : Word) (s : State) :
    (executeWord w s = .fault .misalignedData ∧ s.cfg.misalignedData = .fault
        ∧ ∃ i, decodeWord w = .ok i ∧ misalignedAccess i s)
      ∨ ((∃ t, executeWord w s = .next t)
        ∧ ¬ (s.cfg.misalignedData = .fault ∧ ∃ i, decodeWord w = .ok i ∧ misalignedAccess i s)) := by
  unfold executeWord
  cases hd : decodeWord w with
  | error r => exact .inr ⟨⟨_, rfl⟩, by simp⟩
  | ok i =>
    rcases exec_answers i s with ⟨hx, hc, hm⟩ | ⟨hx, hno⟩
    · exact .inl ⟨hx, hc, i, rfl, hm⟩
    · exact .inr ⟨hx, by rintro ⟨hc, j, hj, hm⟩; cases hj; exact hno ⟨hc, hm⟩⟩

/-- Everything a step can answer, with the condition of each answer. -/
theorem step_answers (s : State) :
    (step s = .fault .misalignedFetch ∧ s.pc.toNat % 4 ≠ 0 ∧ s.cfg.misalignedFetch = .fault
        ∧ ¬ FetchedMisaligned s)
      ∨ (¬ (s.pc.toNat % 4 ≠ 0 ∧ s.cfg.misalignedFetch = .fault)
        ∧ ((step s = .fault .misalignedData ∧ s.cfg.misalignedData = .fault ∧ FetchedMisaligned s)
          ∨ ((∃ t, step s = .next t)
            ∧ ¬ (s.cfg.misalignedData = .fault ∧ FetchedMisaligned s)))) := by
  rcases fetch_cases s with ⟨hf, hpc, hc⟩ | ⟨w, u, hf, hu, hno⟩
  · exact .inl ⟨by simp [step, hf], hpc, hc, by simp [FetchedMisaligned, hf]⟩
  · refine .inr ⟨hno, ?_⟩
    have hcfg : u.startStep.cfg = s.cfg := by obtain rfl | rfl := hu <;> rfl
    have hiff : FetchedMisaligned s ↔ ∃ i, decodeWord w = .ok i ∧ misalignedAccess i u.startStep := by
      simp only [FetchedMisaligned, hf, Except.ok.injEq, Prod.mk.injEq, exists_and_left]
      constructor
      · rintro ⟨_, _, ⟨rfl, rfl⟩, i, hd, hm⟩; exact ⟨i, hd, hm⟩
      · rintro ⟨i, hd, hm⟩; exact ⟨w, u, ⟨rfl, rfl⟩, i, hd, hm⟩
    rw [step_of_fetch hf, hiff, ← hcfg]
    rcases executeWord_answers w u.startStep with ⟨hx, h⟩ | ⟨⟨t, hx⟩, h⟩ <;> rw [hx]
    · exact .inl ⟨rfl, h⟩
    · exact .inr ⟨⟨_, rfl⟩, h⟩

/-- Settles O11: the three answers of a step and their conditions exclude one another; a misaligned fetch
under Draw uses one draw and executes the word drawn. -/
theorem stepStopsOnlyInModelFaults : Obligations.StepStopsOnlyInModelFaults := by
  unfold Obligations.StepStopsOnlyInModelFaults
  intro s
  change _ ∧ (_ ↔ _ ∧ FetchedMisaligned s) ∧ _ ∧ _
  have draw : s.pc.toNat % 4 ≠ 0 → s.cfg.misalignedFetch = .draw → ∃ w : Word, step s =
      commitOutcome (executeWord w { s with draws := s.draws + 1, nextPc := s.pc + 4#32 }) :=
    fun hpc hc => ⟨s.drawn 4, step_of_fetch (fetch_draw hpc hc)⟩
  rcases step_answers s with ⟨e, hpc, hc, hno⟩ | ⟨hf, ⟨e, hc, hm⟩ | ⟨⟨t, e⟩, hno⟩⟩
  · exact ⟨by simp [e, hpc, hc], by simp [e, hno], .inl e, draw⟩
  · exact ⟨by simp only [e, hf]; simp, by simp [e, hc, hm], .inr (.inl e), draw⟩
  · exact ⟨by simp only [e, hf]; simp, by simp only [e, hno]; simp, .inr (.inr ⟨t, e⟩), draw⟩

end Sys2Proof.Machine
end

