-- ==== Sys2Proof/Proofs/StateCsrs.lean ====
section
/-! PROOF. The CSR statements: the address table, the reads, the access violations and mstatus. -/

namespace Sys2Proof.Machine

/-! ## The address table (R135) -/

/-- The address of a CSR. -/
def addrOfCsr : Csr → CsrAddr
  | .mstatus => 0x300#12
  | .mscratch => 0x340#12
  | .mepc => 0x341#12
  | .mcause => 0x342#12
  | .mbadaddr => 0x343#12
  | .cycle => 0xC00#12
  | .time => 0xC01#12
  | .instret => 0xC02#12
  | .cycleh => 0xC80#12
  | .timeh => 0xC81#12
  | .instreth => 0xC82#12
  | .mcpuid => 0xF00#12
  | .mimpid => 0xF01#12
  | .mhartid => 0xF10#12

/-- The supported addresses and the CSRs correspond one to one. -/
theorem csrOfAddr_eq_some_iff {a : CsrAddr} {c : Csr} : csrOfAddr a = some c ↔ a = addrOfCsr c := by
  constructor
  · intro h
    unfold csrOfAddr at h
    split at h <;> cases h <;> rfl
  · rintro rfl
    cases c <;> rfl

/-- Settles O21: an address is supported if it is some CSR's. -/
theorem supportedCsrAddresses : Obligations.SupportedCsrAddresses := by
  unfold Obligations.SupportedCsrAddresses
  refine ⟨fun a => ?_, fun a c h => ?_⟩
  · simp only [Option.isSome_iff_exists, csrOfAddr_eq_some_iff]
    constructor
    · rintro ⟨c, rfl⟩
      cases c <;> decide
    · intro h
      obtain ⟨c, -, hc⟩ := List.mem_map.1 (show a ∈ [Csr.mstatus, .mscratch, .mepc, .mcause, .mbadaddr,
        .cycle, .time, .instret, .cycleh, .timeh, .instreth, .mcpuid, .mimpid, .mhartid].map addrOfCsr
        from h)
      exact ⟨c, hc.symm⟩
  · rw [csrOfAddr_eq_some_iff] at h
    subst h
    cases c <;> decide

/-! ## The common CSR procedure (R646) -/

theorem csrAccess_unsupported {a : CsrAddr} (h : csrOfAddr a = none) (s : State) (rd : Reg) (w : Bool)
    (new : Word → Word) : s.csrAccess rd a w new = s.raiseTrap .illegalInstruction := by
  simp [State.csrAccess, h]

theorem csrAccess_read {a : CsrAddr} {c : Csr} (h : csrOfAddr a = some c) (s : State) (rd : Reg)
    (new : Word → Word) : s.csrAccess rd a false new = s.setReg rd (s.csrRead c) := by
  simp [State.csrAccess, h]

theorem csrAccess_readOnly {a : CsrAddr} {c : Csr} (h : csrOfAddr a = some c)
    (hc : csrReadOnly c = true) (s : State) (rd : Reg) (new : Word → Word) :
    s.csrAccess rd a true new = s.csrWriteTrap rd (s.csrRead c) := by
  simp [State.csrAccess, h, hc]

/-- The read forms: CSRRS, CSRRC, CSRRSI and CSRRCI with the operand field 0 write no CSR. -/
theorem pureReads {a : CsrAddr} {c : Csr} (h : csrOfAddr a = some c) (rd : Reg) (s : State) :
    WritesReg (.csrrs rd 0#5 a) rd (s.csrRead c) s ∧ WritesReg (.csrrc rd 0#5 a) rd (s.csrRead c) s
      ∧ WritesReg (.csrrsi rd 0#5 a) rd (s.csrRead c) s
      ∧ WritesReg (.csrrci rd 0#5 a) rd (s.csrRead c) s := by
  have read : ∀ {i : Instr} {new : Word → Word}, exec i s = .next (s.csrAccess rd a false new) →
      WritesReg i rd (s.csrRead c) s := fun hx =>
    writesReg_of_exec (by rw [hx, csrAccess_read h]) rfl
  exact ⟨read rfl, read rfl, read rfl, read rfl⟩

/-! ## Traps (R710) -/

theorem trapTaken_raiseTrap (s : State) (c : TrapCause) :
    TrapTaken (causeNumber c) s (s.raiseTrap c) := by
  constructor <;> simp [SameMemory, SamePlatform, trapVector]

theorem trapTaken_csrWriteTrap (s : State) (rd : Reg) (old : Word) :
    TrapTaken 2#32 s (s.csrWriteTrap rd old) := by
  constructor <;> simp [SameMemory, SamePlatform, trapVector, causeNumber]

/-- rd after a trapping write holds its old value or the value read (D15). -/
theorem reg_csrWriteTrap_rd (s : State) (rd : Reg) (old : Word) :
    (s.csrWriteTrap rd old).reg rd = s.reg rd ∨ (s.csrWriteTrap rd old).reg rd = old := by
  by_cases h : rd = 0#5
  · subst h
    exact .inl rfl
  · simp only [State.csrWriteTrap, raiseTrap_reg, useDraw_reg, reg_setReg_same _ _ _ h]
    split <;> simp

theorem traps_of_unsupported {i : Instr} {s : State} {rd : Reg} {a : CsrAddr} {w : Bool}
    {new : Word → Word} (h : csrOfAddr a = none) (hx : exec i s = .next (s.csrAccess rd a w new)) :
    Traps (exec i s) 2#32 s :=
  ⟨_, by rw [hx, csrAccess_unsupported h], fun r => raiseTrap_reg s _ r,
    trapTaken_raiseTrap s .illegalInstruction⟩

theorem csrWriteTraps_of_readOnly {i : Instr} {s : State} {rd : Reg} {a : CsrAddr} {c : Csr}
    {w : Bool} {new : Word → Word} (h : csrOfAddr a = some c) (hc : csrReadOnly c = true)
    (hx : exec i s = .next (s.csrAccess rd a w new)) (hw : w = true) : CsrWriteTraps i rd c s := by
  subst hw
  refine ⟨_, by rw [hx, csrAccess_readOnly h hc], trapTaken_csrWriteTrap s rd _, fun r hr => ?_,
    reg_zero _, reg_csrWriteTrap_rd s rd _⟩
  exact reg_csrWriteTrap_ne hr

/-- Settles O26: an unsupported address traps before the read, a write to a read-only CSR after it. -/
theorem csrViolationsTrap : Obligations.CsrViolationsTrap := by
  unfold Obligations.CsrViolationsTrap
  intro rd rs1 u a s
  refine ⟨fun h => ?_, fun c h hc => ?_⟩
  · have traps {i : Instr} {w : Bool} {new : Word → Word}
        (hx : exec i s = .next (s.csrAccess rd a w new)) := traps_of_unsupported h hx
    exact ⟨traps rfl, traps rfl, traps rfl, traps rfl, traps rfl, traps rfl⟩
  · have traps {i : Instr} {w : Bool} {new : Word → Word}
        (hx : exec i s = .next (s.csrAccess rd a w new)) := csrWriteTraps_of_readOnly h hc hx
    exact ⟨traps rfl rfl, traps rfl rfl,
      fun h0 => ⟨traps rfl (bne_iff_ne.2 h0), traps rfl (bne_iff_ne.2 h0)⟩,
      fun h0 => ⟨traps rfl (bne_iff_ne.2 h0), traps rfl (bne_iff_ne.2 h0)⟩⟩

/-- Settles O22: the three are read-only CSRs that read as constants; their reads are the pure reads, and
their writes are violations (O26). -/
theorem identificationCsrs : Obligations.IdentificationCsrs := by
  unfold Obligations.IdentificationCsrs
  intro rd rs1 u s p hp
  obtain ⟨c, h, hc, hv⟩ : ∃ c, csrOfAddr p.1 = some c ∧ csrReadOnly c = true ∧ s.csrRead c = p.2 := by
    simp only [List.mem_cons, List.not_mem_nil, or_false] at hp
    obtain rfl | rfl | rfl := hp
    · exact ⟨.mcpuid, rfl, rfl, rfl⟩
    · exact ⟨.mimpid, rfl, rfl, rfl⟩
    · exact ⟨.mhartid, rfl, rfl, rfl⟩
  have trapOf : ∀ {i}, CsrWriteTraps i rd c s → ∃ t, exec i s = .next t ∧ TrapTaken 2#32 s t :=
    fun ⟨t, hx, ht, _⟩ => ⟨t, hx, ht⟩
  obtain ⟨hrs, hrc, hrsi, hrci⟩ := pureReads h rd s
  obtain ⟨-, hviolation⟩ := csrViolationsTrap rd rs1 u p.1 s
  obtain ⟨hrw, hrwi, hreg, himm⟩ := hviolation c h hc
  simp only [List.forall_mem_cons, List.not_mem_nil, false_imp_iff, implies_true, and_true, ← hv]
  exact ⟨⟨hrs, hrc, hrsi, hrci⟩, ⟨trapOf hrw, trapOf hrwi⟩,
    fun h0 => ⟨trapOf (hreg h0).1, trapOf (hreg h0).2⟩,
    fun h0 => ⟨trapOf (himm h0).1, trapOf (himm h0).2⟩⟩

/-- A counter's halves as numbers (R127, R128). -/
theorem csrRead_instreth (s : State) :
    s.csrRead .instreth = BitVec.ofNat 32 (s.instret.toNat / 2 ^ 32) := by
  simp [State.csrRead, BitVec.extractLsb', Nat.shiftRight_eq_div_pow]

/-- Settles O23: the table gives each address its CSR, and the pure reads give the CSR's value. -/
theorem csrReadValues : Obligations.CsrReadValues := by
  unfold Obligations.CsrReadValues
  intro rd s p hp
  obtain ⟨c, h, hv⟩ : ∃ c, csrOfAddr p.1 = some c ∧ s.csrRead c = p.2 := by
    simp only [List.mem_cons, List.not_mem_nil, or_false] at hp
    obtain rfl | rfl | rfl | rfl | rfl | rfl | rfl | rfl | rfl | rfl | rfl | rfl | rfl | rfl := hp
    · exact ⟨.mscratch, rfl, rfl⟩
    · exact ⟨.mepc, rfl, rfl⟩
    · exact ⟨.mcause, rfl, rfl⟩
    · exact ⟨.mbadaddr, rfl, rfl⟩
    · exact ⟨.cycle, rfl, rfl⟩
    · exact ⟨.time, rfl, rfl⟩
    · exact ⟨.cycleh, rfl, rfl⟩
    · exact ⟨.timeh, rfl, rfl⟩
    · exact ⟨.instret, rfl, rfl⟩
    · exact ⟨.instreth, rfl, csrRead_instreth s⟩
    · exact ⟨.mcpuid, rfl, rfl⟩
    · exact ⟨.mimpid, rfl, rfl⟩
    · exact ⟨.mhartid, rfl, rfl⟩
    · exact ⟨.mstatus, rfl, rfl⟩
  rw [← hv]
  exact pureReads h rd s

/-! ## mstatus (R121) -/

/-- A flag placed at bit j of a word. -/
theorem getLsbD_flag (b : Bool) {j k : Nat} (hk : k < 32) :
    ((BitVec.ofBool b).setWidth 32 <<< j).getLsbD k = (decide (k = j) && b) := by
  simp only [BitVec.getLsbD_shiftLeft, BitVec.getLsbD_setWidth, hk, BitVec.getLsbD_ofBool]
  rcases Nat.lt_trichotomy k j with h | rfl | h
  · simp [h, h.ne]
  · simp
  · simp [h.ne', show k - j ≠ 0 by omega]

theorem getLsbD_mstatusFixed_ieBit : mstatusFixed.getLsbD ieBit = false := by
  simp [mstatusFixed, ieBit, ie1Bit]

theorem getLsbD_mstatusFixed_ie1Bit : mstatusFixed.getLsbD ie1Bit = false := by
  simp [mstatusFixed, ieBit, ie1Bit]

/-- A bit of mstatus is MSTATUS_FIXED's or one of the two flags. -/
theorem getLsbD_mstatus (s : State) {k : Nat} (hk : k < 32) : (s.csrRead .mstatus).getLsbD k =
    (mstatusFixed.getLsbD k || decide (k = ieBit) && s.ie || decide (k = ie1Bit) && s.ie1) := by
  simp [State.csrRead, State.mstatus, BitVec.getLsbD_or, getLsbD_flag _ hk]

/-- Settles O24: at bits 0 and 3 only the flag can be set, elsewhere only the constant. -/
theorem mstatusComposition : Obligations.MstatusComposition := by
  unfold Obligations.MstatusComposition
  intro s k hk
  refine ⟨?_, getLsbD_mstatusFixed_ieBit, getLsbD_mstatusFixed_ie1Bit⟩
  rw [getLsbD_mstatus s hk]
  by_cases h0 : k = 0
  · subst h0
    rw [show mstatusFixed.getLsbD 0 = false from getLsbD_mstatusFixed_ieBit]
    simp [ieBit, ie1Bit]
  · by_cases h3 : k = 3
    · subst h3
      rw [show mstatusFixed.getLsbD 3 = false from getLsbD_mstatusFixed_ie1Bit]
      simp [ieBit, ie1Bit]
    · simp [h0, h3, ieBit, ie1Bit]

end Sys2Proof.Machine
end

