-- ==== Sys2Proof/Proofs/StateRegisters.lean ====
section
/-! PROOF. The register laws and the host's register access. -/

namespace Sys2Proof.Machine

/-- Settles O19, by the register laws of Laws/State. -/
theorem registerZeroLaw : Obligations.RegisterZeroLaw := by
  unfold Obligations.RegisterZeroLaw
  intro s r q v
  exact ⟨reg_zero s, setReg_zero s v, reg_setReg_same s r v, reg_setReg_ne s r q v⟩

/-- Settles O56: an index in range is a register number, and 0 is x0's. -/
theorem hostRegisterAccess : Obligations.HostRegisterAccess := by
  unfold Obligations.HostRegisterAccess
  intro s i v
  refine ⟨fun hi => ?_, fun hi => ?_⟩
  · have hget : ∀ t : State, t.getRegister i = .next (t.reg (BitVec.ofNat 5 i)) := fun t => by
      simp [State.getRegister, hi]
    have hzero : BitVec.ofNat 5 i = 0#5 ↔ i = 0 := by
      simp [← BitVec.toNat_inj]
      omega
    refine ⟨hget s, s.setReg (BitVec.ofNat 5 i) v, by simp [State.setRegister, hi], ?_,
      onlyReg_setReg _ v (.inl rfl)⟩
    simp [hget, reg_setReg_rd, hzero]
  · simp [State.getRegister, State.setRegister, hi]

end Sys2Proof.Machine
end

