-- ==== Sys2Proof/Proofs/MemoryFootprint.lean ====
section
/-! PROOF. What an instruction can do to memory and to the reservation set, by cases on the shapes of its
next state; the step's rule about ROM and unmapped bytes follows. -/

namespace Sys2Proof.Machine

@[simp] theorem setReg_isRamByte (s : State) (r : Reg) (v : Word) (b : Nat) :
    (s.setReg r v).isRamByte b = s.isRamByte b := isRamByte_congr (by simp)

@[simp] theorem useDraw_isRamByte (s : State) (b : Nat) : s.useDraw.isRamByte b = s.isRamByte b :=
  isRamByte_congr (by simp)

@[simp] theorem startStep_isRamByte (s : State) (b : Nat) :
    s.startStep.isRamByte b = s.isRamByte b := isRamByte_congr (by simp)

/-- The byte at `b` lies where an access of n bytes at `a` may write: in the access if it is aligned, in
the aligned words it touches if not (R231). -/
def InFootprint (a : Word) (n b : Nat) : Prop :=
  (a.toNat % n = 0 → inAccess a n b)
    ∧ (a.toNat % n ≠ 0 → ∃ j < n, b / 4 = (a + BitVec.ofNat 32 j).toNat / 4)

/-- The store of a read-modify-write starts from the bytes and the keys before the draw and the write of
rd. -/
theorem memory_of_drawn_setReg {s u : State} (hu : u = s ∨ u = s.useDraw) (rd : Reg) (old : Word) :
    (∀ b, (u.setReg rd old).byteAt b = s.byteAt b)
      ∧ (∀ b, (u.setReg rd old).isRamByte b = s.isRamByte b)
      ∧ (u.setReg rd old).reservations = s.reservations := by
  obtain rfl | rfl := hu <;> simp

section Clauses

variable {i : Instr} {s t : State}

/-- A byte changes only by a memory access that writes, in RAM and in the access's footprint. -/
theorem Effect.byteAt_changed (e : Effect i s t) {b : Nat} (hb : t.byteAt b ≠ s.byteAt b) :
    writesMemory i = true ∧ s.isRamByte b = true
      ∧ ∃ a n, dataAccess i s = some (a, n) ∧ InFootprint a n b := by
  cases e with
  | nothing | jumps | branches | traps | csrTraps | returns | csrWrites => simp at hb
  | writes rd v u _ hu | reserves rd rs1 v u _ hu => obtain rfl | rfl := hu <;> simp at hb
  | stores a n v t hn hw hd hm =>
    obtain ⟨-, hbytes, -, -⟩ := memWrite_spec hn hm
    obtain ⟨hram, hfoot⟩ := hbytes b hb
    exact ⟨hw, hram, a, n, hd, hfoot⟩
  | conditional rd a v u _ hw hd hm =>
    obtain ⟨-, hbytes, -, -⟩ := memWrite_spec (by decide) hm
    obtain ⟨hram, hfoot⟩ := hbytes b (by simpa using hb)
    exact ⟨hw, hram, a, 4, hd, hfoot⟩
  | updates rd old a v u t _ hu hw hd hm =>
    obtain ⟨hbyte, hkind, -⟩ := memory_of_drawn_setReg hu rd old
    obtain ⟨-, hbytes, -, -⟩ := memWrite_spec (by decide) hm
    obtain ⟨hram, hfoot⟩ := hbytes b (hbyte b ▸ hb)
    exact ⟨hw, hkind b ▸ hram, a, 4, hd, hfoot⟩

/-- Only LR.W adds a key, its own word's (R250). -/
theorem Effect.key_added (e : Effect i s t) {k : Nat} (ht : k ∈ t.reservations)
    (hs : k ∉ s.reservations) : ∃ rd rs1, i = .lrW rd rs1 ∧ k = wordKey (s.reg rs1) := by
  cases e with
  | nothing | jumps | branches | traps | csrTraps | returns | csrWrites => simp_all
  | writes rd v u _ hu => obtain rfl | rfl := hu <;> simp_all
  | reserves rd rs1 v u hi hu =>
    refine ⟨rd, rs1, hi, ?_⟩
    obtain rfl | rfl := hu <;> simpa [hs] using ht
  | stores a n v t hn _ _ hm =>
    obtain ⟨-, -, hkept, -⟩ := memWrite_spec hn hm
    exact absurd (hkept k ht) hs
  | conditional rd a v u _ _ _ hm =>
    obtain ⟨-, -, hkept, -⟩ := memWrite_spec (by decide) hm
    exact absurd (hkept k (by simpa using ht)) hs
  | updates rd old a v u t _ hu _ _ hm =>
    obtain ⟨-, -, hkeys⟩ := memory_of_drawn_setReg hu rd old
    obtain ⟨-, -, hkept, -⟩ := memWrite_spec (by decide) hm
    exact absurd (hkeys ▸ hkept k ht) hs

/-- A key goes by a write to its word, or with all the others by a trap or ERET (R252, R253). -/
theorem Effect.key_removed (e : Effect i s t) {k : Nat} (hs : k ∈ s.reservations)
    (ht : k ∉ t.reservations) :
    (writesMemory i = true ∧ ∃ a n, dataAccess i s = some (a, n)
        ∧ ∃ j < n, k = (a + BitVec.ofNat 32 j).toNat / 4)
      ∨ (t.reservations = [] ∧ (i = .eret ∨ i = .scall ∨ i = .sbreak ∨ isCsrInstr i = true)) := by
  cases e with
  | nothing | jumps | branches | csrWrites => simp_all
  | writes rd v u _ hu | reserves rd rs1 v u _ hu => obtain rfl | rfl := hu <;> simp_all
  | traps c _ hi => exact .inr ⟨by simp, .inr hi⟩
  | csrTraps rd old _ hc => exact .inr ⟨by simp, .inr (.inr (.inr hc))⟩
  | returns hi => exact .inr ⟨by simp, .inl hi⟩
  | stores a n v t hn hw hd hm =>
    obtain ⟨-, -, -, hgone⟩ := memWrite_spec hn hm
    exact .inl ⟨hw, a, n, hd, hgone k hs ht⟩
  | conditional rd a v u _ hw hd hm =>
    obtain ⟨-, -, -, hgone⟩ := memWrite_spec (by decide) hm
    exact .inl ⟨hw, a, 4, hd, hgone k hs (by simpa using ht)⟩
  | updates rd old a v u t _ hu hw hd hm =>
    obtain ⟨-, -, hkeys⟩ := memory_of_drawn_setReg hu rd old
    obtain ⟨-, -, -, hgone⟩ := memWrite_spec (by decide) hm
    exact .inl ⟨hw, a, 4, hd, hgone k (hkeys ▸ hs) ht⟩

end Clauses

/-- Settles O16: by the shapes of an instruction's next state. -/
theorem execMemoryFootprint : Obligations.ExecMemoryFootprint := by
  unfold Obligations.ExecMemoryFootprint
  intro i s t b h hb
  exact (exec_effect h).byteAt_changed hb

/-- Settles O17: by the shapes of an instruction's next state. -/
theorem reservationsChangeOnlyBy : Obligations.ReservationsChangeOnlyBy := by
  unfold Obligations.ReservationsChangeOnlyBy
  intro i s t k h
  exact ⟨(exec_effect h).key_added, (exec_effect h).key_removed⟩

/-- The fetch and the start of a step change no byte, no byte's kind and not the platform. -/
theorem startStep_same {s u : State} (hu : u = s ∨ u = s.useDraw) :
    (∀ a, u.startStep.byteAt a = s.byteAt a) ∧ (∀ a, u.startStep.isRamByte a = s.isRamByte a)
      ∧ SamePlatform s u.startStep := by
  obtain rfl | rfl := hu <;> simp [SamePlatform]

/-- Settles O15: what the step executes changes RAM bytes only (O16), and the platform never. -/
theorem stepNeverWritesRom : Obligations.StepNeverWritesRom := by
  unfold Obligations.StepNeverWritesRom
  intro s t hstep
  obtain ⟨w, u, r, -, hu, rfl, hr⟩ := step_next hstep
  obtain ⟨hbyte, hram, hplat, hcfg⟩ := startStep_same hu
  obtain ⟨i, -, hexec⟩ | rfl := hr
  · have e := exec_effect hexec
    obtain ⟨-, -, hplat', hcfg'⟩ := e.fixed_eq
    refine ⟨fun a ha => ?_, hplat'.trans hplat, hcfg'.trans hcfg⟩
    by_contra hne
    obtain ⟨-, hin, -⟩ := e.byteAt_changed (b := a) (by simpa [hbyte] using hne)
    simp [hram, ha] at hin
  · exact ⟨fun a _ => by simpa using hbyte a, hplat, hcfg⟩

end Sys2Proof.Machine
end

