-- ==== Sys2Proof/Proofs/MemoryAccess.lean ====
section
/-! PROOF. Loads without a stated value, misaligned stores, and the fetch of a stored word. -/

namespace Sys2Proof.Machine

/-- Where the spec states no value, MemRead draws one: at an aligned address of a device, and at a
misaligned address under Draw (R230, D2, D36). -/
theorem memRead_drawn {s : State} {a : Word} {n : Nat}
    (h : (a.toNat % n = 0 ∧ s.isDevicePage a.toNat = true)
      ∨ (a.toNat % n ≠ 0 ∧ s.cfg.misalignedData = .draw)) :
    s.memRead a n = .ok (s.drawn n, s.useDraw) := by
  obtain ⟨ha, hd⟩ | ⟨ha, hc⟩ := h
  · rw [memRead_aligned ha, busRead_device hd]
  · exact memRead_draw ha hc

theorem loadTo_fault {s : State} {a : Word} {n : Nat} (ha : a.toNat % n ≠ 0)
    (hc : s.cfg.misalignedData = .fault) (rd : Reg) (f : Word → Word) :
    s.loadTo rd a n f = .fault .misalignedData := by
  rw [State.loadTo, memRead_fault ha hc]

theorem storeFrom_fault {s : State} {a : Word} {n : Nat} (ha : a.toNat % n ≠ 0)
    (hc : s.cfg.misalignedData = .fault) (v : Word) :
    s.storeFrom a n v = .fault .misalignedData := by
  rw [State.storeFrom, memWrite_fault ha hc]

/-- Settles O41: the value is the draw's low bits. -/
theorem loadsWithoutStatedValue : Obligations.LoadsWithoutStatedValue := by
  unfold Obligations.LoadsWithoutStatedValue
  intro rd rs1 imm s a
  refine ⟨fun hd => ?_, fun h => ?_, fun h => ?_, fun hc => ⟨fun ha => ?_, fun ha => ?_⟩⟩
  · have e : s.memRead a 1 = .ok (s.drawn 1, s.useDraw) := memRead_drawn (.inl ⟨Nat.mod_one _, hd⟩)
    exact ⟨(s.drawn 1).extractLsb' 0 8, writesReg_of_draw (f := signedByte) rfl e,
      writesReg_of_draw (f := unsignedByte) rfl e⟩
  · exact ⟨(s.drawn 2).extractLsb' 0 16, writesReg_of_draw (f := signedHalf) rfl (memRead_drawn h),
      writesReg_of_draw (f := unsignedHalf) rfl (memRead_drawn h)⟩
  · exact ⟨s.drawn 4, writesReg_of_draw (f := wholeWord) rfl (memRead_drawn h)⟩
  · exact ⟨loadTo_fault ha hc rd signedHalf, loadTo_fault ha hc rd unsignedHalf⟩
  · exact loadTo_fault ha hc rd wholeWord

/-- A misaligned store under Draw scrambles the words it touches and changes nothing else (R231). -/
theorem storeFrom_scrambles {s : State} {a : Word} {n : Nat} (hn : n ∈ [1, 2, 4])
    (ha : a.toNat % n ≠ 0) (hc : s.cfg.misalignedData = .draw) (v : Word) :
    ∃ t, s.storeFrom a n v = .next t ∧ OnlyStored s t ∧ Scrambled a n s t := by
  have e := memWrite_draw (v := v) ha hc
  exact ⟨_, by rw [State.storeFrom, e], onlyStored_memWrite e, scrambled_of_draw hn⟩

/-- Settles O43, by the two settings of MISALIGNED_DATA. -/
theorem misalignedStores : Obligations.MisalignedStores := by
  unfold Obligations.MisalignedStores
  intro rs1 rs2 imm s a
  exact ⟨fun hc => ⟨fun ha => storeFrom_fault ha hc (unsignedHalf (s.reg rs2)),
      fun ha => storeFrom_fault ha hc (s.reg rs2)⟩,
    fun hc => ⟨fun ha => storeFrom_scrambles (by decide) ha hc (unsignedHalf (s.reg rs2)),
      fun ha => storeFrom_scrambles (by decide) ha hc (s.reg rs2)⟩⟩

theorem not_isDevicePage_of_isRamByte {s : State} {a : Nat} (h : s.isRamByte a = true) :
    s.isDevicePage a = false := by
  unfold State.isRamByte at h
  unfold State.isDevicePage
  cases ho : s.ownerAt a with
  | none => rfl
  | some p =>
    rw [ho] at h
    have hk : p.kind = .ram := by simpa using h
    simp [hk]

/-- Settles O45: the bytes stored are the ones the fetch reads, and pc is all the fetch looks at
besides. -/
theorem storeSeenByFetch : Obligations.StoreSeenByFetch := by
  unfold Obligations.StoreSeenByFetch
  intro rs1 rs2 imm s hm a ha hram
  have hx : exec (.sw rs1 rs2 imm) s = s.storeFrom a 4 (s.reg rs2) := rfl
  obtain ⟨t, ht, hstored, hbytes⟩ := storesTo_of_exec hx hm (by decide) ha rfl
  refine ⟨t, ht, ?_⟩
  change (t.setPc a).fetch = .ok (_, t.setPc a)
  have hdev : (t.setPc a).isDevicePage a.toNat = false := by
    refine not_isDevicePage_of_isRamByte ?_
    rwa [isRamByte_congr (s := s) (a := a.toNat)]
    simp [State.ownerAt, hstored.platform.1]
  have hvalue : (t.setPc a).valueAt a.toNat 4 = (s.reg rs2).toNat := by
    rw [valueAt_of_bytes 4 _ (s.reg rs2).toNat fun i hi => by simpa using hbytes.stored i hi hram]
    exact Nat.mod_eq_of_lt (s.reg rs2).isLt
  rw [fetch_memory ha hdev]
  simp [hvalue]

end Sys2Proof.Machine
end

