-- ==== Sys2Proof/Proofs/MemoryMap.lean ====
section
/-! PROOF. The page map: the local-address wrap seen from the bus and from the host, and what an
attachment claims and holds. -/

namespace Sys2Proof.Machine

/-! ## The wrap -/

/-- Settles O59: the last byte of the access lies in the same page, so in the peripheral's range, where
neither mask wraps. -/
theorem busNeverWraps : Obligations.BusNeverWraps := by
  unfold Obligations.BusNeverWraps
  intro s a n p hinv hn ha ho
  obtain ⟨hp, hclaims⟩ := ownerAt_claims ho
  have hpos : 0 < n := by
    simp only [List.mem_cons, List.not_mem_nil, or_false] at hn
    omega
  have hpage : pageOf (a + n - 1) = pageOf a := by
    rw [Nat.add_sub_assoc hpos]
    exact pageOf_add hn ha (by omega)
  obtain ⟨hlo, hhi⟩ := claims_iff.1 hclaims
  obtain ⟨-, hlast⟩ := claims_iff.1 (hpage ▸ hclaims)
  refine ⟨hpage, hlo, by omega, ?_, mask_busAddress (hinv.basesAligned p hp) hlo hhi⟩
  obtain ⟨k, hk, hs⟩ := wrapSize_spec p
  rw [mask_eq_mod, hk, Nat.mod_eq_of_lt (by omega)]

/-! ## The host's buffer access (R225, R820) -/

/-- The cell of a local address depends on it modulo P only. -/
theorem cellAt_add_wrapSize (p : Peripheral) (l : Nat) : p.cellAt (l + p.wrapSize) = p.cellAt l := by
  simp only [cellAt_eq, Nat.add_mod_right]

section Buffer

variable {s : State} {k : Nat} {p : Peripheral}

theorem bufferRead_wrap (hk : s.peripherals[k]? = some p) (l : Nat) :
    s.bufferRead k (l + p.wrapSize) = s.bufferRead k l := by
  simp only [State.bufferRead, hk, cellAt_add_wrapSize]

theorem bufferWrite_wrap (hk : s.peripherals[k]? = some p) (l : Nat) (b : Byte) :
    s.bufferWrite k (l + p.wrapSize) b = s.bufferWrite k l b := by
  simp only [State.bufferWrite, hk, cellAt_add_wrapSize]

/-- A read of RAM's or ROM's buffer gives the byte of its cell. -/
theorem bufferRead_cell (hk : s.peripherals[k]? = some p) (hd : p.kind ≠ .device) {l a : Nat}
    (hc : p.cellAt l = .ok a) : s.bufferRead k l = .next (s.mem.read a) := by
  cases hkind : p.kind with
  | ram | rom => simp only [State.bufferRead, hk, hkind, hc]
  | device => exact absurd hkind hd

theorem bufferRead_outside (hk : s.peripherals[k]? = some p) (hd : p.kind ≠ .device) {l : Nat}
    {f : Fault} (hc : p.cellAt l = .error f) : s.bufferRead k l = .fault f := by
  cases hkind : p.kind with
  | ram | rom => simp only [State.bufferRead, hk, hkind, hc]
  | device => exact absurd hkind hd

theorem bufferWrite_rom (hk : s.peripherals[k]? = some p) (hr : p.kind = .rom) (l : Nat) (b : Byte) :
    s.bufferWrite k l b = .refused .romBufferWrite := by
  simp only [State.bufferWrite, hk, hr]

/-- A write to RAM's buffer sets the byte of its cell. -/
theorem bufferWrite_cell (hk : s.peripherals[k]? = some p) (hr : p.kind = .ram) {l a : Nat}
    (hc : p.cellAt l = .ok a) (b : Byte) :
    s.bufferWrite k l b = .next { s with mem := s.mem.write a b } := by
  simp only [State.bufferWrite, hk, hr, hc]

theorem bufferWrite_outside (hk : s.peripherals[k]? = some p) (hr : p.kind = .ram) {l : Nat}
    {f : Fault} (hc : p.cellAt l = .error f) (b : Byte) : s.bufferWrite k l b = .fault f := by
  simp only [State.bufferWrite, hk, hr, hc]

end Buffer

/-- The peripheral owns every byte of its own range. -/
theorem ownerAt_own {s : State} (h : s.mapOk) {p : Peripheral} (hp : p ∈ s.peripherals) {m : Nat}
    (hm : m < p.size) : s.ownerAt (p.base + m) = some p :=
  ownerAt_of_mem h hp (claims_iff.2 ⟨by omega, by omega⟩)

theorem byteAt_write_ne (s : State) {a c : Nat} (b : Byte) (h : c ≠ a) :
    ({ s with mem := s.mem.write a b } : State).byteAt c = s.byteAt c :=
  byteAt_congr rfl (Memory.read_write_ne s.mem a b c h)

theorem byteAt_write_same {s : State} {a : Nat} {p : Peripheral} (hm : s.mem.wf)
    (ho : s.ownerAt a = some p) (hd : p.kind ≠ .device) (b : Byte) :
    ({ s with mem := s.mem.write a b } : State).byteAt a = b := by
  have ho' : ({ s with mem := s.mem.write a b } : State).ownerAt a = some p := ho
  rw [byteAt_buffer ho' hd]
  exact Memory.read_write_same s.mem a b hm

/-- Settles O57: the cell of a local address is base + l mod P, and the peripheral owns it. -/
theorem hostBufferAccess : Obligations.HostBufferAccess := by
  unfold Obligations.HostBufferAccess
  intro s k l b p hinv hk m
  have hp : p ∈ s.peripherals := List.mem_of_getElem? hk
  have inside : m < p.size → p.cellAt l = .ok (p.base + m) := fun hm => by rw [cellAt_eq, if_pos hm]
  have outside : ¬ m < p.size → p.cellAt l = .error .outsideBuffer := fun hm => by
    rw [cellAt_eq, if_neg hm]
  refine ⟨⟨?_, ?_, fun e he => wrapSize_least p he⟩,
    ⟨bufferRead_wrap hk l, bufferWrite_wrap hk l b⟩, fun hd => ⟨fun hm => ?_, fun hm => ?_⟩,
    fun hr => bufferWrite_rom hk hr l b, fun hr => ⟨fun hm => ?_, fun hm => ?_⟩⟩
  · obtain ⟨e, he, -⟩ := wrapSize_spec p
    exact ⟨e, he⟩
  · obtain ⟨e, he, hs⟩ := wrapSize_spec p
    rwa [he]
  · rw [bufferRead_cell hk hd (inside hm), byteAt_buffer (ownerAt_own hinv.mapOk hp hm) hd]
  · exact bufferRead_outside hk hd (outside hm)
  · exact bufferWrite_outside hk hr (outside hm) b
  · refine ⟨_, bufferWrite_cell hk hr (inside hm) b, ?_, fun a ha => byteAt_write_ne s b ha, rfl,
      fun _ => rfl, rfl, by simp [SameCsrs]⟩
    exact byteAt_write_same hinv.memoryOk.1 (ownerAt_own hinv.mapOk hp hm) (by simp [hr]) b

/-! ## Attachment (R220) -/

/-- The byte `a` lies in the pages a request asks for. -/
def AttachRequest.covers (r : AttachRequest) (a : Nat) : Prop :=
  r.base.toNat ≤ a ∧ a < r.base.toNat + 1024 * r.pages

theorem claims_request {r : AttachRequest} (hb : r.base.toNat % 1024 = 0) {a : Nat} :
    r.peripheral.claims (pageOf a) = true ↔ r.covers a := by
  rw [claims_iff, peripheral_base hb]
  rfl

/-- Two peripherals of at least one page are apart exactly if no byte's page is claimed by both. -/
theorem apart_iff {p q : Peripheral} (hp : 1 ≤ p.pages) (hq : 1 ≤ q.pages) :
    p.apart q = true ↔ ∀ a, q.claims (pageOf a) = true → p.claims (pageOf a) = false := by
  simp only [Peripheral.apart, Bool.or_eq_true, decide_eq_true_eq]
  constructor
  · intro h a ha
    simp only [Peripheral.claims, Bool.and_eq_true, Bool.and_eq_false_iff, decide_eq_true_eq,
      decide_eq_false_iff_not] at *
    omega
  · intro h
    have page : ∀ n, pageOf (1024 * n) = n := fun n => Nat.mul_div_cancel_left n (by decide)
    have hmax := h (1024 * max p.firstPage q.firstPage)
    simp only [page, Peripheral.claims, Bool.and_eq_true, Bool.and_eq_false_iff, decide_eq_true_eq,
      decide_eq_false_iff_not] at hmax
    omega

/-- No attached peripheral shares a page with the request exactly if every byte it asks for is unmapped. -/
theorem all_apart_iff {s : State} (h : s.mapOk) {r : AttachRequest} (hb : r.base.toNat % 1024 = 0)
    (hpages : r.pages ≠ 0) :
    s.peripherals.all (fun p => p.apart r.peripheral) = true
      ↔ ∀ a, r.covers a → s.ownerAt a = none := by
  have hr : 1 ≤ r.peripheral.pages := Nat.pos_of_ne_zero hpages
  have apart : ∀ p ∈ s.peripherals, (p.apart r.peripheral = true
      ↔ ∀ a, r.covers a → p.claims (pageOf a) = false) := fun p hp => by
    rw [apart_iff (h.2 p hp).1 hr]
    simp only [claims_request hb]
  simp only [List.all_eq_true, State.ownerAt, List.find?_eq_none, Bool.not_eq_true]
  exact ⟨fun hall a ha p hp => (apart p hp).1 (hall p hp) a ha,
    fun hnone p hp => (apart p hp).2 fun a ha => hnone a ha p hp⟩

theorem kindAdmitted_iff (cfg : Params) (kind : PeripheralKind) :
    kindAdmitted cfg kind = true ↔ (kind = .device → cfg.devicesAdmitted = true) := by
  cases kind <;> simp [kindAdmitted]

/-- What R220 asks of a request, as a statement about the bytes it covers. -/
def AttachRequest.accepted (r : AttachRequest) (s : State) : Prop :=
  r.base.toNat % 1024 = 0 ∧ r.pages ≠ 0 ∧ r.base.toNat + 1024 * r.pages ≤ 2 ^ 32
    ∧ (∀ a, r.base.toNat ≤ a → a < r.base.toNat + 1024 * r.pages → s.ownerAt a = none)
    ∧ (r.kind = .device → s.cfg.devicesAdmitted = true)

/-- The model's check is R220's. -/
theorem attachable_iff {s : State} (h : s.mapOk) (r : AttachRequest) :
    s.attachable r = true ↔ r.accepted s := by
  simp only [State.attachable, Bool.and_eq_true, decide_eq_true_eq, kindAdmitted_iff, and_assoc]
  refine and_congr_right fun hb => and_congr_right fun hpages => and_congr_right fun _ =>
    and_congr_left fun _ => ?_
  rw [all_apart_iff h hb hpages]
  simp only [AttachRequest.covers, and_imp]

theorem baseAligned_iff {r : AttachRequest} (hb : r.base.toNat % 1024 = 0) :
    r.peripheral.baseAligned = true ↔ r.base.toNat % r.peripheral.wrapSize = 0 := by
  rw [Peripheral.baseAligned, beq_iff_eq, peripheral_base hb]

/-! The attachment's four answers, one for each outcome of its tests. -/

theorem attach_started {s : State} (h : s.instret ≠ 0#64) (r : AttachRequest) :
    s.attach r = .refused .attachAfterFirstStep := by
  simp [State.attach, h]

theorem attach_rejected {s : State} {r : AttachRequest} (h : s.instret = 0#64)
    (ha : ¬ s.attachable r = true) : s.attach r = .next (false, s) := by
  simp [State.attach, h, ha]

theorem attach_basesNotAligned {s : State} {r : AttachRequest} (h : s.instret = 0#64)
    (ha : s.attachable r = true) (hb : ¬ r.peripheral.baseAligned = true) :
    s.attach r = .refused .basesNotAligned := by
  simp [State.attach, h, ha, hb]

theorem attach_succeeds {s : State} {r : AttachRequest} (h : s.instret = 0#64)
    (ha : s.attachable r = true) (hb : r.peripheral.baseAligned = true) :
    s.attach r = .next (true, s.withPeripheral r) := by
  simp [State.attach, h, ha, hb]

/-- The new peripheral comes after the ones attached before it. -/
theorem ownerAt_withPeripheral (s : State) (r : AttachRequest) (a : Nat) :
    (s.withPeripheral r).ownerAt a =
      (s.ownerAt a).or (if r.peripheral.claims (pageOf a) then some r.peripheral else none) := by
  simp only [State.ownerAt, State.withPeripheral, List.find?_append, List.find?_singleton]

section WithPeripheral

variable {s : State} {r : AttachRequest} (hb : r.base.toNat % 1024 = 0)
include hb

theorem ownerAt_withPeripheral_covered {a : Nat} (ha : r.covers a) (ho : s.ownerAt a = none) :
    (s.withPeripheral r).ownerAt a = some r.peripheral := by
  rw [ownerAt_withPeripheral, ho, (claims_request hb).2 ha]
  rfl

theorem ownerAt_withPeripheral_uncovered {a : Nat} (ha : ¬ r.covers a) :
    (s.withPeripheral r).ownerAt a = s.ownerAt a := by
  rw [ownerAt_withPeripheral, if_neg (mt (claims_request hb).1 ha), Option.or_none]

/-- Bytes the request does not cover are as before: its image is cut to its size. -/
theorem byteAt_withPeripheral_uncovered {a : Nat} (ha : ¬ r.covers a) :
    (s.withPeripheral r).byteAt a = s.byteAt a := by
  refine byteAt_congr (ownerAt_withPeripheral_uncovered hb ha) ?_
  simp only [State.withPeripheral]
  split
  · rfl
  · have hlen := List.length_take_le r.peripheral.size r.image
    have hsize : r.peripheral.size = 1024 * r.pages := rfl
    refine Memory.read_writeBytes_of_outside _ _ _ _ ?_
    rw [peripheral_base hb]
    unfold AttachRequest.covers at ha
    omega

/-- The covered bytes hold the image, and 0 where it ends (log 17). -/
theorem byteAt_withPeripheral_covered (hm : s.memoryOk) (hk : r.kind ≠ .device) {a : Nat}
    (ha : r.covers a) (ho : s.ownerAt a = none) :
    (s.withPeripheral r).byteAt a = r.image.getD (a - r.base.toNat) 0#8 := by
  rw [byteAt_buffer (ownerAt_withPeripheral_covered hb ha ho) hk]
  simp only [State.withPeripheral, if_neg hk, peripheral_base hb]
  obtain ⟨hlo, hhi⟩ := ha
  have hsize : r.peripheral.size = 1024 * r.pages := rfl
  by_cases hi : a - r.base.toNat < r.image.length
  · have hi' : a - r.base.toNat < (r.image.take r.peripheral.size).length := by
      rw [List.length_take]
      omega
    have hread := Memory.read_writeBytes_of_inside _ s.mem r.base.toNat _ hm.1 hi'
    rw [Nat.add_sub_cancel' hlo] at hread
    rw [hread, List.getElem_take, List.getD_eq_getElem _ _ hi]
  · have hlen := List.length_take_le' r.peripheral.size r.image
    rw [Memory.read_writeBytes_of_outside _ _ _ _ (by omega), read_unowned hm ho,
      List.getD_eq_default _ _ (by omega)]

end WithPeripheral

/-- Settles O58: R220's conditions are the model's check, and the new peripheral takes exactly the
request's bytes. -/
theorem attachRules : Obligations.AttachRules := by
  unfold Obligations.AttachRules
  intro s r hinv
  change _ ∧ (_ → ¬ r.accepted s → _) ∧ (_ → r.accepted s → _) ∧ (_ → r.accepted s → _)
  have hiff := attachable_iff hinv.mapOk r
  refine ⟨fun h => attach_started h r, fun h hacc => attach_rejected h (mt hiff.1 hacc),
    fun h hacc hal => ?_, fun h hacc hal => ?_⟩
  · exact attach_basesNotAligned h (hiff.2 hacc) (mt (baseAligned_iff hacc.1).1 hal)
  · have hattach := attach_succeeds h (hiff.2 hacc) ((baseAligned_iff hacc.1).2 hal)
    obtain ⟨hb, -, -, hfree, -⟩ := hacc
    refine ⟨_, hattach, fun a hlo hhi => ⟨?_, fun hk => ?_⟩, fun a ha => ⟨?_, ?_⟩, fun _ => rfl, rfl,
      by simp [SameCsrs, State.withPeripheral], rfl⟩
    · exact ownerAt_withPeripheral_covered hb ⟨hlo, hhi⟩ (hfree a hlo hhi)
    · exact byteAt_withPeripheral_covered hb hinv.memoryOk hk ⟨hlo, hhi⟩ (hfree a hlo hhi)
    · exact ownerAt_withPeripheral_uncovered hb ha
    · exact byteAt_withPeripheral_uncovered hb ha

end Sys2Proof.Machine
end

