-- ==== Sys2Proof/Proofs/EncodingRoundTrip.lean ====
section
/-! PROOF. Decoding and encoding undo one another: `decodeWord w = .ok i` says just that `i` is
well-formed and that `w` is its word in every bit but those without effect. One direction goes by
the instruction's constructor, the other by the decoder's groups; each format is taken apart and
put together once. -/

namespace Sys2Proof

/-- The word is the instruction's own in every bit that has an effect (R332). -/
def IsWordOf (w : Word) (i : Instr) : Prop :=
  i.wellFormed = true ∧ w &&& ~~~(ignoredBits i) = encode i

theorem and_not_of_zero {w z : Word} (hz : z = 0#32) : w &&& ~~~z = w := by
  rw [hz]
  exact BitVec.and_allOnes

theorem eq_encode_of_ignoredBits_zero {w : Word} {i : Instr} (hz : ignoredBits i = 0#32)
    (h : IsWordOf w i) : w = encode i :=
  (and_not_of_zero hz).symm.trans h.2

theorem isWordOf_of_eq {w : Word} {i : Instr} (hi : i.wellFormed = true) (hz : ignoredBits i = 0#32)
    (h : encode i = w) : IsWordOf w i :=
  ⟨hi, (and_not_of_zero hz).trans h.symm⟩

/-! ## From the instruction to the decoder: the fields of a word whose ignored bits are free -/

/-- A field that the mask keeps. -/
theorem field_of_masked {w m e : Word} (h : w &&& m = e) {k n : Nat}
    (hm : m.extractLsb' k n = BitVec.allOnes n) : w.extractLsb' k n = e.extractLsb' k n := by
  rw [← h, BitVec.extractLsb'_and, hm, BitVec.and_allOnes]

/-- aq and rl free (R545). -/
theorem amo_fields {w : Word} {f5 : BitVec 5} {rs2 rs1 rd : Reg}
    (h : w &&& ~~~0x06000000#32 = amoType f5 rs2 rs1 rd) :
    w.extractLsb' 0 2 = 0b11#2 ∧ tagOf w = 0b01011#5 ∧ rdOf w = rd ∧ funct3Of w = 0b010#3
      ∧ rs1Of w = rs1 ∧ rs2Of w = rs2 ∧ funct5Of w = f5 := by
  obtain ⟨h0, ht, hd, h3, h1, h2, -, h5⟩ :=
    rType_fields (f5 ++ 0b00#2) rs2 rs1 0b010#3 rd 0b0101111#7 0b01011#5 rfl
  rw [extract_append_high _ _ 2 5 (by decide), extract_all] at h5
  exact ⟨(field_of_masked h rfl).trans h0, (field_of_masked h rfl).trans ht,
    (field_of_masked h rfl).trans hd, (field_of_masked h rfl).trans h3,
    (field_of_masked h rfl).trans h1, (field_of_masked h rfl).trans h2,
    (field_of_masked h rfl).trans h5⟩

/-- aq, rl and rs2 free. -/
theorem lrW_fields {w : Word} {rs1 rd : Reg}
    (h : w &&& ~~~0x07F00000#32 = amoType 0b00010#5 0#5 rs1 rd) :
    w.extractLsb' 0 2 = 0b11#2 ∧ tagOf w = 0b01011#5 ∧ rdOf w = rd ∧ funct3Of w = 0b010#3
      ∧ rs1Of w = rs1 ∧ funct5Of w = 0b00010#5 := by
  obtain ⟨h0, ht, hd, h3, h1, -, -, h5⟩ :=
    rType_fields (0b00010#5 ++ 0b00#2) 0#5 rs1 0b010#3 rd 0b0101111#7 0b01011#5 rfl
  exact ⟨(field_of_masked h rfl).trans h0, (field_of_masked h rfl).trans ht,
    (field_of_masked h rfl).trans hd, (field_of_masked h rfl).trans h3,
    (field_of_masked h rfl).trans h1, (field_of_masked h rfl).trans h5⟩

/-- rd and rs1 free. -/
theorem system_fields {w : Word} {funct12 : BitVec 12}
    (h : w &&& ~~~0x000F8F80#32 = iType funct12 0#5 0b000#3 0#5 0b1110011#7) :
    w.extractLsb' 0 2 = 0b11#2 ∧ tagOf w = 0b11100#5 ∧ funct3Of w = 0b000#3
      ∧ funct12Of w = funct12 := by
  obtain ⟨h0, ht, -, h3, -, -, hf⟩ :=
    iType_fields funct12 0#5 0b000#3 0#5 0b1110011#7 0b11100#5 rfl
  exact ⟨(field_of_masked h rfl).trans h0, (field_of_masked h rfl).trans ht,
    (field_of_masked h rfl).trans h3, (field_of_masked h rfl).trans hf⟩

/-- Everything free but opcode and funct3. -/
theorem fence_fields {w : Word} {f3 : BitVec 3}
    (h : w &&& ~~~0xFFFF8F80#32 = iType 0#12 0#5 f3 0#5 0b0001111#7) :
    w.extractLsb' 0 2 = 0b11#2 ∧ tagOf w = 0b00011#5 ∧ funct3Of w = f3 := by
  obtain ⟨h0, ht, -, h3, -⟩ := iType_fields 0#12 0#5 f3 0#5 0b0001111#7 0b00011#5 rfl
  exact ⟨(field_of_masked h rfl).trans h0, (field_of_masked h rfl).trans ht,
    (field_of_masked h rfl).trans h3⟩

/-- An instruction's word decodes to it, whatever stands in the ignored bits. -/
theorem decodeWord_of_isWordOf {w : Word} {i : Instr} (h : IsWordOf w i) :
    decodeWord w = .ok i := by
  have ⟨hi, hm⟩ := h
  cases i with
  | lui rd imm =>
    obtain rfl := eq_encode_of_ignoredBits_zero rfl h
    simp [encode, decodeWord, decodeGroup, uType_fields imm rd 0b0110111#7 0b01101#5 rfl hi]
  | auipc rd imm =>
    obtain rfl := eq_encode_of_ignoredBits_zero rfl h
    simp [encode, decodeWord, decodeGroup, uType_fields imm rd 0b0010111#7 0b00101#5 rfl hi]
  | jal rd imm =>
    obtain rfl := eq_encode_of_ignoredBits_zero rfl h
    simp [encode, decodeWord, decodeGroup, jType_fields imm rd 0b1101111#7 0b11011#5 rfl hi]
  | jalr rd rs1 imm =>
    obtain rfl := eq_encode_of_ignoredBits_zero rfl h
    simp [encode, decodeWord, decodeGroup, decodeJalr,
      iType_fields imm rs1 _ rd 0b1100111#7 0b11001#5 rfl]
  | beq rs1 rs2 imm | bne rs1 rs2 imm | blt rs1 rs2 imm | bge rs1 rs2 imm | bltu rs1 rs2 imm
  | bgeu rs1 rs2 imm =>
    obtain rfl := eq_encode_of_ignoredBits_zero rfl h
    simp [encode, decodeWord, decodeGroup, decodeBranch,
      bType_fields imm rs2 rs1 _ 0b1100011#7 0b11000#5 rfl hi]
  | lb rd rs1 imm | lh rd rs1 imm | lw rd rs1 imm | lbu rd rs1 imm | lhu rd rs1 imm =>
    obtain rfl := eq_encode_of_ignoredBits_zero rfl h
    simp [encode, decodeWord, decodeGroup, decodeLoad,
      iType_fields imm rs1 _ rd 0b0000011#7 0b00000#5 rfl]
  | sb rs1 rs2 imm | sh rs1 rs2 imm | sw rs1 rs2 imm =>
    obtain rfl := eq_encode_of_ignoredBits_zero rfl h
    simp [encode, decodeWord, decodeGroup, decodeStore,
      sType_fields imm rs2 rs1 _ 0b0100011#7 0b01000#5 rfl]
  | addi rd rs1 imm | slti rd rs1 imm | sltiu rd rs1 imm | xori rd rs1 imm | ori rd rs1 imm
  | andi rd rs1 imm =>
    obtain rfl := eq_encode_of_ignoredBits_zero rfl h
    simp [encode, decodeWord, decodeGroup, decodeOpImm,
      iType_fields imm rs1 _ rd 0b0010011#7 0b00100#5 rfl]
  | slli rd rs1 shamt | srli rd rs1 shamt | srai rd rs1 shamt =>
    obtain rfl := eq_encode_of_ignoredBits_zero rfl h
    simp [encode, decodeWord, decodeGroup, decodeOpImm,
      rType_fields _ shamt rs1 _ rd 0b0010011#7 0b00100#5 rfl]
  | add rd rs1 rs2 | sub rd rs1 rs2 | sll rd rs1 rs2 | slt rd rs1 rs2 | sltu rd rs1 rs2
  | xor rd rs1 rs2 | srl rd rs1 rs2 | sra rd rs1 rs2 | or rd rs1 rs2 | and rd rs1 rs2
  | mul rd rs1 rs2 | mulh rd rs1 rs2 | mulhsu rd rs1 rs2 | mulhu rd rs1 rs2 | div rd rs1 rs2
  | divu rd rs1 rs2 | rem rd rs1 rs2 | remu rd rs1 rs2 =>
    obtain rfl := eq_encode_of_ignoredBits_zero rfl h
    simp [encode, decodeWord, decodeGroup, decodeOp,
      rType_fields _ rs2 rs1 _ rd 0b0110011#7 0b01100#5 rfl]
  | fence | fenceI => simp [decodeWord, decodeGroup, decodeMiscMem, fence_fields hm]
  | scall | sbreak | eret => simp [decodeWord, decodeGroup, decodeSystem, system_fields hm]
  | csrrw rd rs1 csr | csrrs rd rs1 csr | csrrc rd rs1 csr | csrrwi rd rs1 csr | csrrsi rd rs1 csr
  | csrrci rd rs1 csr =>
    obtain rfl := eq_encode_of_ignoredBits_zero rfl h
    simp [encode, decodeWord, decodeGroup, decodeSystem,
      iType_fields csr rs1 _ rd 0b1110011#7 0b11100#5 rfl]
  | lrW rd rs1 => simp [decodeWord, decodeGroup, decodeAmo, lrW_fields hm]
  | scW rd rs1 rs2 | amoswapW rd rs1 rs2 | amoaddW rd rs1 rs2 | amoxorW rd rs1 rs2
  | amoandW rd rs1 rs2 | amoorW rd rs1 rs2 | amominW rd rs1 rs2 | amomaxW rd rs1 rs2
  | amominuW rd rs1 rs2 | amomaxuW rd rs1 rs2 =>
    simp [decodeWord, decodeGroup, decodeAmo, amo_fields hm]

/-! ## From the decoder to the instruction: a word put together from its fields -/

section Formats
variable {w : Word} {f3 : BitVec 3} {op : BitVec 7}

theorem rType_of_fields {f7 : BitVec 7} (h7 : funct7Of w = f7) (h3 : funct3Of w = f3)
    (hop : w.extractLsb' 0 7 = op) : rType f7 (rs2Of w) (rs1Of w) f3 (rdOf w) op = w := by
  subst h7 h3 hop
  unfold rType funct7Of rs2Of rs1Of funct3Of rdOf
  iterate 5 rw [BitVec.extractLsb'_append_extractLsb'_eq_extractLsb' (by decide)]
  exact extract_all w

theorem iType_of_fields {f12 : BitVec 12} (hf : funct12Of w = f12) (h3 : funct3Of w = f3)
    (hop : w.extractLsb' 0 7 = op) : iType f12 (rs1Of w) f3 (rdOf w) op = w := by
  subst hf h3 hop
  unfold iType funct12Of rs1Of funct3Of rdOf
  iterate 4 rw [BitVec.extractLsb'_append_extractLsb'_eq_extractLsb' (by decide)]
  exact extract_all w

theorem sType_of_fields (h3 : funct3Of w = f3) (hop : w.extractLsb' 0 7 = op) :
    sType (immSOf w) (rs2Of w) (rs1Of w) f3 op = w := by
  rw [sType_eq_rType, immSOf_eq, extract_append_high _ _ 5 7 (by decide),
    extract_append_low _ _ 0 5 (by decide), extract_all, extract_all]
  exact rType_of_fields rfl h3 hop

theorem bType_of_fields (h3 : funct3Of w = f3) (hop : w.extractLsb' 0 7 = op) :
    bType (immBOf w) (rs2Of w) (rs1Of w) f3 op = w := by
  rw [bType_eq_rType, immBOf_eq]
  simp (disch := decide) only [extract_append_high, extract_append_low, Nat.reduceSub, extract_all]
  iterate 2 rw [BitVec.extractLsb'_append_extractLsb'_eq_extractLsb' (by decide)]
  rw [extract_all, extract_all]
  exact rType_of_fields rfl h3 hop

theorem upperField_append (hop : w.extractLsb' 0 7 = op) : upperField w ++ rdOf w ++ op = w := by
  subst hop
  unfold upperField rdOf
  iterate 2 rw [BitVec.extractLsb'_append_extractLsb'_eq_extractLsb' (by decide)]
  exact extract_all w

theorem uType_of_fields (hop : w.extractLsb' 0 7 = op) : uType (immUOf w) (rdOf w) op = w := by
  rw [uType, immUOf, extract_append_high _ _ 12 20 (by decide), extract_all]
  exact upperField_append hop

theorem jType_of_fields (hop : w.extractLsb' 0 7 = op) : jType (immJOf w) (rdOf w) op = w := by
  rw [jType, immJOf_eq]
  simp (disch := decide) only [extract_append_high, extract_append_low, Nat.reduceSub, extract_all]
  iterate 3 rw [BitVec.extractLsb'_append_extractLsb'_eq_extractLsb' (by decide)]
  rw [extract_all]
  exact upperField_append hop

theorem upperImmediateOk_immUOf (w : Word) : upperImmediateOk (immUOf w) = true := by
  rw [upperImmediateOk, immUOf, extract_append_low _ _ 0 12 (by decide)]
  rfl

theorem branchOffsetOk_immBOf (w : Word) : branchOffsetOk (immBOf w) = true := by
  rw [branchOffsetOk, immBOf, extract_append_low _ _ 0 1 (by decide)]
  rfl

theorem jumpOffsetOk_immJOf (w : Word) : jumpOffsetOk (immJOf w) = true := by
  rw [jumpOffsetOk, immJOf, extract_append_low _ _ 0 1 (by decide)]
  rfl

/-! ## The ignored bits cleared -/

theorem rType_and (f7 m7 : BitVec 7) (rs2 m2 rs1 m1 : Reg) (m3 : BitVec 3) (rd md : Reg)
    (mop : BitVec 7) :
    rType f7 rs2 rs1 f3 rd op &&& rType m7 m2 m1 m3 md mop
      = rType (f7 &&& m7) (rs2 &&& m2) (rs1 &&& m1) (f3 &&& m3) (rd &&& md) (op &&& mop) :=
  cat_and_cat (cat_and_cat (cat_and_cat (cat_and_cat (cat_and_cat rfl rfl) rfl) rfl) rfl) rfl

theorem iType_and (f12 m12 : BitVec 12) (rs1 m1 : Reg) (m3 : BitVec 3) (rd md : Reg)
    (mop : BitVec 7) :
    iType f12 rs1 f3 rd op &&& iType m12 m1 m3 md mop
      = iType (f12 &&& m12) (rs1 &&& m1) (f3 &&& m3) (rd &&& md) (op &&& mop) :=
  cat_and_cat (cat_and_cat (cat_and_cat (cat_and_cat rfl rfl) rfl) rfl) rfl

/-- funct7 with aq and rl cleared (R545). -/
theorem aqrl_and (f5 : BitVec 5) (aqrl : BitVec 2) :
    (f5 ++ aqrl) &&& 0b1111100#7 = f5 ++ 0b00#2 :=
  cat_and_cat (m := BitVec.allOnes 5) (n := 0#2) BitVec.and_allOnes BitVec.and_zero

theorem funct7Of_and (w : Word) : funct7Of w &&& 0b1111100#7 = funct5Of w ++ 0b00#2 := by
  have h : funct7Of w = funct5Of w ++ w.extractLsb' 25 2 := by
    rw [funct5Of, BitVec.extractLsb'_append_extractLsb'_eq_extractLsb' (by decide), funct7Of]
  rw [h, aqrl_and]

/-- The bits of an AMO's word that have an effect: all but aq and rl. -/
theorem amoMask_eq : ~~~0x06000000#32 = rType 0b1111100#7 (BitVec.allOnes 5) (BitVec.allOnes 5)
    (BitVec.allOnes 3) (BitVec.allOnes 5) (BitVec.allOnes 7) := rfl

/-- The bits of LR.W's word that have an effect: all but aq, rl and rs2. -/
theorem lrMask_eq : ~~~0x07F00000#32 = rType 0b1111100#7 0#5 (BitVec.allOnes 5)
    (BitVec.allOnes 3) (BitVec.allOnes 5) (BitVec.allOnes 7) := rfl

theorem amoType_and_amoMask (f5 : BitVec 5) (rs2 rs1 rd : Reg) :
    amoType f5 rs2 rs1 rd &&& ~~~0x06000000#32 = amoType f5 rs2 rs1 rd := by
  rw [amoMask_eq, amoType, rType_and, aqrl_and]
  simp only [BitVec.and_allOnes]

theorem amoType_and_lrMask (f5 : BitVec 5) (rs1 rd : Reg) :
    amoType f5 0#5 rs1 rd &&& ~~~0x07F00000#32 = amoType f5 0#5 rs1 rd := by
  rw [lrMask_eq, amoType, rType_and, aqrl_and]
  simp only [BitVec.and_allOnes, BitVec.and_zero]

theorem amoType_of_fields {f5 : BitVec 5} (h5 : funct5Of w = f5) (h3 : funct3Of w = 0b010#3)
    (hop : w.extractLsb' 0 7 = 0b0101111#7) :
    w &&& ~~~0x06000000#32 = amoType f5 (rs2Of w) (rs1Of w) (rdOf w) := by
  conv_lhs => rw [← rType_of_fields rfl h3 hop, amoMask_eq, rType_and, funct7Of_and, h5]
  simp only [BitVec.and_allOnes, amoType]

theorem lrW_of_fields (h5 : funct5Of w = 0b00010#5) (h3 : funct3Of w = 0b010#3)
    (hop : w.extractLsb' 0 7 = 0b0101111#7) :
    w &&& ~~~0x07F00000#32 = amoType 0b00010#5 0#5 (rs1Of w) (rdOf w) := by
  conv_lhs => rw [← rType_of_fields rfl h3 hop, lrMask_eq, rType_and, funct7Of_and, h5]
  simp only [BitVec.and_allOnes, BitVec.and_zero, amoType]

theorem system_of_fields {f12 : BitVec 12} (hf : funct12Of w = f12)
    (h3 : funct3Of w = f3) (hop : w.extractLsb' 0 7 = op) :
    w &&& ~~~0x000F8F80#32 = iType f12 0#5 f3 0#5 op := by
  have hm : ~~~0x000F8F80#32 = iType (BitVec.allOnes 12) 0#5 (BitVec.allOnes 3) 0#5
    (BitVec.allOnes 7) := rfl
  conv_lhs => rw [← iType_of_fields hf h3 hop, hm, iType_and]
  simp only [BitVec.and_allOnes, BitVec.and_zero]

theorem fence_of_fields (h3 : funct3Of w = f3) (hop : w.extractLsb' 0 7 = op) :
    w &&& ~~~0xFFFF8F80#32 = iType 0#12 0#5 f3 0#5 op := by
  conv_lhs => rw [← iType_of_fields rfl h3 hop]
  exact iType_fixed _ _ _ _ _

end Formats

/-! ## The decoder's groups -/

section Groups
variable {w : Word} {i : Instr}

theorem isWordOf_of_decodeLoad (hop : w.extractLsb' 0 7 = 0b0000011#7) (h : decodeLoad w = .ok i) :
    IsWordOf w i := by
  unfold decodeLoad at h
  split at h <;> cases h
  all_goals exact isWordOf_of_eq rfl rfl (iType_of_fields rfl ‹_› hop)

theorem isWordOf_of_decodeStore (hop : w.extractLsb' 0 7 = 0b0100011#7)
    (h : decodeStore w = .ok i) : IsWordOf w i := by
  unfold decodeStore at h
  split at h <;> cases h
  all_goals exact isWordOf_of_eq rfl rfl (sType_of_fields ‹_› hop)

theorem isWordOf_of_decodeMiscMem (hop : w.extractLsb' 0 7 = 0b0001111#7)
    (h : decodeMiscMem w = .ok i) : IsWordOf w i := by
  unfold decodeMiscMem at h
  split at h <;> cases h
  all_goals exact ⟨rfl, fence_of_fields ‹_› hop⟩

/-- The values of funct3, for the decoder's last cases. -/
theorem funct3_cases (f : BitVec 3) : f = 0b000#3 ∨ f = 0b001#3 ∨ f = 0b010#3 ∨ f = 0b011#3
    ∨ f = 0b100#3 ∨ f = 0b101#3 ∨ f = 0b110#3 ∨ f = 0b111#3 := by
  revert f
  decide

theorem isWordOf_of_decodeOpImm (hop : w.extractLsb' 0 7 = 0b0010011#7)
    (h : decodeOpImm w = .ok i) : IsWordOf w i := by
  unfold decodeOpImm at h
  split at h
  case h_7 h3 =>
    split at h <;> cases h
    exact isWordOf_of_eq rfl rfl (rType_of_fields ‹_› h3 hop)
  case h_8 =>
    have h3 : funct3Of w = 0b101#3 := by
      have := funct3_cases (funct3Of w)
      tauto
    split at h <;> cases h
    all_goals exact isWordOf_of_eq rfl rfl (rType_of_fields ‹_› h3 hop)
  all_goals
    cases h
    exact isWordOf_of_eq rfl rfl (iType_of_fields rfl ‹_› hop)

theorem isWordOf_of_decodeOp (hop : w.extractLsb' 0 7 = 0b0110011#7) (h : decodeOp w = .ok i) :
    IsWordOf w i := by
  unfold decodeOp at h
  split at h
  case h_1 h7 | h_3 h7 =>
    split at h <;> cases h
    case h_8 =>
      have h3 : funct3Of w = 0b111#3 := by
        have := funct3_cases (funct3Of w)
        tauto
      exact isWordOf_of_eq rfl rfl (rType_of_fields h7 h3 hop)
    all_goals exact isWordOf_of_eq rfl rfl (rType_of_fields h7 ‹_› hop)
  case h_2 h7 =>
    split at h <;> cases h
    all_goals exact isWordOf_of_eq rfl rfl (rType_of_fields h7 ‹_› hop)
  case h_4 => cases h

theorem isWordOf_of_decodeBranch (hop : w.extractLsb' 0 7 = 0b1100011#7)
    (h : decodeBranch w = .ok i) : IsWordOf w i := by
  unfold decodeBranch at h
  split at h <;> cases h
  all_goals exact isWordOf_of_eq (branchOffsetOk_immBOf w) rfl (bType_of_fields ‹_› hop)

theorem isWordOf_of_decodeJalr (hop : w.extractLsb' 0 7 = 0b1100111#7) (h : decodeJalr w = .ok i) :
    IsWordOf w i := by
  unfold decodeJalr at h
  split at h <;> cases h
  exact isWordOf_of_eq rfl rfl (iType_of_fields rfl ‹_› hop)

theorem isWordOf_of_decodeAmo (hop : w.extractLsb' 0 7 = 0b0101111#7) (h : decodeAmo w = .ok i) :
    IsWordOf w i := by
  unfold decodeAmo at h
  split at h
  next h3 =>
    split at h <;> cases h
    case h_1 h5 => exact ⟨rfl, lrW_of_fields h5 h3 hop⟩
    all_goals exact ⟨rfl, amoType_of_fields ‹_› h3 hop⟩
  next => cases h

theorem isWordOf_of_decodeSystem (hop : w.extractLsb' 0 7 = 0b1110011#7)
    (h : decodeSystem w = .ok i) : IsWordOf w i := by
  unfold decodeSystem at h
  split at h
  case h_1 h3 =>
    split at h <;> cases h
    all_goals exact ⟨rfl, system_of_fields ‹_› h3 hop⟩
  case h_8 => cases h
  all_goals
    cases h
    exact isWordOf_of_eq rfl rfl (iType_of_fields rfl ‹_› hop)

theorem opcode_eq {tag : BitVec 5} (h0 : w.extractLsb' 0 2 = 0b11#2) (ht : tagOf w = tag) :
    w.extractLsb' 0 7 = tag ++ 0b11#2 := by
  rw [← h0, ← ht, tagOf, BitVec.extractLsb'_append_extractLsb'_eq_extractLsb' (by decide)]

/-- A word that decodes is the instruction's word. -/
theorem isWordOf_of_decodeWord (h : decodeWord w = .ok i) : IsWordOf w i := by
  unfold decodeWord at h
  split at h
  next h0 =>
    unfold decodeGroup at h
    split at h
    next ht => exact isWordOf_of_decodeLoad (opcode_eq h0 ht) h
    next ht => exact isWordOf_of_decodeMiscMem (opcode_eq h0 ht) h
    next ht => exact isWordOf_of_decodeOpImm (opcode_eq h0 ht) h
    next ht =>
      cases h
      exact isWordOf_of_eq (upperImmediateOk_immUOf w) rfl (uType_of_fields (opcode_eq h0 ht))
    next ht => exact isWordOf_of_decodeStore (opcode_eq h0 ht) h
    next ht => exact isWordOf_of_decodeAmo (opcode_eq h0 ht) h
    next ht => exact isWordOf_of_decodeOp (opcode_eq h0 ht) h
    next ht =>
      cases h
      exact isWordOf_of_eq (upperImmediateOk_immUOf w) rfl (uType_of_fields (opcode_eq h0 ht))
    next ht => exact isWordOf_of_decodeBranch (opcode_eq h0 ht) h
    next ht => exact isWordOf_of_decodeJalr (opcode_eq h0 ht) h
    next ht =>
      cases h
      exact isWordOf_of_eq (jumpOffsetOk_immJOf w) rfl (jType_of_fields (opcode_eq h0 ht))
    next ht => exact isWordOf_of_decodeSystem (opcode_eq h0 ht) h
    next => cases h
  next => cases h

end Groups

theorem decodeWord_eq_ok_iff {w : Word} {i : Instr} : decodeWord w = .ok i ↔ IsWordOf w i :=
  ⟨isWordOf_of_decodeWord, decodeWord_of_isWordOf⟩

/-! ## The two round trips -/

/-- The encoder writes 0 in every ignored bit (R332). -/
theorem encode_and_not_ignoredBits (i : Instr) : encode i &&& ~~~(ignoredBits i) = encode i := by
  cases i with
  | fence | fenceI | scall | sbreak | eret => rfl
  | lrW rd rs1 => exact amoType_and_lrMask _ _ _
  | scW rd rs1 rs2 | amoswapW rd rs1 rs2 | amoaddW rd rs1 rs2 | amoxorW rd rs1 rs2
  | amoandW rd rs1 rs2 | amoorW rd rs1 rs2 | amominW rd rs1 rs2 | amomaxW rd rs1 rs2
  | amominuW rd rs1 rs2 | amomaxuW rd rs1 rs2 =>
    exact amoType_and_amoMask _ _ _ _
  | _ => exact and_not_of_zero rfl

theorem isWordOf_encode {i : Instr} (hi : i.wellFormed = true) : IsWordOf (encode i) i :=
  ⟨hi, encode_and_not_ignoredBits i⟩

/-- Settles O1: an instruction's word is its word, and its bytes are its word's. -/
theorem decodeOfEncode : Obligations.DecodeOfEncode := by
  unfold Obligations.DecodeOfEncode
  intro i rest hi
  have hw : decodeWord (encode i) = .ok i := decodeWord_eq_ok_iff.2 (isWordOf_encode hi)
  refine ⟨hw, ?_⟩
  rw [encodeBytes, decode_leBytes, hw]

/-- Settles O2: a word that decodes is the instruction's word, and so is every word that differs from
it in ignored bits only. -/
theorem decodeReadsEveryBit : Obligations.DecodeReadsEveryBit := by
  unfold Obligations.DecodeReadsEveryBit
  intro w i h
  obtain ⟨hi, hm⟩ := decodeWord_eq_ok_iff.1 h
  exact ⟨hi, hm.symm, fun v hv => decodeWord_eq_ok_iff.2 ⟨hi, hv.trans hm⟩⟩

/-- Settles O3: the decoder is run on each of the seven words. -/
theorem manualWordsDecode : Obligations.ManualWordsDecode := by
  unfold Obligations.ManualWordsDecode
  exact ⟨rfl, rfl, rfl, rfl, rfl, rfl, rfl⟩

end Sys2Proof
end

