-- ==== Sys2Proof/Proofs/EncodingIllegal.lean ====
section
/-! PROOF. Which words are instructions: for each group of the decoder the values of its fields that
it accepts; together they are the words that are no illegal encoding (R330). -/

namespace Sys2Proof.Machine

/-- The decoder answers with an instruction. -/
def Accepted (r : Except Reject Instr) : Prop := ∃ i, r = .ok i

@[simp] theorem accepted_ok (i : Instr) : Accepted (.ok i) := ⟨i, rfl⟩

@[simp] theorem not_accepted_error (r : Reject) : ¬ Accepted (.error r) := nofun

/-! ## Group by group (R323) -/

theorem accepted_decodeLoad (w : Word) :
    Accepted (decodeLoad w) ↔ funct3Of w ∉ [0b011#3, 0b110#3, 0b111#3] := by
  have hall := funct3_cases (funct3Of w)
  unfold decodeLoad
  split <;> simp_all [or_iff_not_imp_left]

theorem accepted_decodeStore (w : Word) :
    Accepted (decodeStore w) ↔ funct3Of w ∈ [0b000#3, 0b001#3, 0b010#3] := by
  unfold decodeStore
  split <;> simp_all

theorem accepted_decodeMiscMem (w : Word) :
    Accepted (decodeMiscMem w) ↔ funct3Of w ∈ [0b000#3, 0b001#3] := by
  unfold decodeMiscMem
  split <;> simp_all

theorem accepted_decodeOpImm (w : Word) :
    Accepted (decodeOpImm w) ↔ (funct3Of w = 0b001#3 → funct7Of w = 0b0000000#7)
      ∧ (funct3Of w = 0b101#3 → funct7Of w ∈ [0b0000000#7, 0b0100000#7]) := by
  have hall := funct3_cases (funct3Of w)
  unfold decodeOpImm
  split
  case h_7 | h_8 => split <;> simp_all
  all_goals simp_all

theorem accepted_decodeOp (w : Word) :
    Accepted (decodeOp w) ↔ funct7Of w ∈ [0b0000000#7, 0b0000001#7, 0b0100000#7]
      ∧ (funct7Of w = 0b0100000#7 → funct3Of w ∈ [0b000#3, 0b101#3]) := by
  unfold decodeOp
  split
  case h_4 => simp_all
  all_goals split <;> simp_all

theorem accepted_decodeBranch (w : Word) :
    Accepted (decodeBranch w) ↔ funct3Of w ∉ [0b010#3, 0b011#3] := by
  have hall := funct3_cases (funct3Of w)
  unfold decodeBranch
  split <;> simp_all [or_iff_not_imp_left]

theorem accepted_decodeJalr (w : Word) : Accepted (decodeJalr w) ↔ funct3Of w = 0b000#3 := by
  unfold decodeJalr
  split <;> simp_all

theorem accepted_decodeAmo (w : Word) :
    Accepted (decodeAmo w) ↔ funct3Of w = 0b010#3
      ∧ funct5Of w ∈ [0b00010#5, 0b00011#5, 0b00001#5, 0b00000#5, 0b00100#5, 0b01100#5, 0b01000#5,
        0b10000#5, 0b10100#5, 0b11000#5, 0b11100#5] := by
  unfold decodeAmo
  split
  case h_1 => split <;> simp_all
  case h_2 => simp_all

theorem accepted_decodeSystem (w : Word) :
    Accepted (decodeSystem w) ↔ funct3Of w ≠ 0b100#3
      ∧ (funct3Of w = 0b000#3 → funct12Of w ∈ [0x000#12, 0x001#12, 0x100#12]) := by
  have hall := funct3_cases (funct3Of w)
  unfold decodeSystem
  split
  case h_1 => split <;> simp_all
  all_goals simp_all

/-! ## The whole decoder -/

/-- A tag is one of the twelve groups' (R321) or one of the twenty others (R322). -/
theorem mem_groupTags_or_mem_otherTags (t : BitVec 5) :
    t ∈ [0b00000#5, 0b00011#5, 0b00100#5, 0b00101#5, 0b01000#5, 0b01011#5, 0b01100#5, 0b01101#5,
        0b11000#5, 0b11001#5, 0b11011#5, 0b11100#5]
      ∨ t ∈ [0b00001#5, 0b00010#5, 0b00110#5, 0b00111#5, 0b01001#5, 0b01010#5, 0b01110#5, 0b01111#5,
        0b10000#5, 0b10001#5, 0b10010#5, 0b10011#5, 0b10100#5, 0b10101#5, 0b10110#5, 0b10111#5,
        0b11010#5, 0b11101#5, 0b11110#5, 0b11111#5] := by
  revert t
  decide

/-- Under a group's tag only the group's own clauses of R330 are left, and they are the complement
of what it accepts. -/
theorem accepted_decodeWord (w : Word) : Accepted (decodeWord w) ↔ ¬ IllegalEncoding w := by
  unfold decodeWord
  split
  next h0 =>
    unfold decodeGroup
    split
    case h_13 =>
      have hother := (mem_groupTags_or_mem_otherTags (tagOf w)).resolve_left (by simp_all)
      exact iff_of_false (not_accepted_error _) (not_not.2 (.inr (.inl hother)))
    all_goals
      rename_i ht
      simp [IllegalEncoding, h0, ht, or_iff_not_imp_left, accepted_decodeLoad,
        accepted_decodeMiscMem, accepted_decodeOpImm, accepted_decodeStore, accepted_decodeAmo,
        accepted_decodeOp, accepted_decodeBranch, accepted_decodeJalr, accepted_decodeSystem]
  next h0 => exact iff_of_false (not_accepted_error _) (not_not.2 (.inl h0))

/-! ## The trap (R333) -/

theorem traps_of_not_accepted {w : Word} (h : ¬ Accepted (decodeWord w)) (s : State) :
    Traps (executeWord w s) 2#32 s := by
  cases hd : decodeWord w with
  | ok i => exact absurd ⟨i, hd⟩ h
  | error r =>
    exact ⟨_, by rw [executeWord, hd], raiseTrap_reg s _, trapTaken_raiseTrap s .illegalInstruction⟩

/-- Settles O5: the words accepted are those that are no illegal encoding, and what is not accepted
traps. -/
theorem illegalEncodingsTrap : Obligations.IllegalEncodingsTrap := by
  unfold Obligations.IllegalEncodingsTrap
  intro w s
  have hiff := accepted_decodeWord w
  exact ⟨hiff, fun hw => traps_of_not_accepted (fun ha => hiff.1 ha hw) s⟩

/-- Settles O4: its words are the first two clauses of the illegal encodings. -/
theorem unsupportedOpcodesTrap : Obligations.UnsupportedOpcodesTrap := by
  unfold Obligations.UnsupportedOpcodesTrap
  intro w s h
  have hw : IllegalEncoding w := h.imp_right .inl
  exact (illegalEncodingsTrap w s).2 hw

end Sys2Proof.Machine
end

