-- ==== Sys2Proof/Proofs/EncodingImmediates.lean ====
section
/-! PROOF. The immediates as numbers (R310 to R314): each raw field as a number of the word's, its
sign bit, and which immediate each group of the decoder gives its instructions. -/

namespace Sys2Proof.Machine

/-- The sign of an immediate: bit 31 of the word (R310 to R314). -/
def signOf (w : Word) : Int := if w.getLsbD 31 then 1 else 0

/-- A field whose top bit is the word's is its number less the sign. -/
theorem toInt_of_msb {w : Word} {n : Nat} {x : BitVec n} (h : x.msb = w.getLsbD 31) :
    x.toInt = x.toNat - signOf w * 2 ^ n := by
  rw [BitVec.toInt_eq_msb_cond, h, signOf]
  split <;> simp

theorem msb_immIOf (w : Word) : (immIOf w).msb = w.getLsbD 31 := by
  simp [immIOf, funct12Of, BitVec.msb_eq_getLsbD_last]

theorem msb_immSOf (w : Word) : (immSOf w).msb = w.getLsbD 31 := by
  simp only [immSOf, BitVec.msb_eq_getLsbD_last, BitVec.getLsbD_append]
  simp

theorem msb_immBOf (w : Word) : (immBOf w).msb = w.getLsbD 31 := by
  simp only [immBOf, BitVec.msb_eq_getLsbD_last, BitVec.getLsbD_append]
  simp

theorem msb_immJOf (w : Word) : (immJOf w).msb = w.getLsbD 31 := by
  simp only [immJOf, BitVec.msb_eq_getLsbD_last, BitVec.getLsbD_append]
  simp

theorem toInt_immIOf (w : Word) :
    (immIOf w).toInt = (w.toNat : Int) / 2 ^ 20 - signOf w * 2 ^ 12 := by
  have hw := w.isLt
  have hn : (immIOf w).toNat = w.toNat / 2 ^ 20 := by
    rw [immIOf, funct12Of, toNat_extract]
    omega
  rw [toInt_of_msb (msb_immIOf w), hn]
  norm_cast

theorem toInt_immSOf (w : Word) :
    (immSOf w).toInt = (w.toNat : Int) / 2 ^ 25 * 2 ^ 5 + w.toNat / 2 ^ 7 % 2 ^ 5
      - signOf w * 2 ^ 12 := by
  have hw := w.isLt
  have hn : (immSOf w).toNat = w.toNat / 2 ^ 25 * 2 ^ 5 + w.toNat / 2 ^ 7 % 2 ^ 5 := by
    rw [immSOf, toNat_append_eq, toNat_extract, toNat_extract]
    omega
  rw [toInt_of_msb (msb_immSOf w), hn]
  norm_cast

theorem toInt_immBOf (w : Word) :
    (immBOf w).toInt = (w.toNat : Int) / 2 ^ 31 * 2 ^ 12 + w.toNat / 2 ^ 7 % 2 * 2 ^ 11
      + w.toNat / 2 ^ 25 % 2 ^ 6 * 2 ^ 5 + w.toNat / 2 ^ 8 % 2 ^ 4 * 2 - signOf w * 2 ^ 13 := by
  have hw := w.isLt
  have hn : (immBOf w).toNat = w.toNat / 2 ^ 31 * 2 ^ 12 + w.toNat / 2 ^ 7 % 2 * 2 ^ 11
      + w.toNat / 2 ^ 25 % 2 ^ 6 * 2 ^ 5 + w.toNat / 2 ^ 8 % 2 ^ 4 * 2 := by
    simp only [immBOf, toNat_append_eq, toNat_extract, BitVec.toNat_ofNat, Nat.reducePow,
      Nat.reduceMod]
    omega
  rw [toInt_of_msb (msb_immBOf w), hn]
  norm_cast

theorem toInt_immJOf (w : Word) :
    (immJOf w).toInt = (w.toNat : Int) / 2 ^ 31 * 2 ^ 20 + w.toNat / 2 ^ 12 % 2 ^ 8 * 2 ^ 12
      + w.toNat / 2 ^ 20 % 2 * 2 ^ 11 + w.toNat / 2 ^ 21 % 2 ^ 10 * 2 - signOf w * 2 ^ 21 := by
  have hw := w.isLt
  have hn : (immJOf w).toNat = w.toNat / 2 ^ 31 * 2 ^ 20 + w.toNat / 2 ^ 12 % 2 ^ 8 * 2 ^ 12
      + w.toNat / 2 ^ 20 % 2 * 2 ^ 11 + w.toNat / 2 ^ 21 % 2 ^ 10 * 2 := by
    simp only [immJOf, toNat_append_eq, toNat_extract, BitVec.toNat_ofNat, Nat.reducePow,
      Nat.reduceMod]
    omega
  rw [toInt_of_msb (msb_immJOf w), hn]
  norm_cast

theorem toNat_immUOf (w : Word) : ((immUOf w).toNat : Int) = (w.toNat : Int) / 2 ^ 12 * 2 ^ 12 := by
  have hw := w.isLt
  have hn : (immUOf w).toNat = w.toNat / 2 ^ 12 * 2 ^ 12 := by
    rw [immUOf, toNat_append_eq, toNat_extract, BitVec.toNat_ofNat]
    omega
  rw [hn]
  norm_cast

/-! ## Which immediate an instruction carries -/

section Groups
variable {w : Word} {i : Instr}

theorem immediateValue_of_decodeLoad (h : decodeLoad w = .ok i) :
    immediateValue i = some (immIOf w).toInt := by
  unfold decodeLoad at h
  split at h <;> cases h <;> rfl

theorem immediateValue_of_decodeJalr (h : decodeJalr w = .ok i) :
    immediateValue i = some (immIOf w).toInt := by
  unfold decodeJalr at h
  split at h <;> cases h
  rfl

theorem immediateValue_of_decodeOpImm (h : decodeOpImm w = .ok i) (h1 : funct3Of w ≠ 0b001#3)
    (h5 : funct3Of w ≠ 0b101#3) : immediateValue i = some (immIOf w).toInt := by
  have hall := funct3_cases (funct3Of w)
  unfold decodeOpImm at h
  split at h
  case h_7 | h_8 => simp_all
  all_goals
    cases h
    rfl

theorem immediateValue_of_decodeStore (h : decodeStore w = .ok i) :
    immediateValue i = some (immSOf w).toInt := by
  unfold decodeStore at h
  split at h <;> cases h <;> rfl

theorem immediateValue_of_decodeBranch (h : decodeBranch w = .ok i) :
    immediateValue i = some (immBOf w).toInt := by
  unfold decodeBranch at h
  split at h <;> cases h <;> rfl

theorem decodeGroup_of_decodeWord (h : decodeWord w = .ok i) : decodeGroup w = .ok i := by
  unfold decodeWord at h
  split at h
  · exact h
  · cases h

end Groups

/-- Settles O6: the tag names the group, the group the form, and each form is its number. -/
theorem immediatesOfWords : Obligations.ImmediatesOfWords := by
  unfold Obligations.ImmediatesOfWords
  intro w i h
  have hg := decodeGroup_of_decodeWord h
  unfold decodeGroup at hg
  refine ⟨?_, fun ht => ?_, fun ht => ?_, fun ht => ?_, ?_⟩
  · rintro (ht | ht | ⟨ht, h1, h5⟩) <;> rw [ht] at hg
    · exact (immediateValue_of_decodeLoad hg).trans (congrArg some (toInt_immIOf w))
    · exact (immediateValue_of_decodeJalr hg).trans (congrArg some (toInt_immIOf w))
    · exact (immediateValue_of_decodeOpImm hg h1 h5).trans (congrArg some (toInt_immIOf w))
  · rw [ht] at hg
    exact (immediateValue_of_decodeStore hg).trans (congrArg some (toInt_immSOf w))
  · rw [ht] at hg
    exact (immediateValue_of_decodeBranch hg).trans (congrArg some (toInt_immBOf w))
  · rw [ht] at hg
    cases hg
    exact congrArg some (toInt_immJOf w)
  · rintro (ht | ht) <;> rw [ht] at hg <;> cases hg
    all_goals exact congrArg some (toNat_immUOf w)

end Sys2Proof.Machine
end

