-- ==== Sys2Proof/Proofs/EncodingPseudo.lean ====
section
/-! PROOF. The pseudo-instructions (R341): straight-line execution one instruction at a time, and the
two parts of a split value put together again. -/

namespace Sys2Proof.Machine

/-! ## Straight-line execution -/

theorem execList_cons {i : Instr} {s t : State} (is : List Instr)
    (h : exec i s.startStep = .next t) : execList (i :: is) s = execList is t.commit := by
  simp only [execList, h, commitOutcome]

/-- What an instruction leaves that only writes a register: v in rd, pc at the next instruction. -/
def State.wroteReg (s : State) (rd : Reg) (v : Word) : State := (s.startStep.setReg rd v).commit

section WroteReg
variable (s : State) {rd : Reg} (v : Word)

theorem wroteReg_reg_same (h : rd ≠ 0#5) : (s.wroteReg rd v).reg rd = v := by
  rw [State.wroteReg, commit_reg, reg_setReg_same _ _ _ h]

theorem wroteReg_sameRegsBut : SameRegsBut rd s (s.wroteReg rd v) := by
  intro r hr
  rw [State.wroteReg, commit_reg, reg_setReg_ne _ _ _ _ hr, startStep_reg]

theorem wroteReg_sameMemory : SameMemory s (s.wroteReg rd v) := by
  simp [SameMemory, State.wroteReg]

theorem wroteReg_pc : (s.wroteReg rd v).pc = s.pc + 4#32 := by
  simp [State.wroteReg]

end WroteReg

theorem SameRegsBut.trans {rd : Reg} {s t u : State} (h : SameRegsBut rd s t)
    (k : SameRegsBut rd t u) : SameRegsBut rd s u := fun r hr => (k r hr).trans (h r hr)

theorem SameMemory.trans {s t u : State} (h : SameMemory s t) (k : SameMemory t u) :
    SameMemory s u := ⟨fun a => (k.1 a).trans (h.1 a), k.2.trans h.2⟩

theorem execList_lui (rd : Reg) (imm : Word) (is : List Instr) (s : State) :
    execList (.lui rd imm :: is) s = execList is (s.wroteReg rd imm) :=
  execList_cons is rfl

theorem execList_auipc (rd : Reg) (imm : Word) (is : List Instr) (s : State) :
    execList (.auipc rd imm :: is) s = execList is (s.wroteReg rd (s.pc + imm)) :=
  execList_cons is rfl

theorem execList_addi (rd rs1 : Reg) (imm : BitVec 12) (is : List Instr) (s : State) :
    execList (.addi rd rs1 imm :: is) s
      = execList is (s.wroteReg rd (s.reg rs1 + imm.signExtend 32)) :=
  execList_cons is rfl

theorem execList_jalr (rd rs1 : Reg) (imm : BitVec 12) (is : List Instr) (s : State) :
    execList (.jalr rd rs1 imm :: is) s
      = execList is ((s.startStep.setNextPc (s.jalrTarget rs1 imm)).setReg rd s.link).commit :=
  execList_cons is rfl

/-- ADDI from the register just written to itself: the second half of `li` and `la`. -/
theorem execList_addi_wroteReg {s : State} {rd : Reg} {u v : Word} {imm : BitVec 12} (h : rd ≠ 0#5)
    (hv : u + imm.signExtend 32 = v) :
    ∃ t, execList [.addi rd rd imm] (s.wroteReg rd u) = .next t ∧ t.reg rd = v ∧ SameRegsBut rd s t
      ∧ SameMemory s t ∧ t.pc = s.pc + 8#32 := by
  refine ⟨_, execList_addi _ _ _ _ _, ?_, ?_, ?_, ?_⟩
  · rw [wroteReg_reg_same _ _ h, wroteReg_reg_same _ _ h, hv]
  · exact (wroteReg_sameRegsBut _ _).trans (wroteReg_sameRegsBut _ _)
  · exact (wroteReg_sameMemory _ _).trans (wroteReg_sameMemory _ _)
  · rw [wroteReg_pc, wroteReg_pc, BitVec.add_assoc]
    rfl

/-! ## The values -/

/-- A value in the range of immI is its own low 12 bits, sign-extended. -/
theorem signExtend_setWidth_of_small {v : Word} (h : -2048 ≤ v.toInt ∧ v.toInt ≤ 2047) :
    (v.setWidth 12).signExtend 32 = v := by
  have hlt := v.isLt
  apply BitVec.eq_of_toInt_eq
  rw [BitVec.toInt_signExtend_of_le (by decide)]
  rw [BitVec.toInt_eq_toNat_cond] at h
  rw [BitVec.toInt_eq_toNat_cond, BitVec.toInt_eq_toNat_cond, BitVec.toNat_setWidth]
  omega

/-- JALR's clearing of bit 0 leaves an even target as it is. -/
theorem clearBit0_of_even {x : Word} (h : x.toNat % 2 = 0) : x &&& 0xFFFFFFFE#32 = x := by
  have hlt := x.isLt
  rw [clearBit0_eq]
  apply BitVec.eq_of_toNat_eq
  rw [BitVec.toNat_ofNat]
  omega

/-! ## The three pseudo-instructions -/

theorem execList_pseudoLi {rd : Reg} (v : Word) (s : State) (h : rd ≠ 0#5) :
    ∃ t, execList (pseudoLi rd v) s = .next t ∧ t.reg rd = v ∧ SameRegsBut rd s t
      ∧ SameMemory s t := by
  unfold pseudoLi
  split
  next hsmall =>
    refine ⟨_, execList_addi _ _ _ _ _, ?_, wroteReg_sameRegsBut _ _, wroteReg_sameMemory _ _⟩
    rw [wroteReg_reg_same _ _ h, reg_zero, BitVec.zero_add, signExtend_setWidth_of_small hsmall]
  next =>
    rw [execList_lui]
    obtain ⟨t, ht, hreg, hregs, hmem, -⟩ :=
      execList_addi_wroteReg (s := s) h (upperPart_add_lowerPart v)
    exact ⟨t, ht, hreg, hregs, hmem⟩

theorem execList_pseudoLa {rd : Reg} (offset : Word) (s : State) (h : rd ≠ 0#5) :
    ∃ t, execList (pseudoLa rd offset) s = .next t ∧ t.reg rd = s.pc + offset ∧ SameRegsBut rd s t
      ∧ t.pc = s.pc + 8#32 := by
  have hsum : s.pc + upperPart offset + (lowerPart offset).signExtend 32 = s.pc + offset := by
    rw [BitVec.add_assoc, upperPart_add_lowerPart]
  rw [pseudoLa, execList_auipc]
  obtain ⟨t, ht, hreg, hregs, -, hpc⟩ := execList_addi_wroteReg (s := s) h hsum
  exact ⟨t, ht, hreg, hregs, hpc⟩

theorem execList_pseudoCall {offset : Word} {s : State} (ho : offset.toNat % 2 = 0)
    (hp : s.pc.toNat % 2 = 0) :
    ∃ t, execList (pseudoCall offset) s = .next t ∧ t.pc = s.pc + offset
      ∧ t.reg 1#5 = s.pc + 8#32 := by
  have heven : (s.pc + offset).toNat % 2 = 0 := by
    rw [BitVec.toNat_add]
    omega
  rw [pseudoCall, execList_auipc, execList_jalr]
  refine ⟨_, rfl, ?_, ?_⟩
  · rw [commit_pc, setReg_nextPc, setNextPc_nextPc, State.jalrTarget,
      wroteReg_reg_same _ _ (by decide), immediate, BitVec.add_assoc, upperPart_add_lowerPart,
      clearBit0_of_even heven]
  · rw [commit_reg, reg_setReg_same _ _ _ (by decide), State.link, wroteReg_pc, BitVec.add_assoc]
    rfl

/-- Settles O60: each pseudo-instruction by its own lemma. -/
theorem pseudoInstructions : Obligations.PseudoInstructions := by
  unfold Obligations.PseudoInstructions
  intro rd v s h
  exact ⟨execList_pseudoLi v s h, execList_pseudoLa v s h, execList_pseudoCall⟩

end Sys2Proof.Machine
end

