-- ==== Sys2Proof/Proofs/CycleStep.lean ====
section
/-! PROOF. What one step does with the word it fetches (R400 to R404): it executes the instruction the
word decodes to, or takes the illegal-instruction trap, and then commits. -/

namespace Sys2Proof.Machine

/-- The four bytes from an address on decode to an instruction exactly if their little-endian word does
(D1). -/
theorem decode_bytesAt_iff (s : State) (a : Nat) (i : Instr) :
    decode [s.byteAt a, s.byteAt (a + 1), s.byteAt (a + 2), s.byteAt (a + 3)] = .ok (i, [])
      ↔ decodeWord (BitVec.ofNat 32 (s.valueAt a 4)) = .ok i := by
  have hvalue : leValue [s.byteAt a, s.byteAt (a + 1), s.byteAt (a + 2), s.byteAt (a + 3)]
      = s.valueAt a 4 := rfl
  rw [decode_four, hvalue]
  cases decodeWord (BitVec.ofNat 32 (s.valueAt a 4)) <;> simp

section Fetched

variable {s u : State} {w : Word}

theorem step_of_decoded {i : Instr} (hf : s.fetch = .ok (w, u)) (hd : decodeWord w = .ok i) :
    step s = commitOutcome (exec i u.startStep) := by
  rw [step_of_fetch hf, executeWord, hd]

/-- A trap taken from the start of the step's execution is one taken from the state before the step:
neither the fetch nor next_pc's default is anything the trap saves or keeps. -/
theorem TrapTaken.of_startStep {t : State} {cause : Word} (hu : u = s ∨ u = s.useDraw)
    (h : TrapTaken cause u.startStep t) : TrapTaken cause s t := by
  obtain rfl | rfl := hu <;> exact { h with }

/-- A word that decodes to no instruction makes the step a trap entry and a commit (R403). -/
theorem step_of_undecoded (hf : s.fetch = .ok (w, u)) (hu : u = s ∨ u = s.useDraw)
    (hd : ∀ i, decodeWord w ≠ .ok i) :
    ∃ r, step s = .next r.commit ∧ SameRegs s r ∧ TrapTaken 2#32 s r := by
  obtain ⟨r, hr, hregs, htrap⟩ :=
    traps_of_not_accepted (w := w) (fun ⟨i, hi⟩ => hd i hi) u.startStep
  refine ⟨r, by rw [step_of_fetch hf, hr, commitOutcome], fun q => ?_, htrap.of_startStep hu⟩
  rw [hregs q]
  obtain rfl | rfl := hu <;> rfl

end Fetched

/-- Settles O7: the fetch gives the word of the bytes at pc, or from a device's page the word drawn, and
the step executes that word. -/
theorem stepRunsDecodedInstruction : Obligations.StepRunsDecodedInstruction := by
  unfold Obligations.StepRunsDecodedInstruction
  intro s hpc
  refine ⟨fun hmem i hi => ?_, fun hdev => ?_⟩
  · exact step_of_decoded (fetch_memory hpc hmem) ((decode_bytesAt_iff s _ i).1 hi)
  · have hf := fetch_device hpc hdev
    refine ⟨s.drawn 4, fun i hi => step_of_decoded hf hi, fun hnone => ?_⟩
    obtain ⟨r, hstep, hregs, htrap⟩ := step_of_undecoded hf (.inr rfl) hnone
    exact ⟨r.commit, hstep, htrap.nextPc, htrap.mepc, htrap.mcause,
      congrArg (· + 1#64) htrap.instret, hregs, htrap.memory, htrap.platform⟩

/-- Settles O8: the word of the bytes at pc decodes to no instruction, so the step is the trap entry and
the commit, and each clause is read off the trap's frame. -/
theorem stepOfIllegalWord : Obligations.StepOfIllegalWord := by
  unfold Obligations.StepOfIllegalWord
  intro s hpc hmem hnone
  obtain ⟨r, hstep, hregs, htrap⟩ := step_of_undecoded (fetch_memory hpc hmem) (.inl rfl)
    fun i hi => hnone i ((decode_bytesAt_iff s _ i).2 hi)
  exact ⟨r.commit, hstep, htrap.nextPc, htrap.mepc, htrap.mcause, htrap.ie1, htrap.ie,
    congrArg (· + 1#64) htrap.instret, htrap.reservations, hregs, htrap.mscratch, htrap.mbadaddr,
    htrap.memory, htrap.platform⟩

end Sys2Proof.Machine
end

