-- ==== Sys2Proof/Proofs/CycleRun.lean ====
section
/-! PROOF. How a step and a run of calls count and commit (R402, R404, R840), and where an instruction
stops. -/

namespace Sys2Proof.Machine

/-- A step with a successor counts itself and commits next_pc: neither the fetch, nor an instruction, nor
the trap entry writes the counter (R127), and the commit adds 1. -/
theorem step_counts_and_commits {s t : State} (h : step s = .next t) :
    t.instret = s.instret + 1#64 ∧ t.pc = t.nextPc := by
  obtain ⟨w, u, r, -, hu, rfl, hr⟩ := step_next h
  have hstart : u.startStep.instret = s.instret := by obtain rfl | rfl := hu <;> rfl
  have hexec : r.instret = u.startStep.instret := by
    obtain ⟨i, -, hx⟩ | rfl := hr
    · obtain ⟨-, hinstret, -⟩ := (exec_effect hx).fixed_eq
      exact hinstret
    · rfl
  exact ⟨congrArg (· + 1#64) (hexec.trans hstart), rfl⟩

theorem step_samePlatform {s t : State} (h : step s = .next t) : SamePlatform s t :=
  (stepNeverWritesRom s t h).2

theorem SamePlatform.trans {s t u : State} (h : SamePlatform s t) (h' : SamePlatform t u) :
    SamePlatform s u :=
  ⟨h'.1.trans h.1, h'.2.trans h.2⟩

/-- A run that begins with a step and ends in a state goes on from that step's successor. -/
theorem afterCalls_step_next {cs : List Call} {s t : State}
    (h : afterCalls (.step :: cs) s = .next t) :
    ∃ u, step s = .next u ∧ afterCalls cs u = .next t := by
  rw [afterCalls_step] at h
  cases hstep : step s with
  | next u => exact ⟨u, rfl, by simpa only [hstep] using h⟩
  | fault f => rw [hstep] at h; cases h
  | refused r => rw [hstep] at h; cases h

/-- A run's calls advance the counter by the steps among them alone and keep the platform, by induction
on the calls. -/
theorem afterCalls_counts {calls : List Call} {s t : State} (h : afterCalls calls s = .next t) :
    t.instret = s.instret + BitVec.ofNat 64 (stepsIn calls) ∧ SamePlatform s t := by
  induction calls generalizing s with
  | nil =>
    cases h
    exact ⟨(BitVec.add_zero _).symm, rfl, rfl⟩
  | cons c cs ih =>
    cases c with
    | step =>
      obtain ⟨u, hstep, hrest⟩ := afterCalls_step_next h
      obtain ⟨hcount, -⟩ := step_counts_and_commits hstep
      obtain ⟨hcounts, hplat⟩ := ih hrest
      refine ⟨?_, (step_samePlatform hstep).trans hplat⟩
      rw [hcounts, hcount, stepsIn_step, Nat.add_comm, BitVec.ofNat_add, BitVec.add_assoc]
    | externalInterrupt =>
      obtain ⟨-, -, hsame, hcount⟩ := externalInterrupt_same s
      obtain ⟨hcounts, hplat⟩ := ih ((afterCalls_interrupt cs s).symm.trans h)
      exact ⟨by rw [hcounts, hcount, stepsIn_interrupt], hsame.trans hplat⟩

/-- Settles O9: a step by what its parts do to the counter, a run by induction on its calls. -/
theorem stepCountsAndCommits : Obligations.StepCountsAndCommits := by
  unfold Obligations.StepCountsAndCommits
  exact ⟨fun _ _ => step_counts_and_commits, fun _ _ _ => afterCalls_counts⟩

/-- Settles O10: `exec_answers` says it of each instruction, by the shape of its meaning. -/
theorem execStopsOnlyOnMisaligned : Obligations.ExecStopsOnlyOnMisaligned := by
  unfold Obligations.ExecStopsOnlyOnMisaligned
  exact exec_answers

end Sys2Proof.Machine
end

