-- ==== Sys2Proof/Proofs/AluResults.lean ====
section
/-! PROOF. The integer ALU (41_integer_alu.md): each result of the model, computed on words, as the
number the statements name; then every instruction of the group by its word, its result and
`writesReg_of_exec`, which gives the frame. -/

namespace Sys2Proof.Machine

/-! ## Encodings -/

theorem decodeWord_of_encode {w : Word} {i : Instr} (hi : i.wellFormed = true) (hw : encode i = w) :
    decodeWord w = .ok i :=
  hw ▸ decodeWord_eq_ok_iff.2 (isWordOf_encode hi)

/-- A shift-immediate word whose funct7 its funct3 does not allow is an illegal encoding (R427 to
R429). -/
theorem illegalEncoding_shiftImm {f7 : BitVec 7} {f3 : BitVec 3} (shamt rs1 rd : Reg)
    (h : f3 = 0b001#3 ∧ f7 ≠ 0b0000000#7 ∨ f3 = 0b101#3 ∧ f7 ∉ [0b0000000#7, 0b0100000#7]) :
    IllegalEncoding (rType f7 shamt rs1 f3 rd 0b0010011#7) := by
  obtain ⟨-, htag, -, hf3, -, -, hf7, -⟩ := rType_fields f7 shamt rs1 f3 rd 0b0010011#7 0b00100#5 rfl
  unfold IllegalEncoding
  rw [htag, hf3, hf7]
  rcases h with h | h
  · exact .inr (.inr (.inr (.inr (.inr (.inl ⟨rfl, h⟩)))))
  · exact .inr (.inr (.inr (.inr (.inr (.inr (.inl ⟨rfl, h⟩))))))

/-! ## Results as numbers -/

theorem conditionWord_signedLess (a b : Word) :
    conditionWord (signedLess a b) = if a.toInt < b.toInt then 1#32 else 0#32 := by
  simp [conditionWord, signedLess]

theorem conditionWord_unsignedLess (a b : Word) :
    conditionWord (unsignedLess a b) = if a.toNat < b.toNat then 1#32 else 0#32 := by
  simp [conditionWord, unsignedLess]

/-- A difference is that of the numbers, modulo 2^32 (R431). -/
theorem sub_eq_ofInt (a b : Word) : a - b = BitVec.ofInt 32 ((a.toNat : Int) - b.toNat) := by
  rw [BitVec.sub_eq_add_neg, Int.sub_eq_add_neg, BitVec.ofInt_add, BitVec.ofInt_neg,
    BitVec.ofInt_natCast, BitVec.ofInt_natCast, BitVec.ofNat_toNat, BitVec.ofNat_toNat,
    BitVec.setWidth_eq, BitVec.setWidth_eq]

/-- A left shift is the product with the power of two, modulo 2^32. -/
theorem shiftLeft_eq_ofNat (a : Word) (k : Nat) : a <<< k = BitVec.ofNat 32 (a.toNat * 2 ^ k) := by
  apply BitVec.eq_of_toNat_eq
  rw [BitVec.toNat_shiftLeft, Nat.shiftLeft_eq, BitVec.toNat_ofNat]

/-- A logical right shift is the quotient by the power of two. -/
theorem ushiftRight_eq_ofNat (a : Word) (k : Nat) : a >>> k = BitVec.ofNat 32 (a.toNat / 2 ^ k) := by
  apply BitVec.eq_of_toNat_eq
  rw [BitVec.toNat_ushiftRight, Nat.shiftRight_eq_div_pow, BitVec.toNat_ofNat,
    Nat.mod_eq_of_lt ((Nat.div_le_self _ _).trans_lt a.isLt)]

/-- The five low bits of x[rs2] are its remainder by 32 (D26). -/
theorem shiftAmount_eq_mod (s : State) (rs2 : Reg) : s.shiftAmount rs2 = (s.reg rs2).toNat % 32 := by
  simp only [State.shiftAmount, toNat_extract, Nat.pow_zero, Nat.div_one, Nat.reducePow]

/-! ## The statements -/

/-- Settles O34: the results by the shifts as numbers, the traps by the word's funct7. -/
theorem shiftImmResults : Obligations.ShiftImmResults := by
  unfold Obligations.ShiftImmResults
  intro rd rs1 shamt s
  refine ⟨decodeWord_of_encode rfl rfl, decodeWord_of_encode rfl rfl, decodeWord_of_encode rfl rfl,
    writesReg_of_exec rfl (shiftLeft_eq_ofNat _ _), writesReg_of_exec rfl (ushiftRight_eq_ofNat _ _),
    writesReg_of_exec rfl (sshiftRight_eq_ofInt _ _), fun f7 h0 => ⟨?_, fun h1 => ?_⟩⟩
  · exact (illegalEncodingsTrap _ s).2 (illegalEncoding_shiftImm _ _ _ (.inl ⟨rfl, h0⟩))
  · have hf7 : f7 ∉ [0b0000000#7, 0b0100000#7] := by simp [h0, h1]
    exact (illegalEncodingsTrap _ s).2 (illegalEncoding_shiftImm _ _ _ (.inr ⟨rfl, hf7⟩))

/-- Settles O33: the immediate is its own value on the signed side (`toInt_immediate`), and otherwise
the word that is its sign extension. -/
theorem opImmResults : Obligations.OpImmResults := by
  unfold Obligations.OpImmResults
  intro rd rs1 imm s v
  have hslti : conditionWord (signedLess (s.reg rs1) (immediate imm))
      = if (s.reg rs1).toInt < imm.toInt then 1#32 else 0#32 := by
    rw [conditionWord_signedLess, toInt_immediate]
  refine ⟨?_, writesReg_of_exec rfl (BitVec.add_def _ _), writesReg_of_exec rfl hslti,
    writesReg_of_exec rfl (conditionWord_unsignedLess _ _), writesReg_of_exec rfl rfl,
    writesReg_of_exec rfl rfl, writesReg_of_exec rfl rfl⟩
  simp only [List.forall_mem_cons]
  exact ⟨decodeWord_of_encode rfl rfl, decodeWord_of_encode rfl rfl, decodeWord_of_encode rfl rfl,
    decodeWord_of_encode rfl rfl, decodeWord_of_encode rfl rfl, decodeWord_of_encode rfl rfl, nofun⟩

/-- Settles O35: both operands are read before rd is written, so the result is a function of their old
values whichever registers they are. -/
theorem opResults : Obligations.OpResults := by
  unfold Obligations.OpResults
  intro rd rs1 rs2 s a b
  refine ⟨?_, writesReg_of_exec rfl (BitVec.add_def a b), writesReg_of_exec rfl (sub_eq_ofInt a b),
    writesReg_of_exec rfl (conditionWord_signedLess a b),
    writesReg_of_exec rfl (conditionWord_unsignedLess a b), writesReg_of_exec rfl rfl,
    writesReg_of_exec rfl rfl, writesReg_of_exec rfl rfl⟩
  simp only [List.forall_mem_cons]
  exact ⟨decodeWord_of_encode rfl rfl, decodeWord_of_encode rfl rfl, decodeWord_of_encode rfl rfl,
    decodeWord_of_encode rfl rfl, decodeWord_of_encode rfl rfl, decodeWord_of_encode rfl rfl,
    decodeWord_of_encode rfl rfl, nofun⟩

/-- Settles O36: the shifts of O34, by the amount `shiftAmount_eq_mod`. -/
theorem registerShiftResults : Obligations.RegisterShiftResults := by
  unfold Obligations.RegisterShiftResults
  intro rd rs1 rs2 s a k
  have hk : s.shiftAmount rs2 = k := shiftAmount_eq_mod s rs2
  exact ⟨writesReg_of_exec rfl (hk ▸ shiftLeft_eq_ofNat a _),
    writesReg_of_exec rfl (hk ▸ ushiftRight_eq_ofNat a _),
    writesReg_of_exec rfl (hk ▸ sshiftRight_eq_ofInt a _)⟩

end Sys2Proof.Machine
end

