-- ==== Sys2Proof/Proofs/ControlTransfer.lean ====
section
/-! PROOF. Upper immediates, jumps and branches (42_control_transfer.md): the targets and conditions of
the model, computed on words, as the numbers the statements name; then every instruction of the group by
its word and by the lemma of its shape (`writesReg_of_exec`, `jumps_of_exec`, `branches_of_exec`), which
gives the frame. -/

namespace Sys2Proof.Machine

/-! ## The upper immediate -/

/-- A word that U-type encodes is a multiple of 2^12. -/
theorem mod_of_upperImmediateOk {imm : Word} (h : upperImmediateOk imm = true) :
    imm.toNat % 2 ^ 12 = 0 := by
  have hlow : imm.extractLsb' 0 12 = 0#12 := beq_iff_eq.1 h
  have hnat := congrArg BitVec.toNat hlow
  rwa [toNat_extract, Nat.pow_zero, Nat.div_one] at hnat

/-! ## Targets as numbers -/

theorem toInt_jumpOffset (imm : BitVec 21) : (jumpOffset imm).toInt = imm.toInt :=
  BitVec.toInt_signExtend_of_le (by decide)

/-- Clearing bit 0 rounds a number down to an even one, before or after the reduction modulo 2^32, for
the modulus is even. -/
theorem clearBit0_ofInt (x : Int) :
    BitVec.ofInt 32 x &&& 0xFFFFFFFE#32 = BitVec.ofInt 32 (x / 2 * 2) := by
  rw [clearBit0_eq]
  apply BitVec.eq_of_toNat_eq
  rw [BitVec.toNat_ofNat, BitVec.toNat_ofInt, BitVec.toNat_ofInt]
  omega

theorem jalTarget_eq_ofInt (pc : Word) (imm : BitVec 21) :
    pc + jumpOffset imm = BitVec.ofInt 32 ((pc.toNat : Int) + imm.toInt) := by
  rw [add_eq_ofInt, toInt_jumpOffset]

theorem jalrTarget_eq_ofInt (s : State) (rs1 : Reg) (imm : BitVec 12) :
    s.jalrTarget rs1 imm = BitVec.ofInt 32 (((s.reg rs1).toNat + imm.toInt) / 2 * 2) := by
  rw [State.jalrTarget, add_eq_ofInt, toInt_immediate, clearBit0_ofInt]

/-! ## Conditions -/

theorem bne_eq_decide_ne (a b : Word) : (a != b) = decide (a ≠ b) := by
  rw [bne, beq_eq_decide, decide_not]

theorem not_signedLess (a b : Word) : (!signedLess a b) = decide (a.toInt ≥ b.toInt) := by
  rw [signedLess, ← decide_not]
  exact decide_eq_decide.2 Int.not_lt

theorem not_unsignedLess (a b : Word) : (!unsignedLess a b) = decide (a.toNat ≥ b.toNat) := by
  rw [unsignedLess, ← decide_not]
  exact decide_eq_decide.2 Nat.not_lt

/-- A branch whose condition the model computes as c and the statement writes as d. -/
theorem branches_of_condition {i : Instr} {c d : Bool} {imm : BitVec 13} {s : State}
    (h : exec i s = .next (s.branchIf c imm)) (e : c = d) : Branches i d imm s :=
  e ▸ branches_of_exec h

/-! ## The statements -/

/-- Settles O37: LUI's result is the immediate itself, AUIPC's a sum of words. -/
theorem upperImmediateResults : Obligations.UpperImmediateResults := by
  unfold Obligations.UpperImmediateResults
  intro rd imm s h
  exact ⟨decodeWord_of_encode h rfl, decodeWord_of_encode h rfl, writesReg_of_exec rfl rfl,
    mod_of_upperImmediateOk h, writesReg_of_exec rfl (BitVec.add_def _ _)⟩

/-- Settles O38: both jumps are `jumps_of_exec` with their target as a number; JALR's target is computed
from x[rs1] before the link is written, so rd = rs1 is no case of its own. -/
theorem jumpResults : Obligations.JumpResults := by
  unfold Obligations.JumpResults
  refine ⟨fun rd imm s h => ⟨decodeWord_of_encode h rfl, ?_⟩, fun rd rs1 imm s => ?_⟩
  · exact jumps_of_exec rfl (jalTarget_eq_ofInt s.pc imm)
  · exact jumps_of_exec rfl (jalrTarget_eq_ofInt s rs1 imm)

/-- Settles O39: BEQ and BNE test the words' equality, BLT and BLTU decide the comparison itself, BGE and
BGEU its negation. -/
theorem branchResults : Obligations.BranchResults := by
  unfold Obligations.BranchResults
  intro rs1 rs2 imm s h a b
  refine ⟨?_, branches_of_condition rfl (beq_eq_decide a b),
    branches_of_condition rfl (bne_eq_decide_ne a b), branches_of_exec rfl,
    branches_of_condition rfl (not_signedLess a b), branches_of_exec rfl,
    branches_of_condition rfl (not_unsignedLess a b)⟩
  simp only [List.forall_mem_cons]
  exact ⟨decodeWord_of_encode h rfl, decodeWord_of_encode h rfl, decodeWord_of_encode h rfl,
    decodeWord_of_encode h rfl, decodeWord_of_encode h rfl, decodeWord_of_encode h rfl, nofun⟩

end Sys2Proof.Machine
end

