-- ==== Sys2Proof/Proofs/LoadStoreResults.lean ====
section
/-! PROOF. Aligned loads and stores, and the fences (43_memory_access.md): the widening of a load and the
narrowing of a store as numbers; then every instruction by the lemma of its shape
(`writesReg_of_load`, `storesTo_of_exec`), which gives the frame. -/

namespace Sys2Proof.Machine

/-! ## Widening and narrowing as numbers -/

/-- The low bits of a number's word are the number modulo their power of two. -/
theorem extract_low_ofNat {k : Nat} (hk : k ≤ 32) (m : Nat) :
    (BitVec.ofNat 32 m).extractLsb' 0 k = BitVec.ofNat k m := by
  rw [← BitVec.setWidth_eq_extractLsb' hk, BitVec.setWidth_ofNat_of_le hk]

/-- Widening a number's low k bits by their sign is widening the number modulo 2^k (R501, R502). -/
theorem signExtend_low_ofNat {k : Nat} (hk : k ≤ 32) (m : Nat) :
    ((BitVec.ofNat 32 m).extractLsb' 0 k).signExtend 32 = (BitVec.ofNat k m).signExtend 32 :=
  congrArg (BitVec.signExtend 32) (extract_low_ofNat hk m)

/-- A number of k bits, widened from its low k bits, is itself (R504, R505). -/
theorem zeroExtend_low_ofNat {k m : Nat} (hk : k ≤ 32) (hm : m < 2 ^ k) :
    ((BitVec.ofNat 32 m).extractLsb' 0 k).setWidth 32 = BitVec.ofNat 32 m := by
  rw [extract_low_ofNat hk, BitVec.setWidth_ofNat_of_le_of_lt hk hm]

/-- Narrowing a word to k bits keeps its low k bits (R506, R507). -/
theorem zeroExtend_low_mod {k : Nat} (hk : k ≤ 32) (v : Word) :
    ((v.extractLsb' 0 k).setWidth 32).toNat % 2 ^ k = v.toNat % 2 ^ k := by
  rw [BitVec.toNat_setWidth_of_le hk, toNat_extract, Nat.pow_zero, Nat.div_one, Nat.mod_mod]

/-! ## The statements -/

/-- Settles O40: MemRead gives the bytes' value as a word, and each load widens its low bits. -/
theorem loadResults : Obligations.LoadResults := by
  unfold Obligations.LoadResults
  intro rd rs1 imm s a hd
  have h1 : a.toNat % 1 = 0 := Nat.mod_one _
  exact ⟨writesReg_of_load rfl (by decide) h1 hd (signExtend_low_ofNat (by decide) _),
    writesReg_of_load rfl (by decide) h1 hd (zeroExtend_low_ofNat (by decide) (valueAt_lt s 1 _)),
    fun h2 => ⟨writesReg_of_load rfl (by decide) h2 hd (signExtend_low_ofNat (by decide) _),
      writesReg_of_load rfl (by decide) h2 hd (zeroExtend_low_ofNat (by decide) (valueAt_lt s 2 _))⟩,
    fun h4 => writesReg_of_load (f := wholeWord) rfl (by decide) h4 hd rfl⟩

/-- Settles O42: a store's bytes depend on the low bits of x[rs2] only. -/
theorem storeResults : Obligations.StoreResults := by
  unfold Obligations.StoreResults
  intro rs1 rs2 imm s hm a
  have h1 : a.toNat % 1 = 0 := Nat.mod_one _
  exact ⟨storesTo_of_exec rfl hm (by decide) h1 (zeroExtend_low_mod (k := 8) (by decide) _),
    fun h2 => storesTo_of_exec rfl hm (by decide) h2 (zeroExtend_low_mod (k := 16) (by decide) _),
    fun h4 => storesTo_of_exec rfl hm (by decide) h4 rfl⟩

/-- Settles O44: a fence's word with any fields is its word in the bits that have an effect, and both
meanings are the state itself. -/
theorem fencesDoNothing : Obligations.FencesDoNothing := by
  unfold Obligations.FencesDoNothing
  exact ⟨fun imm rd rs1 => ⟨decodeWord_eq_ok_iff.2 ⟨rfl, iType_fixed _ _ _ _ _⟩,
      decodeWord_eq_ok_iff.2 ⟨rfl, iType_fixed _ _ _ _ _⟩⟩,
    fun s => ⟨rfl, rfl⟩⟩

end Sys2Proof.Machine
end

