-- ==== Sys2Proof/Proofs/AtomicReserved.lean ====
section
/-! PROOF. LR.W and SC.W (44_atomic.md R540, R541, R544). MemRead and MemWrite say what each does in
every case; the lemmas here say what the reservation and the write of rd add to that. -/

namespace Sys2Proof.Machine

/-- An aligned MemRead away from devices gives the bytes' value and uses no draw (R230). -/
theorem memRead_memory {s : State} {a : Word} {n : Nat} (hn : n ∈ [1, 2, 4]) (ha : a.toNat % n = 0)
    (hd : s.isDevicePage a.toNat = false) :
    s.memRead a n = .ok (BitVec.ofNat 32 (s.valueAt a.toNat n), s) := by
  rw [memRead_aligned ha, busRead_memory hn ha hd]

/-! ## LR.W -/

/-- The LR.W completes: v in rd and the word's key in the set, nothing else changed (R540). -/
def ReservesWord (rd rs1 : Reg) (v : Word) (s : State) : Prop :=
  ∃ t, exec (.lrW rd rs1) s = .next t
    ∧ t.reg rd = (if rd = 0#5 then 0#32 else v) ∧ SameRegsBut rd s t ∧ t.reg 0#5 = 0#32
    ∧ (∀ k, k ∈ t.reservations ↔ k = (s.reg rs1).toNat / 4 ∨ k ∈ s.reservations)
    ∧ t.pc = s.pc ∧ t.nextPc = s.nextPc ∧ SameCsrs s t ∧ SameMemory s t ∧ SamePlatform s t

theorem exec_lrW_of_memRead {s u : State} {rs1 : Reg} {v : Word}
    (e : s.memRead (s.reg rs1) 4 = .ok (v, u)) (rd : Reg) :
    exec (.lrW rd rs1) s = .next ((u.reserve (s.reg rs1)).setReg rd v) := by
  change execLrW rd rs1 s = _
  rw [execLrW, e]

theorem exec_lrW_fault {s : State} {rs1 : Reg} (ha : (s.reg rs1).toNat % 4 ≠ 0)
    (hc : s.cfg.misalignedData = .fault) (rd : Reg) :
    exec (.lrW rd rs1) s = .fault .misalignedData := by
  change execLrW rd rs1 s = _
  rw [execLrW, memRead_fault ha hc]

/-- Whatever MemRead answers, LR.W adds the reservation and the write of rd. -/
theorem reservesWord_of_memRead {s u : State} {rs1 : Reg} {v : Word}
    (e : s.memRead (s.reg rs1) 4 = .ok (v, u)) (hu : u = s ∨ u = s.useDraw) (rd : Reg) :
    ReservesWord rd rs1 v s := by
  refine ⟨_, exec_lrW_of_memRead e rd, reg_setReg_rd _ rd v, fun r hr => ?_, reg_zero _, fun k => ?_, ?_⟩
  · rw [reg_setReg_ne _ _ _ _ hr, reserve_reg]
    obtain rfl | rfl := hu <;> simp
  · rw [setReg_reservations, reserve_reservations, mem_insertKey]
    obtain rfl | rfl := hu <;> rfl
  · obtain rfl | rfl := hu <;> simp [SameCsrs, SameMemory, SamePlatform]

/-- Settles O46, by the cases of MemRead. -/
theorem loadReserved : Obligations.LoadReserved := by
  unfold Obligations.LoadReserved
  intro rd rs1 s a done
  exact ⟨fun ha hd => reservesWord_of_memRead (memRead_memory (by decide) ha hd) (.inl rfl) rd,
    fun ha hd => ⟨_, reservesWord_of_memRead (memRead_drawn (.inl ⟨ha, hd⟩)) (.inr rfl) rd⟩,
    fun ha hc => ⟨_, reservesWord_of_memRead (memRead_drawn (.inr ⟨ha, hc⟩)) (.inr rfl) rd⟩,
    fun ha hc => exec_lrW_fault ha hc rd⟩

/-! ## SC.W -/

theorem exec_scW_unreserved {s : State} {rs1 : Reg} (hr : (s.reg rs1).toNat / 4 ∉ s.reservations)
    (rd rs2 : Reg) : exec (.scW rd rs1 rs2) s = .next (s.setReg rd 1#32) :=
  if_neg fun h => hr ((isReserved_iff s (s.reg rs1)).1 h)

theorem exec_scW_of_memWrite {s t : State} {rs1 rs2 : Reg}
    (hr : (s.reg rs1).toNat / 4 ∈ s.reservations)
    (e : s.memWrite (s.reg rs1) 4 (s.reg rs2) = .ok t) (rd : Reg) :
    exec (.scW rd rs1 rs2) s = .next (t.scSucceeded rd) := by
  change execScW rd rs1 rs2 s = _
  rw [execScW, if_pos ((isReserved_iff s (s.reg rs1)).2 hr), e]

theorem exec_scW_fault {s : State} {rs1 : Reg} (hr : (s.reg rs1).toNat / 4 ∈ s.reservations)
    (ha : (s.reg rs1).toNat % 4 ≠ 0) (hc : s.cfg.misalignedData = .fault) (rd rs2 : Reg) :
    exec (.scW rd rs1 rs2) s = .fault .misalignedData := by
  change execScW rd rs1 rs2 s = _
  rw [execScW, if_pos ((isReserved_iff s (s.reg rs1)).2 hr), memWrite_fault ha hc]

/-- Settles O48: no access is made, so no address is misaligned. -/
theorem storeConditionalFails : Obligations.StoreConditionalFails := by
  unfold Obligations.StoreConditionalFails
  intro rd rs1 rs2 s hr
  exact writesReg_of_exec (exec_scW_unreserved hr rd rs2) rfl

/-- What a successful SC.W leaves in its rd (D12); x0 reads 0 under either setting. -/
theorem reg_scSucceeded_rd (s : State) (rd : Reg) :
    (s.scSucceeded rd).reg rd = if s.cfg.scSuccessRd = .zero then 0#32 else s.reg rd := by
  unfold State.scSucceeded
  cases s.cfg.scSuccessRd with
  | unwritten => rfl
  | zero => simp [reg_setReg_rd]

/-- The SC.W completes with t, its store done: rd as SC_SUCCESS_RD says, nothing else changed but memory,
devices and the set (R541). -/
def ConditionalStores (rd rs1 rs2 : Reg) (s t : State) : Prop :=
  exec (.scW rd rs1 rs2) s = .next t
    ∧ t.reg rd = (if s.cfg.scSuccessRd = .zero then 0#32 else s.reg rd) ∧ SameRegsBut rd s t
    ∧ t.pc = s.pc ∧ t.nextPc = s.nextPc ∧ SameCsrs s t ∧ SamePlatform s t

theorem conditionalStores_of_memWrite {s u : State} {rs1 rs2 : Reg}
    (hr : (s.reg rs1).toNat / 4 ∈ s.reservations)
    (e : s.memWrite (s.reg rs1) 4 (s.reg rs2) = .ok u) (rd : Reg) :
    ConditionalStores rd rs1 rs2 s (u.scSucceeded rd) := by
  obtain ⟨hregs, hpc, hnext, hcsrs, hplat⟩ := onlyStored_memWrite e
  refine ⟨exec_scW_of_memWrite hr e rd, ?_, fun r hne => ?_, ?_⟩
  · rw [reg_scSucceeded_rd, hplat.2, hregs]
  · rw [reg_scSucceeded_ne hne, hregs]
  · simpa [SameCsrs, SamePlatform] using ⟨hpc, hnext, hcsrs, hplat⟩

/-- The write of rd after a store leaves what was stored. -/
theorem StoredBytes.scSucceeded {a v : Word} {n : Nat} {s t : State} (h : StoredBytes a n v s t)
    (rd : Reg) : StoredBytes a n v s (t.scSucceeded rd) := by
  constructor
  · simpa using h.stored
  · simpa using h.unstored
  · simpa using h.others
  · simpa using h.reservations
  · simpa using h.devices

theorem Scrambled.scSucceeded {a : Word} {n : Nat} {s t : State} (h : Scrambled a n s t) (rd : Reg) :
    Scrambled a n s (t.scSucceeded rd) := by
  constructor
  · simpa using h.others
  · simpa using h.reservations
  · simpa using h.devices

/-- Settles O47, by the cases of MemWrite. -/
theorem storeConditionalSucceeds : Obligations.StoreConditionalSucceeds := by
  unfold Obligations.StoreConditionalSucceeds
  intro rd rs1 rs2 s hm a hr rest
  refine ⟨fun ha => ?_, fun ha hc => ?_, fun ha hc => ?_⟩
  · exact ⟨_, conditionalStores_of_memWrite hr (memWrite_aligned ha) rd,
      (busWrite_stored (by decide) ha hm rfl).scSucceeded rd⟩
  · exact ⟨_, conditionalStores_of_memWrite hr (memWrite_draw ha hc) rd,
      (scrambled_of_draw (by decide)).scSucceeded rd⟩
  · exact exec_scW_fault hr ha hc rd rs2

/-! ## LR.W, then SC.W -/

/-- A word stored in RAM is the word read there next. -/
theorem valueAt_of_storedBytes {a v : Word} {s t : State} (h : StoredBytes a 4 v s t)
    (hram : s.isRamByte a.toNat = true) : t.valueAt a.toNat 4 = v.toNat := by
  rw [valueAt_of_bytes 4 _ v.toNat fun i hi => h.stored i hi hram]
  exact Nat.mod_eq_of_lt v.isLt

@[simp] theorem reserve_isRamByte (s : State) (a : Word) (b : Nat) :
    (s.reserve a).isRamByte b = s.isRamByte b := rfl

/-- Settles O51: the LR.W puts the key in the set, so that the SC.W succeeds (O47) and takes it out, and
the second SC.W fails (O48). That rd is neither rs1 nor rs2 keeps the address and the word stored. -/
theorem loadReservedThenConditional : Obligations.LoadReservedThenConditional := by
  unfold Obligations.LoadReservedThenConditional
  intro rd rs1 rs2 s hm h1 h2 ha hram
  have hread := memRead_memory (by decide) ha (not_isDevicePage_of_isRamByte hram)
  let t := (s.reserve (s.reg rs1)).setReg rd (BitVec.ofNat 32 (s.valueAt (s.reg rs1).toNat 4))
  have hreg1 : t.reg rs1 = s.reg rs1 := by simp [t, reg_setReg_ne _ _ _ _ h1.symm]
  have hreg2 : t.reg rs2 = s.reg rs2 := by simp [t, reg_setReg_ne _ _ _ _ h2.symm]
  have hkey : (t.reg rs1).toNat / 4 ∈ t.reservations := by simp [t, hreg1, wordKey]
  obtain ⟨hstores, -, -⟩ := storeConditionalSucceeds rd rs1 rs2 t (by simpa [t] using hm) hkey
  obtain ⟨u, ⟨hu, -, hregs, -⟩, hbytes⟩ := hstores (hreg1 ▸ ha)
  rw [hreg1, hreg2] at hbytes
  have hreg1' : u.reg rs1 = s.reg rs1 := (hregs rs1 h1.symm).trans hreg1
  have hgone : (s.reg rs1).toNat / 4 ∉ u.reservations := by simp [hbytes.reservations]
  obtain ⟨v, hv, hrd, honly⟩ := storeConditionalFails rd rs1 rs2 u (hreg1'.symm ▸ hgone)
  refine ⟨t, u, v, exec_lrW_of_memRead hread rd, hu, ?_, hgone, hv, honly.memory, fun h0 => ?_⟩
  · exact valueAt_of_storedBytes hbytes (by simpa [t] using hram)
  · rw [hrd, if_neg h0]

end Sys2Proof.Machine
end

