-- ==== Sys2Proof/Proofs/AtomicUpdates.lean ====
section
/-! PROOF. The nine read-modify-write operations (44_atomic.md R542, R546 to R554). They share one
meaning, `State.readModifyWrite`, and differ in the operation alone. -/

namespace Sys2Proof.Machine

/-! ## The operations -/

theorem signedMin_eq (old src : Word) :
    signedMin old src = if old.toInt < src.toInt then old else src := by
  simp [signedMin, signedLess]

theorem signedMax_eq (old src : Word) :
    signedMax old src = if old.toInt > src.toInt then old else src := by
  simp [signedMax, signedLess]

theorem unsignedMin_eq (old src : Word) :
    unsignedMin old src = if old.toNat < src.toNat then old else src := by
  simp [unsignedMin, unsignedLess]

theorem unsignedMax_eq (old src : Word) :
    unsignedMax old src = if old.toNat > src.toNat then old else src := by
  simp [unsignedMax, unsignedLess]

/-- The nine AMOs with their operations (R546 to R554). -/
def amoOperations (rd rs1 rs2 : Reg) : List (Instr × (Word → Word → Word)) :=
  [(.amoswapW rd rs1 rs2, fun _ src => src), (.amoaddW rd rs1 rs2, fun old src => old + src),
    (.amoxorW rd rs1 rs2, fun old src => old ^^^ src), (.amoandW rd rs1 rs2, fun old src => old &&& src),
    (.amoorW rd rs1 rs2, fun old src => old ||| src), (.amominW rd rs1 rs2, signedMin),
    (.amomaxW rd rs1 rs2, signedMax), (.amominuW rd rs1 rs2, unsignedMin),
    (.amomaxuW rd rs1 rs2, unsignedMax)]

/-- Each AMO is the common pattern with its operation (R542). -/
theorem exec_of_mem_amoOperations {rd rs1 rs2 : Reg} {p : Instr × (Word → Word → Word)}
    (h : p ∈ amoOperations rd rs1 rs2) (s : State) :
    exec p.1 s = s.readModifyWrite rd rs1 rs2 p.2 := by
  revert p
  simp only [amoOperations, List.forall_mem_cons]
  exact ⟨rfl, rfl, rfl, rfl, rfl, rfl, rfl, rfl, rfl, nofun⟩

/-! ## Memory -/

/-- An update of plain memory: the old word is the one the bytes hold, and no draw is used. -/
theorem updates_of_memory {i : Instr} {rd rs1 rs2 : Reg} {f : Word → Word → Word} {s : State} {w : Word}
    (h : exec i s = s.readModifyWrite rd rs1 rs2 f) (hm : s.mem.wf) (ha : (s.reg rs1).toNat % 4 = 0)
    (hd : s.isDevicePage (s.reg rs1).toNat = false)
    (hw : f (BitVec.ofNat 32 (s.valueAt (s.reg rs1).toNat 4)) (s.reg rs2) = w) :
    Updates i rd (s.reg rs1) (BitVec.ofNat 32 (s.valueAt (s.reg rs1).toNat 4)) w s :=
  updates_of_exec h hm (.inl rfl) ha (memRead_memory (by decide) ha hd) hw

/-- Settles O49: one pattern, and each operation as the arithmetic the statement writes. -/
theorem amoResults : Obligations.AmoResults := by
  unfold Obligations.AmoResults
  intro rd rs1 rs2 s hm a old src ha hd
  exact ⟨updates_of_memory (f := fun _ src => src) rfl hm ha hd rfl,
    updates_of_memory (f := fun old src => old + src) rfl hm ha hd (BitVec.add_def old src),
    updates_of_memory (f := fun old src => old ^^^ src) rfl hm ha hd rfl,
    updates_of_memory (f := fun old src => old &&& src) rfl hm ha hd rfl,
    updates_of_memory (f := fun old src => old ||| src) rfl hm ha hd rfl,
    updates_of_memory rfl hm ha hd (signedMin_eq old src),
    updates_of_memory rfl hm ha hd (signedMax_eq old src),
    updates_of_memory rfl hm ha hd (unsignedMin_eq old src),
    updates_of_memory rfl hm ha hd (unsignedMax_eq old src)⟩

/-! ## Misaligned addresses -/

theorem readModifyWrite_fault {s : State} {rs1 : Reg} (ha : (s.reg rs1).toNat % 4 ≠ 0)
    (hc : s.cfg.misalignedData = .fault) (rd rs2 : Reg) (f : Word → Word → Word) :
    s.readModifyWrite rd rs1 rs2 f = .fault .misalignedData := by
  rw [State.readModifyWrite, memRead_fault ha hc]

/-- Scrambling counts from before the draw and the write of rd. -/
theorem Scrambled.of_drawn_setReg {a : Word} {n : Nat} {s t : State} {rd : Reg} {old : Word}
    (h : Scrambled a n (s.useDraw.setReg rd old) t) : Scrambled a n s t := by
  constructor
  · simpa using h.others
  · simpa using h.reservations
  · simpa using h.devices

/-- A misaligned AMO under Draw draws its old word, then scrambles the words it touches (R230, R231). -/
theorem readModifyWrite_scrambles {s : State} {rs1 : Reg} (ha : (s.reg rs1).toNat % 4 ≠ 0)
    (hc : s.cfg.misalignedData = .draw) (rd rs2 : Reg) (f : Word → Word → Word) :
    ∃ t, s.readModifyWrite rd rs1 rs2 f = .next t ∧ SameRegsBut rd s t ∧ t.reg 0#5 = 0#32
      ∧ t.pc = s.pc ∧ t.nextPc = s.nextPc ∧ SameCsrs s t ∧ SamePlatform s t
      ∧ Scrambled (s.reg rs1) 4 s t := by
  let v := s.drawn 4
  have e := memWrite_draw (s := s.useDraw.setReg rd v) (v := f v (s.reg rs2)) ha (by simpa using hc)
  obtain ⟨hpc, hnext, hcsrs, hplat⟩ := frame_of_update (.inr rfl) e
  refine ⟨_, ?_, fun r hr => ?_, reg_zero _, hpc, hnext, hcsrs, hplat,
    (scrambled_of_draw (by decide)).of_drawn_setReg⟩
  · rw [State.readModifyWrite, memRead_draw ha hc]
    change State.storeFrom _ _ _ _ = _
    rw [State.storeFrom, e]
  · rw [(onlyStored_memWrite e).regs, (onlyReg_setReg rd v (.inr rfl)).regs r hr]

/-- Settles O50: at a device and under Draw the old word is MemRead's draw. -/
theorem amoElsewhere : Obligations.AmoElsewhere := by
  unfold Obligations.AmoElsewhere
  intro rd rs1 rs2 s hm a p hp
  have h := exec_of_mem_amoOperations hp s
  refine ⟨fun ha hd => ?_, fun ha hc => ?_, fun ha hc => ?_⟩
  · exact ⟨_, updates_of_exec h hm (.inr rfl) ha (memRead_drawn (.inl ⟨ha, hd⟩)) rfl⟩
  · rw [h, readModifyWrite_fault ha hc]
  · rw [h]
    exact readModifyWrite_scrambles ha hc rd rs2 p.2

end Sys2Proof.Machine
end

