-- ==== Sys2Proof/Proofs/MulDivResults.lean ====
section
/-! PROOF. Multiply and divide (45_muldiv.md): the products as one signed product's low and high word,
and the signed quotient and remainder as the numbers `Int.tdiv` and `Int.tmod` give, which fit a word but
for INT_MIN / −1 (`tdiv_bounds`). -/

namespace Sys2Proof.Machine

/-! ## Products -/

/-- The low word is the same under signed and unsigned readings (R581). -/
theorem lowProduct_eq_ofInt (a b : Word) : lowProduct a b = BitVec.ofInt 32 (a.toInt * b.toInt) := by
  rw [lowProduct, BitVec.ofNat_mul, BitVec.ofInt_mul, BitVec.ofNat_toNat, BitVec.ofNat_toNat,
    BitVec.setWidth_eq, BitVec.setWidth_eq, BitVec.ofInt_toInt, BitVec.ofInt_toInt]

/-- Bits 63:32 of a number's 64-bit representation are its quotient by 2^32, rounded down, modulo 2^32. -/
theorem extract_high_ofInt (x : Int) :
    (BitVec.ofInt 64 x).extractLsb' 32 32 = BitVec.ofInt 32 (x / 2 ^ 32) := by
  apply BitVec.eq_of_toNat_eq
  rw [toNat_extract, BitVec.toNat_ofInt, BitVec.toNat_ofInt]
  omega

theorem highSignedProduct_eq_ofInt (a b : Word) :
    highSignedProduct a b = BitVec.ofInt 32 (a.toInt * b.toInt / 2 ^ 32) :=
  extract_high_ofInt _

/-- Settles O52: the low word as a signed product, the high word as its quotient by 2^32. -/
theorem multiplyResults : Obligations.MultiplyResults := by
  unfold Obligations.MultiplyResults
  intro rd rs1 rs2 s a b
  exact ⟨writesReg_of_exec rfl (lowProduct_eq_ofInt a b),
    writesReg_of_exec rfl (highSignedProduct_eq_ofInt a b)⟩

/-- Settles O53, by the configuration's two open functions (D13). -/
theorem openMultiplyResults : Obligations.OpenMultiplyResults := by
  unfold Obligations.OpenMultiplyResults
  exact ⟨Config.mulhsuFn, Config.mulhuFn, fun _ _ _ _ =>
    ⟨writesReg_of_exec rfl rfl, writesReg_of_exec rfl rfl⟩⟩

/-! ## Unsigned division -/

/-- Settles O54: the model computes both results by the formulas of R586 and R588. -/
theorem unsignedDivideResults : Obligations.UnsignedDivideResults := by
  unfold Obligations.UnsignedDivideResults
  intro rd rs1 rs2 s a b
  exact ⟨decodeWord_of_encode rfl rfl, decodeWord_of_encode rfl rfl,
    writesReg_of_exec (v := unsignedQuotient a b) rfl rfl,
    writesReg_of_exec (v := unsignedRemainder a b) rfl rfl⟩

/-! ## Signed division -/

/-- The remainder of a truncated division is smaller than the divisor. -/
theorem natAbs_tmod_lt (x : Int) {y : Int} (hy : y ≠ 0) : (x.tmod y).natAbs < y.natAbs := by
  rw [Int.natAbs_tmod]
  exact Nat.mod_lt _ (Int.natAbs_pos.2 hy)

/-- A dividend that is not positive leaves no positive remainder (D25). -/
theorem tmod_nonpos {x : Int} (y : Int) (hx : x ≤ 0) : x.tmod y ≤ 0 := by
  have hneg : 0 ≤ (-x).tmod y := Int.tmod_nonneg y (Int.neg_nonneg_of_nonpos hx)
  rwa [Int.neg_tmod, Int.neg_nonneg] at hneg

theorem signedDivide_zero (a : Word) :
    signedQuotient a 0#32 = 0xFFFFFFFF#32 ∧ signedRemainder a 0#32 = a :=
  ⟨if_pos rfl, if_pos rfl⟩

theorem signedDivide_overflow {a b : Word} (h : a = intMin ∧ b = 0xFFFFFFFF#32) :
    signedQuotient a b = 0x80000000#32 ∧ signedRemainder a b = 0#32 := by
  obtain ⟨rfl, rfl⟩ := h
  decide

theorem toInt_ne_zero {b : Word} (hb : b ≠ 0#32) : b.toInt ≠ 0 := BitVec.toInt_ne.2 hb

section Exact

variable {a b : Word} (hb : b ≠ 0#32) (hab : ¬ (a = intMin ∧ b = 0xFFFFFFFF#32))

include hb hab

/-- The quotient is the exact one, rounded toward zero (R585, D25). -/
theorem toInt_signedQuotient : (signedQuotient a b).toInt = a.toInt.tdiv b.toInt := by
  have hov : ¬ (a.toInt = -2 ^ 31 ∧ b.toInt = -1) := fun h =>
    hab ⟨BitVec.eq_of_toInt_eq h.1, BitVec.eq_of_toInt_eq h.2⟩
  obtain ⟨h1, h2⟩ := tdiv_bounds (BitVec.le_toInt a) BitVec.toInt_lt (toInt_ne_zero hb) hov
  rw [signedQuotient, if_neg hb, if_neg hab, BitVec.toInt_ofInt_eq_self (by decide) h1 h2]

/-- The remainder is what the rounded quotient leaves (R587, D25), and fits a word as the divisor does. -/
theorem toInt_signedRemainder : (signedRemainder a b).toInt = a.toInt.tmod b.toInt := by
  have hlt := natAbs_tmod_lt a.toInt (toInt_ne_zero hb)
  have h1 := BitVec.le_toInt b
  have h2 := BitVec.toInt_lt (x := b)
  rw [signedRemainder, if_neg hb, if_neg hab, ← Int.tmod_def]
  exact BitVec.toInt_ofInt_eq_self (by decide) (by omega) (by omega)

end Exact

/-- Settles O55: the table's two rows, and elsewhere the laws of truncated division. -/
theorem signedDivideResults : Obligations.SignedDivideResults := by
  unfold Obligations.SignedDivideResults
  intro rd rs1 rs2 s a b
  refine ⟨signedQuotient a b, signedRemainder a b, writesReg_of_exec rfl rfl,
    writesReg_of_exec rfl rfl, fun hb => hb ▸ signedDivide_zero a, signedDivide_overflow,
    fun ⟨hb, hab⟩ => ?_⟩
  rw [toInt_signedQuotient hb hab, toInt_signedRemainder hb hab]
  exact ⟨(Int.mul_tdiv_add_tmod _ _).symm, natAbs_tmod_lt _ (toInt_ne_zero hb),
    Int.tmod_nonneg _, tmod_nonpos _⟩

end Sys2Proof.Machine
end

