-- ==== Sys2Proof/Proofs/SystemResults.lean ====
section
/-! PROOF. The SYSTEM group (46_system.md): the CSR instructions that write, by the common procedure
(R646) and the write rule of each CSR; SCALL and SBREAK by the trap entry; ERET. -/

namespace Sys2Proof.Machine

/-! ## Writing a CSR (R121 to R126) -/

section Write

variable (s : State) (c : Csr) (v : Word)

@[simp] theorem csrWrite_ie :
    (s.csrWrite c v).ie = if c = .mstatus then v.getLsbD 0 else s.ie := by cases c <;> rfl

@[simp] theorem csrWrite_ie1 :
    (s.csrWrite c v).ie1 = if c = .mstatus then v.getLsbD 3 else s.ie1 := by cases c <;> rfl

@[simp] theorem csrWrite_mscratch :
    (s.csrWrite c v).mscratch = if c = .mscratch then v else s.mscratch := by cases c <;> rfl

@[simp] theorem csrWrite_mepc :
    (s.csrWrite c v).mepc = if c = .mepc then v else s.mepc := by cases c <;> rfl

@[simp] theorem csrWrite_mcause :
    (s.csrWrite c v).mcause = if c = .mcause then v else s.mcause := by cases c <;> rfl

@[simp] theorem csrWrite_mbadaddr :
    (s.csrWrite c v).mbadaddr = if c = .mbadaddr then v else s.mbadaddr := by cases c <;> rfl

/-- A register write and a CSR write after it change nothing else. -/
theorem onlyRegAndCsr_csrWrite_setReg (rd : Reg) (old : Word) :
    OnlyRegAndCsr rd c v s ((s.setReg rd old).csrWrite c v) where
  regs r hr := (csrWrite_reg ..).trans (reg_setReg_ne s rd r old hr)
  zero := reg_zero _
  ie := by simp
  ie1 := by simp
  mscratch := by simp
  mepc := by simp
  mcause := by simp
  mbadaddr := by simp
  instret := by simp
  pc := by simp
  nextPc := by simp
  reservations := by simp
  memory := by simp [SameMemory]
  platform := by simp [SamePlatform]

end Write

/-! ## The CSR instructions that write (R640 to R646) -/

theorem csrAccess_write {a : CsrAddr} {c : Csr} (h : csrOfAddr a = some c)
    (hc : csrReadOnly c = false) (s : State) (rd : Reg) (new : Word → Word) :
    s.csrAccess rd a true new = (s.setReg rd (s.csrRead c)).csrWrite c (new (s.csrRead c)) := by
  simp [State.csrAccess, h, hc]

theorem writesCsr_of_exec {i : Instr} {s : State} {rd : Reg} {a : CsrAddr} {c : Csr} {w : Bool}
    {new : Word → Word} {v : Word} (h : csrOfAddr a = some c) (hc : csrReadOnly c = false)
    (hx : exec i s = .next (s.csrAccess rd a w new)) (hw : w = true) (hv : new (s.csrRead c) = v) :
    WritesCsr i rd c v s := by
  subst hw hv
  exact ⟨_, by rw [hx, csrAccess_write h hc], (csrWrite_reg ..).trans (reg_setReg_rd s rd _),
    onlyRegAndCsr_csrWrite_setReg s c _ rd _⟩

/-- Settles O25: each of the five addresses is a writable CSR's, and each instruction is the common
procedure with a write. -/
theorem csrWritesComplete : Obligations.CsrWritesComplete := by
  unfold Obligations.CsrWritesComplete
  intro rd rs1 u a c s hac
  obtain ⟨h, hc⟩ : csrOfAddr a = some c ∧ csrReadOnly c = false := by
    simp only [List.mem_cons, List.not_mem_nil, or_false, Prod.mk.injEq] at hac
    obtain ⟨rfl, rfl⟩ | ⟨rfl, rfl⟩ | ⟨rfl, rfl⟩ | ⟨rfl, rfl⟩ | ⟨rfl, rfl⟩ := hac <;>
      exact ⟨rfl, rfl⟩
  have writes {i : Instr} {w : Bool} {new : Word → Word} {v : Word}
      (hx : exec i s = .next (s.csrAccess rd a w new)) (hw : w = true)
      (hv : new (s.csrRead c) = v) : WritesCsr i rd c v s := writesCsr_of_exec h hc hx hw hv
  exact ⟨writes rfl rfl rfl, writes rfl rfl rfl,
    fun h0 => ⟨writes rfl (bne_iff_ne.2 h0) rfl, writes rfl (bne_iff_ne.2 h0) rfl⟩,
    fun h0 => ⟨writes rfl (bne_iff_ne.2 h0) rfl, writes rfl (bne_iff_ne.2 h0) rfl⟩⟩

/-! ## SCALL, SBREAK and ERET (R621, R622, R632) -/

/-- The rd and rs1 fields of SCALL, SBREAK and ERET are free (R332, D22). -/
theorem decodeWord_iType_of_freeRdRs1 {i : Instr} {f12 : BitVec 12} (hi : i.wellFormed = true)
    (hz : ignoredBits i = 0x000F8F80#32)
    (he : encode i = iType f12 0#5 0b000#3 0#5 0b1110011#7) (rd rs1 : Reg) :
    decodeWord (iType f12 rs1 0b000#3 rd 0b1110011#7) = .ok i := by
  obtain ⟨h0, ht, -, h3, -, -, hf⟩ :=
    iType_fields f12 rs1 0b000#3 rd 0b1110011#7 0b11100#5 rfl
  refine decodeWord_of_isWordOf ⟨hi, ?_⟩
  rw [hz, he]
  exact system_of_fields hf h3 (opcode_eq h0 ht)

theorem traps_of_raiseTrap {i : Instr} {s : State} {c : TrapCause}
    (hx : exec i s = .next (s.raiseTrap c)) : Traps (exec i s) (causeNumber c) s :=
  ⟨_, hx, raiseTrap_reg s c, trapTaken_raiseTrap s c⟩

/-- An ERET right after the trap entry comes back to the trapping instruction. -/
theorem eret_returns_to_trap {i : Instr} {s : State} {c : TrapCause}
    (hx : exec i s = .next (s.raiseTrap c)) :
    ∃ t u, exec i s = .next t ∧ exec .eret t = .next u ∧ u.nextPc = s.pc :=
  ⟨_, _, hx, rfl, rfl⟩

/-- Settles O28: the two fields are among the ignored bits, and both instructions are the trap entry. -/
theorem scallAndSbreakTrap : Obligations.ScallAndSbreakTrap := by
  unfold Obligations.ScallAndSbreakTrap
  refine ⟨fun rd rs1 => ⟨decodeWord_iType_of_freeRdRs1 rfl rfl rfl rd rs1,
    decodeWord_iType_of_freeRdRs1 rfl rfl rfl rd rs1⟩, rfl, rfl, fun s => ?_⟩
  have hscall : exec .scall s = .next (s.raiseTrap .environmentCall) := rfl
  have hsbreak : exec .sbreak s = .next (s.raiseTrap .breakpoint) := rfl
  refine ⟨traps_of_raiseTrap hscall, traps_of_raiseTrap hsbreak, ?_⟩
  simp only [List.forall_mem_cons, List.not_mem_nil, false_imp_iff, implies_true, and_true]
  exact ⟨eret_returns_to_trap hscall, eret_returns_to_trap hsbreak⟩

/-- Settles O29: ERET is the return from a trap, which writes ie, ie1, next_pc and the reservations only. -/
theorem eretReturns : Obligations.EretReturns := by
  unfold Obligations.EretReturns
  intro s
  have hmem : SameMemory s s.returnFromTrap := ⟨returnFromTrap_byteAt s, rfl⟩
  exact ⟨s.returnFromTrap, rfl, rfl, rfl, rfl, rfl, returnFromTrap_reg s, rfl, rfl, rfl, rfl, rfl, rfl,
    hmem, rfl, rfl⟩

end Sys2Proof.Machine
end

