-- ==== Sys2Proof/Proofs/TrapResults.lean ====
section
/-! PROOF. Traps (60_exceptions.md): the trap entry with the commit after it (R710, R403), the external
interrupt between two steps (R712, R713), the one level of nesting (R730, R731), and the core at a vector
with nothing mapped there (R732). -/

namespace Sys2Proof.Machine

/-! ## The trap entry and the return from it -/

/-- Settles O27: each of the three numbers is its cause's, so what the entry writes and keeps is
`trapTaken_raiseTrap`; the commit then adds the count and takes next_pc. -/
theorem trapEntry : Obligations.TrapEntry := by
  unfold Obligations.TrapEntry
  intro s cause number hmem
  have hnumber : number = causeNumber cause := by
    simp only [List.mem_cons, List.not_mem_nil, or_false, Prod.mk.injEq] at hmem
    obtain ⟨rfl, rfl⟩ | ⟨rfl, rfl⟩ | ⟨rfl, rfl⟩ := hmem <;> rfl
  subst hnumber
  exact ⟨⟨_, rfl, raiseTrap_reg s cause, trapTaken_raiseTrap s cause⟩, rfl⟩

/-- A return with nothing between it and the entry undoes the push of ie and goes to the trapping
instruction, whatever ie1 was before (R730). -/
theorem returnFromTrap_raiseTrap (s : State) (c : TrapCause) :
    (s.raiseTrap c).returnFromTrap.ie = s.ie ∧ (s.raiseTrap c).returnFromTrap.ie1 = true
      ∧ (s.raiseTrap c).returnFromTrap.nextPc = s.pc :=
  ⟨raiseTrap_ie1 s c, rfl, raiseTrap_mepc s c⟩

/-- Settles O31: the return goes back one entry; the second entry is one from a state whose ie the first
has cleared, so the return from it leaves ie = 0. -/
theorem trapNesting : Obligations.TrapNesting := by
  unfold Obligations.TrapNesting
  intro s p c d
  obtain ⟨hie, hie1, hnext⟩ := returnFromTrap_raiseTrap { s.raiseTrap c with pc := p } d
  exact ⟨returnFromTrap_raiseTrap s c,
    raiseTrap_mepc _ d, raiseTrap_mcause _ d, raiseTrap_ie1 _ d, hie, hie1, hnext⟩

/-! ## The external interrupt -/

/-- The gate holds the interrupt back (R713). -/
theorem externalInterrupt_gated {s : State} (h : s.cfg.extIntGated = true ∧ s.ie = false) :
    s.externalInterrupt = s := by
  simp [State.externalInterrupt, h]

/-- The interrupt is taken: the trap's writes, and pc at the vector at once (R712). -/
theorem externalInterrupt_taken {s : State} (h : ¬ (s.cfg.extIntGated = true ∧ s.ie = false)) :
    s.externalInterrupt = { s.saveTrap .externalInterrupt with pc := trapVector } := by
  simp [State.externalInterrupt, h]

/-- Settles O30: the gate's two outcomes, the second with the trap's writes written out. -/
theorem externalInterruptEntry : Obligations.ExternalInterruptEntry := by
  unfold Obligations.ExternalInterruptEntry
  exact fun _ => ⟨externalInterrupt_gated, externalInterrupt_taken⟩

/-! ## Nothing mapped at the vector -/

theorem SameRegs.trans {s t u : State} (h : SameRegs s t) (k : SameRegs t u) : SameRegs s u :=
  fun r => (k r).trans (h r)

theorem SamePlatform.ownerAt_eq {s t : State} (h : SamePlatform s t) (a : Nat) :
    t.ownerAt a = s.ownerAt a := by
  obtain ⟨hmap, -⟩ := h
  unfold State.ownerAt
  rw [hmap]

/-- An aligned fetch from an unmapped page gives the word 0 (R222, R232). -/
theorem fetch_unmapped {s : State} (hpc : s.pc.toNat % 4 = 0) (ho : s.ownerAt s.pc.toNat = none) :
    s.fetch = .ok (0#32, s) := by
  have hdev : s.isDevicePage s.pc.toNat = false := by rw [State.isDevicePage, ho]
  have hbytes : ∀ i < 4, s.byteAt (s.pc.toNat + i) = 0#8 := fun i hi =>
    byteAt_unmapped ((ownerAt_add s (by decide) hpc hi).trans ho)
  rw [fetch_memory hpc hdev, valueAt_zero 4 _ hbytes]

/-- The word 0 is no instruction, so a step at an unmapped page is the trap entry and the commit. -/
theorem step_unmapped {s : State} (hpc : s.pc.toNat % 4 = 0) (ho : s.ownerAt s.pc.toNat = none) :
    ∃ r, step s = .next r.commit ∧ SameRegs s r ∧ TrapTaken 2#32 s r :=
  step_of_undecoded (fetch_unmapped hpc ho) (.inl rfl) nofun

/-- R732: the vector is aligned, so with its page unmapped a step there traps. -/
theorem step_at_unmapped_vector {s : State} (hpc : s.pc = 0x000001C0#32)
    (ho : s.ownerAt 0x1C0 = none) :
    ∃ r, step s = .next r.commit ∧ SameRegs s r ∧ TrapTaken 2#32 s r :=
  step_unmapped (by rw [hpc]; rfl) (by rw [hpc]; exact ho)

/-- Settles O32, by induction on the steps after the first: a step at the vector traps and commits the
vector with the page map kept, so the next step starts at the vector again, now with ie = 0, and that is
the ie which its trap pushes to ie1. -/
theorem trapLoopAtVector : Obligations.TrapLoopAtVector := by
  unfold Obligations.TrapLoopAtVector
  intro s n hpc ho
  induction n generalizing s with
  | zero =>
    obtain ⟨r, hstep, hregs, htrap⟩ := step_at_unmapped_vector hpc ho
    exact ⟨r.commit, by rw [afterSteps_succ, hstep]; rfl, htrap.nextPc, htrap.mepc.trans hpc,
      htrap.mcause, htrap.ie, htrap.ie1, congrArg (· + 1#64) htrap.instret, hregs, htrap.memory⟩
  | succ n ih =>
    obtain ⟨r, hstep, hregs, htrap⟩ := step_at_unmapped_vector hpc ho
    have hcount : r.commit.instret = s.instret + 1#64 := congrArg (· + 1#64) htrap.instret
    have hie : r.commit.ie = false := htrap.ie
    obtain ⟨t, hrun, htpc, htmepc, htmcause, htie, htie1, htcount, htregs, htmem⟩ :=
      ih r.commit htrap.nextPc ((htrap.platform.ownerAt_eq _).trans ho)
    refine ⟨t, by rw [afterSteps_succ, hstep]; exact hrun, htpc, htmepc, htmcause, htie, ?_, ?_,
      hregs.trans htregs, htrap.memory.trans htmem⟩
    · rw [htie1, hie, ite_self, if_neg n.succ_ne_zero]
    · rw [htcount, hcount, BitVec.add_assoc, ← BitVec.ofNat_add, Nat.add_comm 1]

end Sys2Proof.Machine
end

