-- ==== Sys2Proof/Proofs/ResetAndHost.lean ====
section
/-! PROOF. Reset and the host (70_reset_and_hazards.md): the state after core construction (R800), and the
invariant there, through a launch (R801) and through every operation of the host (R820). -/

namespace Sys2Proof.Machine

/-! ## Core construction (R800) -/

/-- Every register reads 0, the one that is not stored included (R101, R104). -/
theorem reset_reg (r : Reg) : State.reset.reg r = 0#32 := by
  unfold State.reg
  split
  · rfl
  · exact Vector.getElem_replicate _

/-- With both enable bits clear, mstatus reads as its fixed bits (R121). -/
theorem mstatus_of_disabled {s : State} (hie : s.ie = false) (hie1 : s.ie1 = false) :
    s.csrRead .mstatus = mstatusFixed := by
  simp [State.csrRead, State.mstatus, hie, hie1]

/-- With nothing attached every byte reads 0 (R222). -/
theorem byteAt_of_no_peripherals {s : State} (h : s.peripherals = []) (a : Nat) : s.byteAt a = 0#8 :=
  byteAt_unmapped (by rw [State.ownerAt, h, List.find?_nil])

/-- Settles O20: the stored fields are read off the state; the registers, mstatus and the bytes go through
what their reads do. -/
theorem resetState : Obligations.ResetState := by
  unfold Obligations.ResetState
  exact ⟨reset_reg, rfl, rfl, rfl, rfl, rfl, rfl, rfl, rfl, mstatus_of_disabled rfl rfl, rfl, rfl,
    byteAt_of_no_peripherals rfl⟩

/-- With no key, no attachment and no byte listed, only x0's slot can break the invariant. -/
theorem inv_of_empty {s : State} (h0 : s.zeroSlot) (hr : s.reservations = [])
    (hp : s.peripherals = []) (hm : s.mem = []) : s.Inv where
  zeroSlot := h0
  reservationsOk := reservationsOk_nil hr
  mapOk := by simp [State.mapOk, hp]
  basesAligned := by simp [State.basesAligned, hp]
  memoryOk := by simp [State.memoryOk, hm, Memory.wf]

/-- Settles O13: the reset state lists nothing and its slot of x0 is a zero like the others. -/
theorem resetMeetsInvariant : Obligations.ResetMeetsInvariant := by
  unfold Obligations.ResetMeetsInvariant
  exact inv_of_empty (Vector.getElem_replicate _) rfl rfl rfl

/-! ## The host's operations on a launched machine (R820) -/

theorem inv_setPc {s : State} (h : s.Inv) (v : Word) : (s.setPc v).Inv :=
  inv_of_same h rfl rfl rfl rfl

theorem inv_externalInterrupt {s : State} (h : s.Inv) : s.externalInterrupt.Inv := by
  by_cases hgate : s.cfg.extIntGated = true ∧ s.ie = false
  · rwa [externalInterrupt_gated hgate]
  · rw [externalInterrupt_taken hgate]
    exact inv_of_reservations h rfl (reservationsOk_nil rfl) rfl rfl

theorem setRegister_next {s t : State} {i : Nat} {v : Word} (e : s.setRegister i v = .next t) :
    t = s.setReg (BitVec.ofNat 5 i) v := by
  unfold State.setRegister at e
  split at e <;> cases e
  rfl

/-- A direct write that answers a state wrote one cell of an attached RAM. -/
theorem bufferWrite_next {s t : State} {k l : Nat} {b : Byte} (e : s.bufferWrite k l b = .next t) :
    ∃ p a, p ∈ s.peripherals ∧ p.kind = .ram ∧ p.cellAt l = .ok a
      ∧ t = { s with mem := s.mem.write a b } := by
  unfold State.bufferWrite at e
  split at e
  · cases e
  · rename_i p hk
    split at e
    · cases e
    · cases e
    · rename_i hram
      split at e <;> cases e
      exact ⟨p, _, List.mem_of_getElem? hk, hram, ‹_›, rfl⟩

theorem isBufferByte_iff {s : State} {a : Nat} :
    s.isBufferByte a = true ↔ ∃ p, s.ownerAt a = some p ∧ p.kind ≠ .device := by
  unfold State.isBufferByte
  cases s.ownerAt a with
  | none => simp
  | some p => cases hkind : p.kind <;> simp [hkind]

theorem inv_bufferWrite {s t : State} (h : s.Inv) {k l : Nat} {b : Byte}
    (e : s.bufferWrite k l b = .next t) : t.Inv := by
  obtain ⟨p, a, hp, hram, hcell, rfl⟩ := bufferWrite_next e
  have howner : s.ownerAt a = some p := ownerAt_of_mem h.mapOk hp (claims_iff.2 (cellAt_ok hcell))
  exact inv_write h (isBufferByte_iff.2 ⟨p, howner, by simp [hram]⟩) b

/-! ## Attachment and launch (R220, R226, R801) -/

/-- A byte of RAM or ROM keeps its owner through an attachment. -/
theorem isBufferByte_withPeripheral_old {s : State} (r : AttachRequest) {a : Nat}
    (h : s.isBufferByte a = true) : (s.withPeripheral r).isBufferByte a = true := by
  obtain ⟨p, ho, hk⟩ := isBufferByte_iff.1 h
  exact isBufferByte_iff.2 ⟨p, by rw [ownerAt_withPeripheral, ho, Option.some_or], hk⟩

/-- The bytes of a RAM or ROM just attached are its own. -/
theorem isBufferByte_withPeripheral_new {s : State} (h : s.mapOk) {r : AttachRequest}
    (ha : s.attachable r = true) (hk : r.kind ≠ .device) {a : Nat} (hlo : r.peripheral.base ≤ a)
    (hhi : a < r.peripheral.base + r.peripheral.size) :
    (s.withPeripheral r).isBufferByte a = true :=
  isBufferByte_iff.2 ⟨r.peripheral, ownerAt_of_mem (mapOk_withPeripheral h ha)
    (List.mem_append_right _ (List.mem_singleton.2 rfl)) (claims_iff.2 ⟨hlo, hhi⟩), hk⟩

/-- The image is cut to the peripheral's size, so the bytes it adds to memory lie in its pages. -/
theorem memoryOk_withPeripheral {s : State} (hmap : s.mapOk) (h : s.memoryOk) {r : AttachRequest}
    (ha : s.attachable r = true) : (s.withPeripheral r).memoryOk := by
  obtain ⟨hwf, hlisted⟩ := h
  by_cases hk : r.kind = .device
  · have hmem : (s.withPeripheral r).mem = s.mem := if_pos hk
    exact ⟨hmem ▸ hwf, fun c hc => isBufferByte_withPeripheral_old r (hlisted c (hmem ▸ hc))⟩
  · have hmem : (s.withPeripheral r).mem
        = s.mem.writeBytes r.peripheral.base (r.image.take r.peripheral.size) := if_neg hk
    refine ⟨hmem ▸ Memory.writeBytes_wf _ _ _ hwf, fun c hc => ?_⟩
    obtain ⟨hlo, hhi⟩ | hold := Memory.mem_writeBytes _ _ _ _ (hmem ▸ hc)
    · have hlen := List.length_take_le r.peripheral.size r.image
      exact isBufferByte_withPeripheral_new hmap ha hk hlo (by omega)
    · exact isBufferByte_withPeripheral_old r (hlisted c hold)

theorem inv_withPeripheral {s : State} (h : s.Inv) {r : AttachRequest} (ha : s.attachable r = true)
    (hb : r.peripheral.baseAligned = true) : (s.withPeripheral r).Inv where
  zeroSlot := h.zeroSlot
  reservationsOk := h.reservationsOk
  mapOk := mapOk_withPeripheral h.mapOk ha
  basesAligned := basesAligned_withPeripheral h.basesAligned hb
  memoryOk := memoryOk_withPeripheral h.mapOk h.memoryOk ha

/-- Before the first step an attachment fails, breaks BASES_ALIGNED and is refused, or succeeds. -/
theorem attach_cases {s : State} (h0 : s.instret = 0#64) (r : AttachRequest) :
    s.attach r = .next (false, s) ∨ s.attach r = .refused .basesNotAligned
      ∨ s.attachable r = true ∧ r.peripheral.baseAligned = true
          ∧ s.attach r = .next (true, s.withPeripheral r) := by
  by_cases ha : s.attachable r = true
  · by_cases hb : r.peripheral.baseAligned = true
    · exact .inr (.inr ⟨ha, hb, attach_succeeds h0 ha hb⟩)
    · exact .inr (.inl (attach_basesNotAligned h0 ha hb))
  · exact .inl (attach_rejected h0 ha)

theorem inv_attach {s t : State} (h : s.Inv) {r : AttachRequest} {b : Bool}
    (e : s.attach r = .next (b, t)) : t.Inv := by
  by_cases h0 : s.instret = 0#64
  · obtain e' | e' | ⟨ha, hb, e'⟩ := attach_cases h0 r <;> rw [e] at e' <;> cases e'
    · exact h
    · exact inv_withPeripheral h ha hb
  · rw [attach_started h0] at e
    cases e

theorem attachAll_next {s t : State} {r : AttachRequest} {b : Bool} (e : s.attach r = .next (b, t))
    (rs : List AttachRequest) : State.attachAll (r :: rs) s = State.attachAll rs t := by
  rw [State.attachAll, e]

theorem attachAll_refused {s : State} {r : AttachRequest} {q : Refusal} (e : s.attach r = .refused q)
    (rs : List AttachRequest) : State.attachAll (r :: rs) s = .refused q := by
  rw [State.attachAll, e]

/-- A map's attachments before the first step, by induction on the map: one that fails leaves the state
and one that succeeds leaves the count of steps, so the rest is attached before the first step too. -/
theorem attachAll_inv_or_refused (map : List AttachRequest) {s : State} (h : s.Inv)
    (h0 : s.instret = 0#64) :
    (∃ t, State.attachAll map s = .next t ∧ t.Inv)
      ∨ State.attachAll map s = .refused .basesNotAligned := by
  induction map generalizing s with
  | nil => exact .inl ⟨s, rfl, h⟩
  | cons r rs ih =>
    obtain e | e | ⟨ha, hb, e⟩ := attach_cases h0 r
    · rw [attachAll_next e]
      exact ih h h0
    · exact .inr (attachAll_refused e rs)
    · rw [attachAll_next e]
      exact ih (inv_withPeripheral h ha hb) h0

/-- Settles O14: a launch attaches its map to the reset state, whose invariant does not look at the
parameters; each operation of the host keeps the invariant. -/
theorem hostKeepsInvariant : Obligations.HostKeepsInvariant := by
  unfold Obligations.HostKeepsInvariant
  refine ⟨fun cfg map => ?_, fun s h => ⟨inv_setPc h, inv_externalInterrupt h, fun i v t e => ?_,
    fun _ _ _ _ => inv_bufferWrite h, fun _ _ _ => inv_attach h⟩⟩
  · exact attachAll_inv_or_refused map (inv_of_same resetMeetsInvariant rfl rfl rfl rfl) rfl
  · rw [setRegister_next e]
    exact inv_setReg h _ v

end Sys2Proof.Machine
end
